-- ==== Sys2Proof/Word.lean ====
section
/-! DEFINITION. The words of the block: register words, bytes, and the symbol sequences of the codec (00_scope.md R11, R13). -/

namespace Sys2Proof

/-- A register word or a host-memory byte address: 32 bits (10_state.md R22, 20_memory.md R42). -/
abbrev Word := BitVec 32

/-- One byte of host memory (20_memory.md R43). -/
abbrev Byte := BitVec 8

/-- One 8-bit input unit, 0..255 (00_scope.md R13, 41_lzw_core.md R84). -/
abbrev Symbol := Byte

/-- An ordered run of Symbols (00_scope.md R11, R13). -/
abbrev Sequence := List Symbol

/-- A bit string; index 0 is first in stream order (00_scope.md R11). -/
abbrev Bits := List Bool

end Sys2Proof
end

