-- ==== Sys2Proof/Config.lean ====
section
/-! DEFINITION. The fixed values of 00_scope.md R8 and R9, and the free values: what 93_implementation_defined.md section 1
lets be any value. A free value is an opaque constant, so nothing can be proved of it. -/

namespace Sys2Proof.Config

/-- Number of initial dictionary entries, codes 0..255 (R8). -/
@[simp] abbrev alphabet : Nat := 256

/-- First code assigned to a learned sequence (R8). -/
@[simp] abbrev firstFreeCode : Nat := 256

/-- Width of the header's codeWidth field (R8). -/
@[simp] abbrev hdrWidthBits : Nat := 4

/-- Width of the header's codeCount field (R8). -/
@[simp] abbrev hdrCountBits : Nat := 32

/-- Total header length in bits (R8). -/
@[simp] abbrev hdrBits : Nat := 36

/-- Largest code the Regular dictionary assigns (R8). -/
@[simp] abbrev regMaxCode : Nat := 65535

/-- Smallest Regular code width (R8). -/
@[simp] abbrev regMinWidth : Nat := 8

/-- Largest Regular code width (R8). -/
@[simp] abbrev regMaxWidth : Nat := 16

/-- Improved starting code width (R8). -/
@[simp] abbrev impStartWidth : Nat := 9

/-- Smallest finite DICT_CAP (R9). -/
@[simp] abbrev dictCapMin : Nat := 65536

/-- Largest finite DICT_CAP (R9). -/
@[simp] abbrev dictCapMax : Nat := 2 ^ 32

/-- Host memory holds the byte addresses below this one (ADDR_BITS = 32, R9). -/
@[simp] abbrev memorySize : Nat := 2 ^ 32

/-- What a byte of host memory that nothing has written reads as: the value 95_test_vectors.md section 3 gives host
memory that no MEM line names. DESIGN CHOICE (log 10), unsafe: the spec fixes no contents in general. -/
def unwrittenByte : Byte := 0xEE#8

/-- FREE VALUE (log 11): a byte of the output buffer after a result other than OK, or after a reset that stopped a
command (20_memory.md R45, 70_reset_and_hazards.md R147; U1, U2). Its arguments are the draw's number and the address. -/
opaque freeByte : Nat → Nat → Byte

/-- FREE VALUE (log 2): a latched operand after the reset input (70_reset_and_hazards.md R148; U3). Its arguments are the
draw's number and which operand. -/
opaque freeWord : Nat → Nat → Word

/-- FREE VALUE (log 1): a hidden counter outside a running command (10_state.md R40; U4). Its arguments are the draw's
number and which counter. -/
opaque freeCount : Nat → Nat → Nat

/-- FREE VALUE (log 1): the pending sequence outside a running command (10_state.md R40; U4). -/
opaque freeSequence : Nat → Sequence

/-- FREE VALUE (log 1): the dictionary's entries outside a running command (10_state.md R39; U4). -/
opaque freeEntries : Nat → List Sequence

/-- FREE VALUE (log 1): the bit buffer outside a running command (40_bitchannel.md R76; U4). -/
opaque freeBits : Nat → Bits

end Sys2Proof.Config
end

