-- ==== Sys2Proof/Syntax.lean ====
section
/-! DEFINITION. The command set: one constructor per row of spec/opcode_table.json (30_encoding.md R61). A command word has no
operand field (R60), so a constructor has no argument. -/

namespace Sys2Proof

/-- The four commands of LZWC-1 (30_encoding.md R61). -/
inductive Instr where
  /-- COMPRESS_REGULAR, OP 0x1 (42_regular.md R102). -/
  | compressRegular
  /-- DECOMPRESS_REGULAR, OP 0x2 (42_regular.md R103). -/
  | decompressRegular
  /-- COMPRESS_IMPROVED, OP 0x3 (43_improved.md R112). -/
  | compressImproved
  /-- DECOMPRESS_IMPROVED, OP 0x4 (43_improved.md R113). -/
  | decompressImproved
  deriving DecidableEq, Repr

end Sys2Proof
end

