-- ==== Sys2Proof/WellFormed.lean ====
section
/-! DEFINITION. Which command words, parameters and instructions are well formed. A term of Instr has no operand that could be
wrong (30_encoding.md R60), so `Instr.wf` refuses none; the checks that can refuse are those of the word and of DICT_CAP. -/

namespace Sys2Proof

/-- Bits 31:4 of a command word are zero (30_encoding.md R60). -/
def rsvdZero (w : Word) : Bool := w.extractLsb' 4 28 == 0#28

/-- The OP field names a row of the opcode map (30_encoding.md R61, R62). -/
def opLegal (op : BitVec 4) : Bool := op == 1#4 || op == 2#4 || op == 3#4 || op == 4#4

/-- A legal command word (30_encoding.md R62). -/
def wordLegal (w : Word) : Bool := rsvdZero w && opLegal (w.extractLsb' 0 4)

/-- A legal DICT_CAP: unbounded, or 65536 up to 2^32 (00_scope.md R9). -/
def dictCapLegal : Option Nat → Bool
  | none => true
  | some c => Config.dictCapMin ≤ c && c ≤ Config.dictCapMax

/-- Every command is well formed: it carries no operand (30_encoding.md R60). -/
def Instr.wf : Instr → Bool
  | .compressRegular => true
  | .decompressRegular => true
  | .compressImproved => true
  | .decompressImproved => true

end Sys2Proof
end

