-- ==== Sys2Proof/Decode.lean ====
section
/-! DEFINITION. The command word's decoder, total on every 32-bit word and rejecting by name, and the encoder after it
(30_encoding.md R60, R61, R62). -/

namespace Sys2Proof

/-- Why a word is no command (30_encoding.md R62). -/
inductive DecodeError where
  /-- A bit of word[31:4] is set. -/
  | reservedBits
  /-- OP is 0x0 or 0x5..0xF. -/
  | reservedOp
  deriving DecidableEq, Repr

/-- The opcode map of 30_encoding.md R61. -/
def decodeOp (op : BitVec 4) : Except DecodeError Instr :=
  if op = 1#4 then .ok .compressRegular
  else if op = 2#4 then .ok .decompressRegular
  else if op = 3#4 then .ok .compressImproved
  else if op = 4#4 then .ok .decompressImproved
  else .error .reservedOp

/-- The OP field of a command word, bits 3:0 (30_encoding.md R60). -/
def opField (w : Word) : BitVec 4 := w.extractLsb' 0 4

/-- The command a word names, or why it names none (30_encoding.md R60, R61, R62). -/
def decode (w : Word) : Except DecodeError Instr :=
  if rsvdZero w then decodeOp (opField w) else .error .reservedBits

/-- The word of a command (30_encoding.md R61). -/
def encode : Instr → Word
  | .compressRegular => 0x00000001#32
  | .decompressRegular => 0x00000002#32
  | .compressImproved => 0x00000003#32
  | .decompressImproved => 0x00000004#32

/-- The 32-bit word whose low `nbits` bits are those of `w`; the bits above are zero. -/
def tableWord (nbits w : Nat) : Word := BitVec.ofNat 32 (w % 2 ^ nbits)

/-- The decoder on a row of spec/opcode_table.json. A command word is one 32-bit bus word, register bit i on bus bit i, so
no byte order comes in (20_memory.md R48). -/
def decodeTableWord (nbits w : Nat) : Option Instr :=
  match decode (tableWord nbits w) with
  | .ok i => some i
  | .error _ => none

end Sys2Proof
end

