-- ==== Sys2Proof/Machine/State.lean ====
section
/-! DEFINITION. The state of the block, of the host that drives it and of host memory, as plain data; the reasons a step can
stop; the state after reset (10_state.md, 70_reset_and_hazards.md R148). -/

namespace Sys2Proof.Machine

/-- Why a step stops. None of them ends a command of the block: the block reports its own errors in STATUS.RESULT
(60_exceptions.md R131). -/
inductive Fault where
  /-- Raised by a host register access that is narrower than 32 bits or at an offset that is not a multiple of 4: a slave
  error response with no register effect, which "A model treats ... as a fault of the host" (20_memory.md R48, F2; log 3).
  Safe. -/
  | slaveError (offset : BitVec 8)
  /-- Raised by a host memory access to a buffer of the running command: "A model treats such an access as a fault of the
  host" (20_memory.md R55, F1; log 4). Safe. -/
  | bufferHazard (addr : Nat)
  /-- Raised by a MEM line or a host store that reaches past host memory's last byte (20_memory.md R42; log 25). Safe. -/
  | noSuchAddress (addr : Nat)
  /-- Raised by an IFNE line whose label the host program does not hold (30_encoding.md R74; log 7). Safe. -/
  | undefinedLabel (label : Nat)
  /-- Raised by an engine step whose latched op names no command. No run reaches it: only a legal word is latched
  (44_command_interface.md R118, R121; log 14). Safe. -/
  | illegalLatchedOp
  deriving DecidableEq, Repr

/-- Why a step refuses. -/
inductive Refusal where
  /-- Raised by `exec` for an instruction that has no meaning yet. Safe. No arm of this model raises it. -/
  | notModelled (mnemonic : String)
  deriving DecidableEq, Repr

/-- The result codes of 60_exceptions.md R131. Codes 9..15 are never produced, so they have no constructor. -/
inductive ResultCode where
  | ok
  | malformedHeader
  | truncatedStream
  | corruptCode
  | outOverflow
  | dictFull
  | illegalCommand
  | badBuffer
  | busError
  deriving DecidableEq, Repr

/-- The engine's phase (10_state.md R38). -/
inductive Phase where
  | idle
  | run
  deriving DecidableEq, Repr

/-- The engine's dictionary: an arena of sequences in which the entry at index k is the one with code k, and the next code
to register (10_state.md R39, R40; 41_lzw_core.md R85; log 18). -/
structure Dict where
  entries : List Sequence
  nextCode : Nat
  deriving DecidableEq, Repr

/-- The grow schedule's three counters (43_improved.md R107). -/
structure Grow where
  width : Nat
  simulatedNext : Nat
  growAt : Nat
  deriving DecidableEq, Repr

/-- The hidden state of the algorithms, local to one command (10_state.md R39, R40; 40_bitchannel.md R76). -/
structure Scratch where
  dict : Dict
  w : Sequence
  grow : Grow
  pos : Nat
  bits : Bits
  deriving DecidableEq, Repr

/-- The engine: phase, latched operands and hidden state (10_state.md R38, R39, R40). -/
structure Engine where
  phase : Phase
  op : BitVec 4
  inBase : Word
  inLen : Word
  outBase : Word
  outCap : Word
  scratch : Scratch
  deriving DecidableEq, Repr

/-- The two kinds of bus access (00_scope.md R9). -/
inductive Access where
  | read
  | write
  deriving DecidableEq, Repr

/-- A range of host memory whose reads, or whose writes, the bus refuses. -/
structure BusHole where
  base : Nat
  size : Nat
  access : Access
  deriving DecidableEq, Repr

/-- The open parameters of 00_scope.md R9 that are fixed for one machine: DICT_CAP (`none` is `unbounded`; log 9), and MEM_OK
as the list of ranges the bus refuses (log 8). No step changes it. -/
structure Platform where
  dictCap : Option Nat
  holes : List BusHole
  deriving DecidableEq, Repr

/-- The width of a register-window access the host may attempt (20_memory.md R48). -/
inductive BusWidth where
  | bits8
  | bits16
  | bits32
  deriving DecidableEq, Repr

/-- The registers of the window (10_state.md R22). -/
inductive Reg where
  | cmd
  | status
  | intEn
  | inBase
  | inLen
  | outBase
  | outCap
  | outLen
  | hdrWidth
  | hdrCount
  | lastWidth
  | dictNext
  | dictCapRd
  | errInfo
  deriving DecidableEq, Repr

/-- Bits hi down to lo of a register word (00_scope.md R11). -/
structure BitField where
  hi : Nat
  lo : Nat
  deriving DecidableEq, Repr

/-- One line of a host program (30_encoding.md R74). Labels are numbers (log 7). An access carries its width, so that the
accesses 20_memory.md R48 forbids can be written down. -/
inductive HostOp where
  /-- `WR`: a register write of `v` at an offset of the window. -/
  | wr (offset : BitVec 8) (width : BusWidth) (v : Word)
  /-- `RD`: a register read. -/
  | rd (offset : BitVec 8) (width : BusWidth)
  /-- `POLL`: a register read, repeated until the field equals `v`. -/
  | poll (offset : BitVec 8) (field : BitField) (v : Word)
  /-- `IFNE`: a register read; if the field differs from `v` the host goes on at the label. -/
  | ifne (offset : BitVec 8) (field : BitField) (v : Word) (label : Nat)
  /-- `<label>:`. -/
  | label (name : Nat)
  /-- `MEM`: bytes the host stores at increasing addresses before the program runs. -/
  | mem (addr : Word) (bytes : List Byte)
  /-- Host stores at increasing addresses while the program runs (20_memory.md R55 speaks of host writes; log 25). -/
  | store (addr : Word) (bytes : List Byte)
  /-- A host load of one byte (20_memory.md R55 speaks of host reads of a buffer; log 25). -/
  | load (addr : Word)
  /-- `END`: the program stops. -/
  | stop
  deriving DecidableEq, Repr

/-- The host: its program, whether the bytes of the program's MEM lines are stored and so the program runs (30_encoding.md R74;
log 25), the index of its next line, and the value its last read returned (44_command_interface.md R117). -/
structure HostPort where
  program : List HostOp
  memLoaded : Bool
  line : Nat
  lastRead : Word
  deriving DecidableEq, Repr

/-- Who moves in a step: the host, the engine (44_command_interface.md R117), or the reset input (70_reset_and_hazards.md
R147). -/
inductive Slot where
  | host
  | engine
  | reset
  deriving DecidableEq, Repr

/-- Host memory: (address, byte) pairs, addresses strictly rising, no entry equal to what an unlisted address reads as. -/
abbrev Memory := List Host.Cell

/-- The whole machine. BUSY is the engine's phase (10_state.md R38), irq and DICT_CAP_RD are computed (60_exceptions.md R141,
10_state.md R35). `host`, `schedule` and `freeSerial` are the model's own fields (log 5, 7, 11, 20). -/
structure State where
  cmd : Word
  done : Bool
  ignoredWrite : Bool
  result : ResultCode
  doneIe : Bool
  inBase : Word
  inLen : Word
  outBase : Word
  outCap : Word
  outLen : Word
  hdrWidth : BitVec 5
  hdrCount : Word
  lastWidth : BitVec 6
  dictNext : Word
  errInfo : Word
  engine : Engine
  mem : Memory
  platform : Platform
  host : HostPort
  schedule : List Slot
  freeSerial : Nat
  deriving DecidableEq, Repr

/-- The machine right after reset (70_reset_and_hazards.md R148). The hidden state and the latched operands, which the spec
leaves unspecified, are empty and zero here: DESIGN CHOICE (log 1, 2). The platform refuses no access and bounds no
dictionary: DESIGN CHOICE (log 8, 9). No host program is loaded (log 13). -/
def State.reset : State where
  cmd := 0#32
  done := false
  ignoredWrite := false
  result := .ok
  doneIe := false
  inBase := 0#32
  inLen := 0#32
  outBase := 0#32
  outCap := 0#32
  outLen := 0#32
  hdrWidth := 0#5
  hdrCount := 0#32
  lastWidth := 0#6
  dictNext := 0#32
  errInfo := 0#32
  engine :=
    { phase := .idle, op := 0#4, inBase := 0#32, inLen := 0#32, outBase := 0#32, outCap := 0#32
      scratch :=
        { dict := { entries := [], nextCode := 0 }, w := []
          grow := { width := 0, simulatedNext := 0, growAt := 0 }, pos := 0, bits := [] } }
  mem := []
  platform := { dictCap := none, holes := [] }
  host := { program := [], memLoaded := false, line := 0, lastRead := 0#32 }
  schedule := []
  freeSerial := 0

end Sys2Proof.Machine
end

