-- ==== Sys2Proof/Machine/BitChannel.lean ====
section
/-! DEFINITION. BitChannel: the bit-stream packer and unpacker and the fixed-width code serializer (40_bitchannel.md). -/

namespace Sys2Proof.Machine

/-- The number of bits of `v` without leading zeros (00_scope.md R11). -/
def bitlen (v : Nat) : Nat := if v = 0 then 0 else v.log2 + 1

/-- The unsigned integer whose bits are listed most significant first: `v <- 2*v + bit` (40_bitchannel.md R80). -/
def bitsToNat (bs : Bits) : Nat := bs.foldl (fun v b => 2 * v + b.toNat) 0

/-- Bits width-1 down to 0 of `v`, most significant first (00_scope.md R12, 40_bitchannel.md R79). -/
def natBits : Nat → Nat → Bits
  | 0, _ => []
  | width + 1, v => v.testBit width :: natBits width v

/-- One byte's bits, most significant first (40_bitchannel.md R77, 20_memory.md R47). -/
def byteBits (b : Byte) : Bits := natBits 8 b.toNat

/-- bytesToBits(B) (40_bitchannel.md R77). -/
def bytesToBits : List Byte → Bits
  | [] => []
  | b :: bs => byteBits b ++ bytesToBits bs

/-- The byte of the first eight bits of `S`, a missing bit being 0 (40_bitchannel.md R78). -/
def byteOfBits (S : Bits) : Byte := BitVec.ofNat 8 (bitsToNat (S.take 8 ++ List.replicate (8 - S.length) false))

/-- `n` bytes of the bit string, eight bits each (40_bitchannel.md R78). -/
def packBytes : Nat → Bits → List Byte
  | 0, _ => []
  | n + 1, S => byteOfBits S :: packBytes n (S.drop 8)

/-- bitsToBytes(S): ceil(L/8) bytes, the last padded with trailing zero bits (40_bitchannel.md R78, 30_encoding.md R68). -/
def bitsToBytes (S : Bits) : List Byte := packBytes ((S.length + 7) / 8) S

/-- writeFixedWidth(S, value, width): the value masked to the width, most significant bit first, appended to S
(40_bitchannel.md R79; log 22). -/
def writeFixedWidth (S : Bits) (value width : Nat) : Bits := S ++ natBits width (value % 2 ^ width)

/-- readFixedWidth(S, offset, width), `none` being `fail Short` (40_bitchannel.md R80). -/
def readFixedWidth (S : Bits) (offset width : Nat) : Option Nat :=
  if offset + width > S.length then none else some (bitsToNat ((S.drop offset).take width))

/-- writeHeader(S, codeWidth, codeCount): 16 is stored as 0 (40_bitchannel.md R81, 30_encoding.md R65, R66). -/
def writeHeader (S : Bits) (codeWidth codeCount : Nat) : Bits :=
  writeFixedWidth (writeFixedWidth S (codeWidth % 16) Config.hdrWidthBits) codeCount Config.hdrCountBits

/-- The width a header field means: 0 is 16, unconditionally (30_encoding.md R65). -/
def fieldWidth (f : Nat) : Nat := if f = 0 then 16 else f

/-- readHeader(S) (40_bitchannel.md R82), `none` being `fail Short`. -/
def readHeader (S : Bits) : Option (Nat × Nat) :=
  if S.length < Config.hdrBits then none
  else
    match readFixedWidth S 0 Config.hdrWidthBits, readFixedWidth S Config.hdrWidthBits Config.hdrCountBits with
    | some f, some n => some (fieldWidth f, n)
    | _, _ => none

/-- `count` codes of `width` bits each from an offset on, in order; `none` where one does not fit. -/
def readCodes (S : Bits) (width : Nat) : Nat → Nat → Option (List Nat)
  | _, 0 => some []
  | offset, count + 1 =>
    match readFixedWidth S offset width, readCodes S width (offset + width) count with
    | some k, some ks => some (k :: ks)
    | _, _ => none

/-- decodeFixedWidthArray(S, offset, width, count): all of the array is checked first; a failure carries the index of the
first code that does not fit (40_bitchannel.md R83, 90_conflicts.md C9). -/
def decodeFixedWidthArray (S : Bits) (offset width count : Nat) : Except Nat (List Nat) :=
  if offset + count * width > S.length then .error ((S.length - offset) / width)
  else
    match readCodes S width offset count with
    | some codes => .ok codes
    | none => .error ((S.length - offset) / width)

end Sys2Proof.Machine
end

