-- ==== Sys2Proof/Machine/Ops.lean ====
section
/-! DEFINITION. The operations every meaning shares: host memory and its bus, and the two ways a command ends, the block's
"trap entry and exit" (20_memory.md R43..R46; 60_exceptions.md R133, R134; 70_reset_and_hazards.md R147). -/

namespace Sys2Proof.Machine

/-! ## Host memory -/

/-- The byte of memory at an address. -/
def Memory.read : Memory → Nat → Byte
  | [], _ => Config.unwrittenByte
  | (a, v) :: m, x => if x = a then v else Memory.read m x

/-- Memory with one byte stored, in canonical form. -/
def Memory.write : Memory → Nat → Byte → Memory
  | [], x, v => if v = Config.unwrittenByte then [] else [(x, v)]
  | (a, u) :: m, x, v =>
    if x < a then
      if v = Config.unwrittenByte then (a, u) :: m else (x, v) :: (a, u) :: m
    else if x = a then
      if v = Config.unwrittenByte then m else (x, v) :: m
    else (a, u) :: Memory.write m x v

/-- The canonical form, from a least address on: addresses strictly rising and inside host memory, no entry equal to what an
unlisted address reads as. -/
def Memory.wfFrom : Nat → Memory → Bool
  | _, [] => true
  | lo, (a, v) :: m =>
    decide (lo ≤ a) && decide (a < Config.memorySize) && decide (v ≠ Config.unwrittenByte) && Memory.wfFrom (a + 1) m

/-- The canonical form of a memory. -/
def Memory.wf (m : Memory) : Bool := Memory.wfFrom 0 m

/-- Memory with bytes stored at increasing addresses from a base. -/
def Memory.writeAll : Memory → Nat → List Byte → Memory
  | m, _, [] => m
  | m, a, v :: vs => Memory.writeAll (Memory.write m a v) (a + 1) vs

/-- Memory in which each of `n` bytes from a base holds a free value: "A model treats each such byte as any value"
(20_memory.md R45; log 11). Addresses past host memory's end do not exist and get none. -/
def Memory.forget (serial : Nat) : Memory → Nat → Nat → Memory
  | m, _, 0 => m
  | m, a, n + 1 =>
    Memory.forget serial (if a < Config.memorySize then Memory.write m a (Config.freeByte serial a) else m) (a + 1) n

/-! ## The memory-master port -/

/-- The address lies in the hole, for that kind of access. -/
def BusHole.refuses (h : BusHole) (a : Nat) (k : Access) : Bool :=
  decide (h.access = k) && decide (h.base ≤ a) && decide (a < h.base + h.size)

/-- MEM_OK (00_scope.md R9). An address past host memory's last byte exists on no bus; no accepted command reaches one
(44_command_interface.md R120; log 12). -/
def Platform.memOk (p : Platform) (a : Nat) (k : Access) : Bool :=
  decide (a < Config.memorySize) && p.holes.all fun h => !h.refuses a k

/-- `raise Result(code, info)` (00_scope.md R11, 60_exceptions.md R133). -/
structure Raise where
  code : ResultCode
  info : Nat
  deriving DecidableEq, Repr

/-- MemRead(addr, 1) (20_memory.md R43). -/
def memRead (p : Platform) (m : Memory) (a : Nat) : Except Raise Byte :=
  if p.memOk a .read then .ok (m.read a) else .error { code := .busError, info := a }

/-- MemWrite(addr, 1, v) (20_memory.md R44). -/
def memWrite (p : Platform) (m : Memory) (a : Nat) (v : Byte) : Except Raise Memory :=
  if p.memOk a .write then .ok (m.write a v) else .error { code := .busError, info := a }

/-- Reads `n` bytes in increasing address order; after a refused one no later byte is read (20_memory.md R46). -/
def memReadAll (p : Platform) (m : Memory) : Nat → Nat → Except Raise (List Byte)
  | _, 0 => .ok []
  | a, n + 1 =>
    match memRead p m a with
    | .error r => .error r
    | .ok b =>
      match memReadAll p m (a + 1) n with
      | .error r => .error r
      | .ok bs => .ok (b :: bs)

/-- Writes bytes in increasing address order, up to the first refused one (42_regular.md R102). -/
def memWriteAll (p : Platform) : Memory → Nat → List Byte → Except Raise Memory
  | m, _, [] => .ok m
  | m, a, v :: vs =>
    match memWrite p m a v with
    | .error r => .error r
    | .ok m' => memWriteAll p m' (a + 1) vs

/-! ## How a command ends -/

/-- What `complete OK with ...` names (60_exceptions.md R134): the output and the completion registers' values, exact. -/
structure Completion where
  out : List Byte
  hdrWidth : Nat
  hdrCount : Nat
  lastWidth : Nat
  dictNext : Nat
  deriving DecidableEq, Repr

/-- A number saturated at 2^32 - 1 (10_state.md R34, 60_exceptions.md R131). -/
def saturate32 (n : Nat) : Nat := min n (2 ^ 32 - 1)

/-- The hidden state outside a running command: any value (10_state.md R39, R40; U4; log 1). -/
def freeScratch (serial : Nat) : Scratch where
  dict := { entries := Config.freeEntries serial, nextCode := Config.freeCount serial 0 }
  w := Config.freeSequence serial
  grow :=
    { width := Config.freeCount serial 1, simulatedNext := Config.freeCount serial 2, growAt := Config.freeCount serial 3 }
  pos := Config.freeCount serial 4
  bits := Config.freeBits serial

/-- The engine becomes idle and its dictionary, counters and bit buffer are discarded (60_exceptions.md R133). The latched
operands stay: nothing reads them before the next acceptance overwrites them (10_state.md R38). -/
def discardScratch (s : State) : State :=
  { s with
    engine := { s.engine with phase := .idle, scratch := freeScratch s.freeSerial }
    freeSerial := s.freeSerial + 1 }

/-- The registers of an error completion (60_exceptions.md R133). -/
def setErrorRegs (code : ResultCode) (info : Word) (s : State) : State :=
  { s with
    result := code, done := true, errInfo := info
    outLen := 0#32, hdrWidth := 0#5, hdrCount := 0#32, lastWidth := 0#6, dictNext := 0#32 }

/-- The registers of an OK completion (60_exceptions.md R134). DICT_NEXT saturates (10_state.md R34). -/
def setOkRegs (c : Completion) (s : State) : State :=
  { s with
    result := .ok, done := true, errInfo := 0#32
    outLen := BitVec.ofNat 32 c.out.length
    hdrWidth := BitVec.ofNat 5 c.hdrWidth
    hdrCount := BitVec.ofNat 32 c.hdrCount
    lastWidth := BitVec.ofNat 6 c.lastWidth
    dictNext := BitVec.ofNat 32 (saturate32 c.dictNext) }

/-- Each byte of the latched output buffer becomes any value (20_memory.md R45; log 11). -/
def forgetOutput (s : State) : State :=
  { s with mem := s.mem.forget s.freeSerial s.engine.outBase.toNat s.engine.outCap.toNat }

/-- Error completion of a running command, `raise Result(code, info)` (60_exceptions.md R133). -/
def raiseResult (r : Raise) (s : State) : State :=
  discardScratch (setErrorRegs r.code (BitVec.ofNat 32 r.info) (forgetOutput s))

/-- `complete OK with ...`, the output being already in memory (60_exceptions.md R134). -/
def completeOk (c : Completion) (m : Memory) (s : State) : State :=
  discardScratch (setOkRegs c { s with mem := m })

/-- What the reset input leaves in the latched operands: any value (70_reset_and_hazards.md R148; U3; log 2). -/
def freeEngine (serial : Nat) : Engine where
  phase := .idle
  op := (Config.freeWord serial 0).extractLsb' 0 4
  inBase := Config.freeWord serial 1
  inLen := Config.freeWord serial 2
  outBase := Config.freeWord serial 3
  outCap := Config.freeWord serial 4
  scratch := freeScratch serial

/-- The reset input asserted (70_reset_and_hazards.md R147, R148). A command in flight is stopped with no completion, and
each byte of its output buffer becomes any value. The host, its memory outside that buffer and the platform are untouched. -/
def assertReset (s : State) : State :=
  let m := match s.engine.phase with
    | .idle => s.mem
    | .run => (forgetOutput s).mem
  { s with
    cmd := 0#32, done := false, ignoredWrite := false, result := .ok, doneIe := false
    inBase := 0#32, inLen := 0#32, outBase := 0#32, outCap := 0#32
    outLen := 0#32, hdrWidth := 0#5, hdrCount := 0#32, lastWidth := 0#6, dictNext := 0#32, errInfo := 0#32
    engine := freeEngine s.freeSerial
    mem := m
    freeSerial := s.freeSerial + 1 }

end Sys2Proof.Machine
end

