-- ==== Sys2Proof/Machine/LzwCore.lean ====
section
/-! DEFINITION. LzwCore: the dictionary, the encode loop and the decode loop that both variants share (41_lzw_core.md). A code is a
Nat: an exact unsigned integer that nothing wraps (00_scope.md R10). -/

namespace Sys2Proof.Machine

/-- Every dictionary starts with the 256 one-symbol sequences, symbol c at code c, and nextCode = 256 (41_lzw_core.md R85). -/
def Dict.seed : Dict where
  entries := (List.range Config.alphabet).map fun c => [BitVec.ofNat 8 c]
  nextCode := Config.firstFreeCode

/-- The encode direction: the code of a sequence, `none` where it is not in the dictionary (10_state.md R39). -/
def Dict.codeOf (d : Dict) (q : Sequence) : Option Nat := d.entries.idxOf? q

/-- The decode direction: the sequence of a code, `none` where the code is not in the dictionary (41_lzw_core.md R89). -/
def Dict.seqOf (d : Dict) (k : Nat) : Option Sequence := d.entries[k]?

/-- `D[q] <- nextCode; nextCode <- nextCode + 1` (41_lzw_core.md R86). -/
def Dict.insert (d : Dict) (q : Sequence) : Dict where
  entries := d.entries ++ [q]
  nextCode := d.nextCode + 1

/-- What a variant's admission policy answers (41_lzw_core.md R86). -/
inductive Admission where
  | insert
  | skip
  | full
  deriving DecidableEq, Repr

/-- The registration of an entry under an admission's answer, `none` where the hardware cannot hold it (41_lzw_core.md R86). -/
def Dict.register (d : Dict) (a : Admission) (q : Sequence) : Option Dict :=
  match a with
  | .insert => some (d.insert q)
  | .skip => some d
  | .full => none

/-- The code of the pending sequence. It is always in the dictionary when it is emitted (41_lzw_core.md R87), so the default
is never taken (log 17). -/
def Dict.emit (d : Dict) (w : Sequence) : Nat := (d.codeOf w).getD 0

/-- The loop of encodeSymbols from a dictionary and a pending sequence on; `n` is the number of codes already emitted
(41_lzw_core.md R87). -/
def encodeLoop (policy : Nat → Admission) : List Symbol → Dict → Sequence → Nat → Except Raise (List Nat × Dict)
  | [], d, w, _ => .ok (if w = [] then [] else [d.emit w], d)
  | c :: xs, d, w, n =>
    if (d.codeOf (w ++ [c])).isSome then encodeLoop policy xs d (w ++ [c]) n
    else
      match d.register (policy d.nextCode) (w ++ [c]) with
      | none => .error { code := .dictFull, info := n }
      | some d' =>
        match encodeLoop policy xs d' [c] (n + 1) with
        | .error r => .error r
        | .ok (codes, e) => .ok (d.emit w :: codes, e)

/-- encodeSymbols(X, policy): the codes, and the final dictionary with its nextCode (41_lzw_core.md R87). -/
def encodeSymbols (policy : Nat → Admission) (xs : List Symbol) : Except Raise (List Nat × Dict) :=
  encodeLoop policy xs Dict.seed [] 0

/-- The entry a code stands for: a known key's sequence; for nextCode, w and w's first symbol again; none for a corrupt code
(41_lzw_core.md R90). -/
def decodeEntry (d : Dict) (w : Sequence) (k : Nat) : Option Sequence :=
  if k < d.nextCode then d.seqOf k
  else if k = d.nextCode then some (w ++ w.take 1)
  else none

/-- The loop of decodeCodes from code `i` on; `len` is the number of symbols already in the output. The checks come in the
order corrupt, overflow, full (41_lzw_core.md R90). -/
def decodeLoop (policy : Nat → Admission) (outCap : Nat) :
    List Nat → Nat → Dict → Sequence → Nat → Except Raise (List Symbol × Dict)
  | [], _, d, _, _ => .ok ([], d)
  | k :: ks, i, d, w, len =>
    match decodeEntry d w k with
    | none => .error { code := .corruptCode, info := i }
    | some entry =>
      if len + entry.length > outCap then .error { code := .outOverflow, info := i }
      else
        match d.register (policy d.nextCode) (w ++ entry.take 1) with
        | none => .error { code := .dictFull, info := i }
        | some d' =>
          match decodeLoop policy outCap ks (i + 1) d' entry (len + entry.length) with
          | .error r => .error r
          | .ok (out, e) => .ok (entry ++ out, e)

/-- decodeCodes(codes, policy, out_cap): the output, and the final dictionary with its nextCode. The first code must be a
literal (41_lzw_core.md R90, R91, R93). -/
def decodeCodes (policy : Nat → Admission) (codes : List Nat) (outCap : Nat) : Except Raise (List Symbol × Dict) :=
  match codes with
  | [] => .ok ([], Dict.seed)
  | k :: ks =>
    if k < Config.firstFreeCode then
      match Dict.seed.seqOf k with
      | none => .error { code := .corruptCode, info := 0 }
      | some w =>
        if w.length > outCap then .error { code := .outOverflow, info := 0 }
        else
          match decodeLoop policy outCap ks 1 Dict.seed w w.length with
          | .error r => .error r
          | .ok (out, e) => .ok (w ++ out, e)
    else .error { code := .corruptCode, info := 0 }

end Sys2Proof.Machine
end

