-- ==== Sys2Proof/Machine/Operands.lean ====
section
/-! DEFINITION. A command's operands: the buffer check at the CMD write, the latched buffers, and the reading and writing of
them (10_state.md R38; 44_command_interface.md R120, R121). -/

namespace Sys2Proof.Machine

/-- `buffers_bad` on exact sums: a range wraps past 2^32, or two non-empty ranges overlap (44_command_interface.md R120). -/
def buffersBad (inBase inLen outBase outCap : Word) : Bool :=
  decide (inBase.toNat + inLen.toNat > 2 ^ 32) || decide (outBase.toNat + outCap.toNat > 2 ^ 32) ||
    (decide (inLen.toNat > 0) && decide (outCap.toNat > 0) && decide (inBase.toNat < outBase.toNat + outCap.toNat) &&
      decide (outBase.toNat < inBase.toNat + inLen.toNat))

/-- The address of byte `i` of the latched input buffer (20_memory.md R47). -/
def State.inAddr (s : State) (i : Nat) : Nat := s.engine.inBase.toNat + i

/-- The address of byte `j` of the latched output buffer (20_memory.md R47). -/
def State.outAddr (s : State) (j : Nat) : Nat := s.engine.outBase.toNat + j

/-- The latched length of the input buffer. -/
def State.inLength (s : State) : Nat := s.engine.inLen.toNat

/-- The latched capacity of the output buffer. -/
def State.outCapacity (s : State) : Nat := s.engine.outCap.toNat

/-- An address of the latched input buffer (20_memory.md R46). -/
def State.inInput (s : State) (a : Nat) : Bool := decide (s.inAddr 0 ≤ a) && decide (a < s.inAddr s.inLength)

/-- An address of the latched output buffer (20_memory.md R45). -/
def State.inOutput (s : State) (a : Nat) : Bool := decide (s.outAddr 0 ≤ a) && decide (a < s.outAddr s.outCapacity)

/-- All of the input, read before any output is written (20_memory.md R46). -/
def readInput (s : State) : Except Raise (List Byte) := memReadAll s.platform s.mem (s.inAddr 0) s.inLength

/-- The output bytes, written in increasing address order from out_base (42_regular.md R102). -/
def writeOutput (s : State) (out : List Byte) : Except Raise Memory :=
  memWriteAll s.platform s.mem (s.outAddr 0) out

/-- One command: read the input, transform it, write the output; the first failure ends it (60_exceptions.md R135). -/
def commandOutcome (codec : List Byte → Except Raise Completion) (s : State) : Except Raise (Completion × Memory) :=
  match readInput s with
  | .error r => .error r
  | .ok x =>
    match codec x with
    | .error r => .error r
    | .ok c =>
      match writeOutput s c.out with
      | .error r => .error r
      | .ok m => .ok (c, m)

/-- A whole command and its completion, in one step (44_command_interface.md R117, R122). -/
def runCommand (codec : List Byte → Except Raise Completion) (s : State) : State :=
  match commandOutcome codec s with
  | .ok (c, m) => completeOk c m s
  | .error r => raiseResult r s

end Sys2Proof.Machine
end

