-- ==== Sys2Proof/Machine/Improved.lean ====
section
/-! DEFINITION. ImprovedCodec: the variable-width variant, COMPRESS_IMPROVED and DECOMPRESS_IMPROVED (43_improved.md). -/

namespace Sys2Proof.Machine

/-- The Improved admission policy: insert without bound, or up to a finite DICT_CAP (43_improved.md R105). -/
def admitImproved (dictCap : Option Nat) (nextCode : Nat) : Admission :=
  match dictCap with
  | none => .insert
  | some cap => if nextCode < cap then .insert else .full

/-- The grow schedule at its start, for a starting width (43_improved.md R107, R114). -/
def Grow.start (width : Nat) : Grow where
  width := width
  simulatedNext := Config.firstFreeCode
  growAt := 2 ^ width

/-- The grow step, after each code (43_improved.md R108). -/
def growStep (g : Grow) : Grow :=
  if g.simulatedNext + 1 = g.growAt then
    { width := g.width + 1, simulatedNext := g.simulatedNext + 1, growAt := 2 * g.growAt }
  else { g with simulatedNext := g.simulatedNext + 1 }

/-- The schedule after `n` codes. -/
def growAfter : Nat → Grow → Grow
  | 0, g => g
  | n + 1, g => growAfter n (growStep g)

/-- The code region under the grow schedule, and the width of its last code (`last` where there is none)
(43_improved.md R112, 30_encoding.md R70). -/
def writeGrowing : List Nat → Grow → Nat → Bits × Nat
  | [], _, last => ([], last)
  | k :: ks, g, _ =>
    let r := writeGrowing ks (growStep g) g.width
    (writeFixedWidth [] k g.width ++ r.1, r.2)

/-- A whole Improved stream's real bits (30_encoding.md R63, R70). -/
def improvedBits (codes : List Nat) : Bits :=
  writeHeader [] Config.impStartWidth codes.length ++ (writeGrowing codes (Grow.start Config.impStartWidth) 0).1

/-- The width of the last code of an Improved stream the block writes, 0 for no code (10_state.md R33). -/
def improvedLastWidth (codes : List Nat) : Nat := (writeGrowing codes (Grow.start Config.impStartWidth) 0).2

/-- compressImproved on the bytes of the input buffer (43_improved.md R112). -/
def compressImprovedBytes (dictCap : Option Nat) (outCap : Nat) (xs : List Symbol) : Except Raise Completion :=
  match encodeSymbols (admitImproved dictCap) xs with
  | .error r => .error r
  | .ok (codes, d) =>
    let B := bitsToBytes (improvedBits codes)
    if B.length > outCap then .error { code := .outOverflow, info := saturate32 B.length }
    else
      .ok
        { out := B, hdrWidth := Config.impStartWidth, hdrCount := codes.length
          lastWidth := improvedLastWidth codes, dictNext := saturate32 d.nextCode }

/-- Phase 1 of decompressImproved: `n` codes read under the schedule from a cursor on, `i` the index of the next one. The
answer is the codes and the last one's width; a failure is the index of the code that does not fit (43_improved.md R113). -/
def readGrowing (S : Bits) : Nat → Nat → Grow → Nat → Nat → Except Nat (List Nat × Nat)
  | 0, _, _, _, last => .ok ([], last)
  | n + 1, pos, g, i, _ =>
    match readFixedWidth S pos g.width with
    | none => .error i
    | some k =>
      match readGrowing S n (pos + g.width) (growStep g) (i + 1) g.width with
      | .error t => .error t
      | .ok (ks, last) => .ok (k :: ks, last)

/-- decompressImproved on the bytes of the input buffer (43_improved.md R113, R114). -/
def decompressImprovedBytes (dictCap : Option Nat) (outCap : Nat) (ys : List Byte) : Except Raise Completion :=
  let S := bytesToBits ys
  match readHeader S with
  | none => .error { code := .malformedHeader, info := ys.length }
  | some (W, N) =>
    if N = 0 then .ok { out := [], hdrWidth := W, hdrCount := 0, lastWidth := 0, dictNext := Config.firstFreeCode }
    else
      match readGrowing S N Config.hdrBits (Grow.start W) 0 0 with
      | .error t => .error { code := .truncatedStream, info := t }
      | .ok (codes, last) =>
        match decodeCodes (admitImproved dictCap) codes outCap with
        | .error r => .error r
        | .ok (out, d) =>
          .ok { out := out, hdrWidth := W, hdrCount := N, lastWidth := last, dictNext := saturate32 d.nextCode }

/-- COMPRESS_IMPROVED (43_improved.md R112). -/
def execCompressImproved (s : State) : Host.Outcome State Fault Refusal :=
  .next (runCommand (compressImprovedBytes s.platform.dictCap s.outCapacity) s)

/-- DECOMPRESS_IMPROVED (43_improved.md R113). -/
def execDecompressImproved (s : State) : Host.Outcome State Fault Refusal :=
  .next (runCommand (decompressImprovedBytes s.platform.dictCap s.outCapacity) s)

end Sys2Proof.Machine
end

