-- ==== Sys2Proof/Machine/Regular.lean ====
section
/-! DEFINITION. RegularCodec: the fixed-width variant, COMPRESS_REGULAR and DECOMPRESS_REGULAR (42_regular.md). -/

namespace Sys2Proof.Machine

/-- The Regular admission policy: insert up to code 65535, then freeze (42_regular.md R98). -/
def admitRegular (nextCode : Nat) : Admission := if nextCode ≤ Config.regMaxCode then .insert else .skip

/-- The largest of a list of codes, 0 for none. -/
def maxCode : List Nat → Nat
  | [] => 0
  | k :: ks => max k (maxCode ks)

/-- The one width of a Regular stream (42_regular.md R100). -/
def regularWidth (codes : List Nat) : Nat :=
  if codes = [] then Config.regMinWidth else max Config.regMinWidth (bitlen (maxCode codes))

/-- The code region at one width (30_encoding.md R67, R69). -/
def writeCodes (width : Nat) : List Nat → Bits
  | [] => []
  | k :: ks => writeFixedWidth [] k width ++ writeCodes width ks

/-- A whole Regular stream's real bits: the header, then the codes (30_encoding.md R63, R69). -/
def regularBits (codes : List Nat) : Bits :=
  writeHeader [] (regularWidth codes) codes.length ++ writeCodes (regularWidth codes) codes

/-- compressRegular on the bytes of the input buffer (42_regular.md R102). -/
def compressRegularBytes (outCap : Nat) (xs : List Symbol) : Except Raise Completion :=
  match encodeSymbols admitRegular xs with
  | .error r => .error r
  | .ok (codes, d) =>
    let B := bitsToBytes (regularBits codes)
    if B.length > outCap then .error { code := .outOverflow, info := saturate32 B.length }
    else
      .ok
        { out := B, hdrWidth := regularWidth codes, hdrCount := codes.length
          lastWidth := if codes.length ≥ 1 then regularWidth codes else 0
          dictNext := d.nextCode }

/-- decompressRegular on the bytes of the input buffer (42_regular.md R103). -/
def decompressRegularBytes (outCap : Nat) (ys : List Byte) : Except Raise Completion :=
  let S := bytesToBits ys
  match readHeader S with
  | none => .error { code := .malformedHeader, info := ys.length }
  | some (W, N) =>
    if N = 0 then .ok { out := [], hdrWidth := W, hdrCount := 0, lastWidth := 0, dictNext := Config.firstFreeCode }
    else
      match decodeFixedWidthArray S Config.hdrBits W N with
      | .error t => .error { code := .truncatedStream, info := t }
      | .ok codes =>
        match decodeCodes admitRegular codes outCap with
        | .error r => .error r
        | .ok (out, d) => .ok { out := out, hdrWidth := W, hdrCount := N, lastWidth := W, dictNext := d.nextCode }

/-- COMPRESS_REGULAR (42_regular.md R102). -/
def execCompressRegular (s : State) : Host.Outcome State Fault Refusal :=
  .next (runCommand (compressRegularBytes s.outCapacity) s)

/-- DECOMPRESS_REGULAR (42_regular.md R103). -/
def execDecompressRegular (s : State) : Host.Outcome State Fault Refusal :=
  .next (runCommand (decompressRegularBytes s.outCapacity) s)

end Sys2Proof.Machine
end

