-- ==== Sys2Proof/Machine/Dispatch.lean ====
section
/-! DEFINITION. The dispatch: one arm per command (44_command_interface.md R122). -/

namespace Sys2Proof.Machine

def exec (i : Instr) (s : State) : Host.Outcome State Fault Refusal :=
  match i with
  | .compressRegular => Sys2Proof.Machine.execCompressRegular s
  | .decompressRegular => Sys2Proof.Machine.execDecompressRegular s
  | .compressImproved => Sys2Proof.Machine.execCompressImproved s
  | .decompressImproved => Sys2Proof.Machine.execDecompressImproved s

end Sys2Proof.Machine
end

