-- ==== Sys2Proof/Machine/Flags.lean ====
section
/-! DEFINITION. The status register's bits, the result codes' numbers, and the interrupt output (10_state.md R24, R25;
60_exceptions.md R131, R141). -/

namespace Sys2Proof.Machine

/-- The number of a result code (60_exceptions.md R131). -/
def ResultCode.toBits : ResultCode → BitVec 4
  | .ok => 0#4
  | .malformedHeader => 1#4
  | .truncatedStream => 2#4
  | .corruptCode => 3#4
  | .outOverflow => 4#4
  | .dictFull => 5#4
  | .illegalCommand => 6#4
  | .badBuffer => 7#4
  | .busError => 8#4

/-- STATUS.BUSY: 1 exactly when phase = RUN (10_state.md R24, R38). -/
def State.busy (s : State) : Bool :=
  match s.engine.phase with
  | .idle => false
  | .run => true

/-- STATUS as read: bit 0 BUSY, bit 1 DONE, bit 2 IGNORED_WRITE, bits 11:8 RESULT, the rest 0 (10_state.md R24). -/
def statusWord (s : State) : Word :=
  0#20 ++ s.result.toBits ++ 0#5 ++ BitVec.ofBool s.ignoredWrite ++ BitVec.ofBool s.done ++ BitVec.ofBool s.busy

/-- INT_EN as read: bit 0 DONE_IE, the rest 0 (10_state.md R25). -/
def intEnWord (s : State) : Word := 0#31 ++ BitVec.ofBool s.doneIe

/-- A write of `v` to STATUS: a 1 clears DONE or IGNORED_WRITE, a 0 leaves it, the other bits are ignored (10_state.md R24). -/
def writeStatus (v : Word) (s : State) : State :=
  { s with done := s.done && !v.getLsbD 1, ignoredWrite := s.ignoredWrite && !v.getLsbD 2 }

/-- A write of `v` to INT_EN: bit 0 alone is kept (10_state.md R25). -/
def writeIntEn (v : Word) (s : State) : State := { s with doneIe := v.getLsbD 0 }

/-- A write that is ignored because BUSY = 1 (44_command_interface.md R125). -/
def noteIgnoredWrite (s : State) : State := { s with ignoredWrite := true }

/-- The interrupt output: a level, DONE and DONE_IE (60_exceptions.md R141). -/
def State.irq (s : State) : Bool := s.done && s.doneIe

/-- DICT_CAP_RD: DICT_CAP when it fits 32 bits, 0 when it is 2^32 or unbounded (10_state.md R35). -/
def dictCapWord (p : Platform) : Word :=
  match p.dictCap with
  | none => 0#32
  | some c => if c ≤ 2 ^ 32 - 1 then BitVec.ofNat 32 c else 0#32

end Sys2Proof.Machine
end

