-- ==== Sys2Proof/Machine/HostPort.lean ====
section
/-! DEFINITION. The register slave port and the host that drives it: reads and writes of every register, starting a command,
host accesses to memory, and the lines of a host program (10_state.md section 2; 44_command_interface.md; 30_encoding.md
R74, R75). -/

namespace Sys2Proof.Machine

/-! ## The register map -/

/-- The offset of a register in the window (10_state.md R22). -/
def Reg.offset : Reg → BitVec 8
  | .cmd => 0x00#8
  | .status => 0x04#8
  | .intEn => 0x08#8
  | .inBase => 0x0C#8
  | .inLen => 0x10#8
  | .outBase => 0x14#8
  | .outCap => 0x18#8
  | .outLen => 0x1C#8
  | .hdrWidth => 0x20#8
  | .hdrCount => 0x24#8
  | .lastWidth => 0x28#8
  | .dictNext => 0x2C#8
  | .dictCapRd => 0x30#8
  | .errInfo => 0x34#8

/-- The register at an offset; `none` at a reserved offset (10_state.md R22, R37). -/
def regAt (off : BitVec 8) : Option Reg :=
  if off = 0x00#8 then some .cmd
  else if off = 0x04#8 then some .status
  else if off = 0x08#8 then some .intEn
  else if off = 0x0C#8 then some .inBase
  else if off = 0x10#8 then some .inLen
  else if off = 0x14#8 then some .outBase
  else if off = 0x18#8 then some .outCap
  else if off = 0x1C#8 then some .outLen
  else if off = 0x20#8 then some .hdrWidth
  else if off = 0x24#8 then some .hdrCount
  else if off = 0x28#8 then some .lastWidth
  else if off = 0x2C#8 then some .dictNext
  else if off = 0x30#8 then some .dictCapRd
  else if off = 0x34#8 then some .errInfo
  else none

/-- A 32-bit access at a 4-byte-aligned offset (20_memory.md R48). -/
def accessOk (off : BitVec 8) (width : BusWidth) : Bool :=
  match width with
  | .bits32 => off.extractLsb' 0 2 == 0#2
  | .bits16 => false
  | .bits8 => false

/-! ## Register reads -/

/-- What a register reads as (10_state.md R23..R36). -/
def readReg (r : Reg) (s : State) : Word :=
  match r with
  | .cmd => s.cmd
  | .status => statusWord s
  | .intEn => intEnWord s
  | .inBase => s.inBase
  | .inLen => s.inLen
  | .outBase => s.outBase
  | .outCap => s.outCap
  | .outLen => s.outLen
  | .hdrWidth => s.hdrWidth.setWidth 32
  | .hdrCount => s.hdrCount
  | .lastWidth => s.lastWidth.setWidth 32
  | .dictNext => s.dictNext
  | .dictCapRd => dictCapWord s.platform
  | .errInfo => s.errInfo

/-- A 32-bit read at an offset; a reserved offset reads 0 (10_state.md R37). -/
def readOffset (off : BitVec 8) (s : State) : Word :=
  match regAt off with
  | some r => readReg r s
  | none => 0#32

/-! ## Starting a command -/

/-- What every CMD write while BUSY = 0 does first: latch the word, clear DONE, RESULT and the completion registers
(44_command_interface.md R118). -/
def latchCmd (v : Word) (s : State) : State :=
  { s with
    cmd := v, done := false, result := .ok
    outLen := 0#32, hdrWidth := 0#5, hdrCount := 0#32, lastWidth := 0#6, dictNext := 0#32, errInfo := 0#32 }

/-- Acceptance: BUSY = 1, phase = RUN, the OP and the four operands latched (44_command_interface.md R121). -/
def accept (v : Word) (s : State) : State :=
  { s with
    engine :=
      { phase := .run, op := opField v, inBase := s.inBase, inLen := s.inLen, outBase := s.outBase, outCap := s.outCap
        scratch := s.engine.scratch } }

/-- A write of `v` to CMD while BUSY = 0 (44_command_interface.md R118, R119, R120, R121). -/
def startCommand (v : Word) (s : State) : State :=
  match decode v with
  | .error _ => setErrorRegs .illegalCommand v (latchCmd v s)
  | .ok _ =>
    if buffersBad s.inBase s.inLen s.outBase s.outCap then setErrorRegs .badBuffer 0#32 (latchCmd v s)
    else accept v (latchCmd v s)

/-! ## Register writes -/

/-- Writes of the four buffer registers while BUSY = 0 (44_command_interface.md R126). -/
def setInBase (v : Word) (s : State) : State := { s with inBase := v }

/-- See `setInBase`. -/
def setInLen (v : Word) (s : State) : State := { s with inLen := v }

/-- See `setInBase`. -/
def setOutBase (v : Word) (s : State) : State := { s with outBase := v }

/-- See `setInBase`. -/
def setOutCap (v : Word) (s : State) : State := { s with outCap := v }

/-- A write that BUSY = 1 locks out: then it has no effect but IGNORED_WRITE (44_command_interface.md R125). -/
def unlessBusy (f : State → State) (s : State) : State := if s.busy then noteIgnoredWrite s else f s

/-- A write of `v` to a register (10_state.md R22; 44_command_interface.md R125, R126). The lock is on exactly CMD, IN_BASE,
IN_LEN, OUT_BASE and OUT_CAP (90_conflicts.md C10). -/
def writeReg (r : Reg) (v : Word) (s : State) : State :=
  match r with
  | .cmd => unlessBusy (startCommand v) s
  | .status => writeStatus v s
  | .intEn => writeIntEn v s
  | .inBase => unlessBusy (setInBase v) s
  | .inLen => unlessBusy (setInLen v) s
  | .outBase => unlessBusy (setOutBase v) s
  | .outCap => unlessBusy (setOutCap v) s
  | .outLen => s
  | .hdrWidth => s
  | .hdrCount => s
  | .lastWidth => s
  | .dictNext => s
  | .dictCapRd => s
  | .errInfo => s

/-- A 32-bit write at an offset; a write to a reserved offset is ignored (10_state.md R37). -/
def writeOffset (off : BitVec 8) (v : Word) (s : State) : State :=
  match regAt off with
  | some r => writeReg r v s
  | none => s

/-! ## Host accesses to memory -/

/-- While BUSY = 1 the host must not write the input buffer, nor read or write the output buffer (20_memory.md R55). -/
def hazardAt (k : Access) (s : State) (a : Nat) : Bool :=
  s.busy &&
    match k with
    | .read => s.inOutput a
    | .write => s.inInput a || s.inOutput a

/-- The first address of `n` from `a` on at which a host access breaks 20_memory.md R55. -/
def firstHazard (k : Access) (s : State) : Nat → Nat → Option Nat
  | _, 0 => none
  | a, n + 1 => if hazardAt k s a then some a else firstHazard k s (a + 1) n

/-! ## The host's program -/

/-- The value of a field of a word (00_scope.md R11). -/
def BitField.value (f : BitField) (w : Word) : Nat := (w.toNat >>> f.lo) % 2 ^ (f.hi + 1 - f.lo)

/-- The host goes on at its next line. -/
def advanceLine (s : State) : State := { s with host := { s.host with line := s.host.line + 1 } }

/-- The host goes on at line `n`. -/
def gotoLine (n : Nat) (s : State) : State := { s with host := { s.host with line := n } }

/-- A read returns a value to the host. -/
def returnRead (v : Word) (s : State) : State := { s with host := { s.host with lastRead := v } }

/-- The host stores bytes. -/
def storeBytes (a : Nat) (bs : List Byte) (s : State) : State := { s with mem := s.mem.writeAll a bs }

/-- A register write by the host; a narrow or misaligned one is its fault (20_memory.md R48). -/
def hostWrite (off : BitVec 8) (width : BusWidth) (v : Word) (s : State) : Host.Outcome State Fault Refusal :=
  if accessOk off width then .next (advanceLine (writeOffset off v s)) else .fault (.slaveError off)

/-- A register read by the host: no side effect on the block (44_command_interface.md R127). -/
def hostRead (off : BitVec 8) (width : BusWidth) (s : State) : Host.Outcome State Fault Refusal :=
  if accessOk off width then .next (advanceLine (returnRead (readOffset off s) s)) else .fault (.slaveError off)

/-- One read of a POLL; the line is left once the field equals the value (30_encoding.md R74). -/
def hostPoll (off : BitVec 8) (f : BitField) (v : Word) (s : State) : Host.Outcome State Fault Refusal :=
  if accessOk off .bits32 then
    let s' := returnRead (readOffset off s) s
    .next (if f.value (readOffset off s) = v.toNat then advanceLine s' else s')
  else .fault (.slaveError off)

/-- An IFNE (30_encoding.md R74). Where a label stands on two lines it goes on at the first of them, and where it stands on none it
is a fault of the host: R74 says neither (DESIGN CHOICE, log 7). -/
def hostIfne (off : BitVec 8) (f : BitField) (v : Word) (label : Nat) (s : State) :
    Host.Outcome State Fault Refusal :=
  if accessOk off .bits32 then
    let s' := returnRead (readOffset off s) s
    if f.value (readOffset off s) = v.toNat then .next (advanceLine s')
    else
      match s.host.program.idxOf? (.label label) with
      | some n => .next (gotoLine n s')
      | none => .fault (.undefinedLabel label)
  else .fault (.slaveError off)

/-- The fault of a host store of `n` bytes from `a` on, if it is one: past host memory's last byte (20_memory.md R42), or into a
buffer of the running command (R55). -/
def storeFault (s : State) (a n : Nat) : Option Fault :=
  if a + n > Config.memorySize then some (.noSuchAddress Config.memorySize)
  else (firstHazard .write s a n).map .bufferHazard

/-- A host store while the program runs: bytes at increasing addresses (20_memory.md R55; log 25). -/
def hostStore (a : Word) (bs : List Byte) (s : State) : Host.Outcome State Fault Refusal :=
  match storeFault s a.toNat bs.length with
  | some f => .fault f
  | none => .next (advanceLine (storeBytes a.toNat bs s))

/-- A host load of one byte (20_memory.md R55). -/
def hostLoad (a : Word) (s : State) : Host.Outcome State Fault Refusal :=
  if hazardAt .read s a.toNat then .fault (.bufferHazard a.toNat)
  else .next (advanceLine (returnRead ((s.mem.read a.toNat).setWidth 32) s))

/-- One line of the host's program (30_encoding.md R74). A MEM line is passed over: its bytes were stored before the program
ran. -/
def hostPerform (op : HostOp) (s : State) : Host.Outcome State Fault Refusal :=
  match op with
  | .wr off width v => hostWrite off width v s
  | .rd off width => hostRead off width s
  | .poll off f v => hostPoll off f v s
  | .ifne off f v l => hostIfne off f v l s
  | .label _ => .next (advanceLine s)
  | .mem _ _ => .next (advanceLine s)
  | .store a bs => hostStore a bs s
  | .load a => hostLoad a s
  | .stop => .next s

/-- What a line has the host store before the program runs: a MEM line its bytes at its address, another line nothing
(30_encoding.md R74). -/
def HostOp.memLine? : HostOp → Option (Word × List Byte)
  | .mem a bs => some (a, bs)
  | .wr _ _ _ | .rd _ _ | .poll _ _ _ | .ifne _ _ _ _ | .label _ | .store _ _ | .load _ | .stop => none

/-- The addresses and bytes of the program's MEM lines, in the program's order. -/
def HostPort.memLines (h : HostPort) : List (Word × List Byte) := h.program.filterMap HostOp.memLine?

/-- Memory with the bytes of the lines stored, a later line over an earlier one (DESIGN CHOICE, log 25). -/
def storeLines (m : Memory) (ls : List (Word × List Byte)) : Memory :=
  ls.foldl (fun m l => m.writeAll l.1.toNat l.2) m

/-- The MEM lines' bytes are stored, and the program runs. -/
def beginProgram (s : State) : State :=
  { s with mem := storeLines s.mem s.host.memLines, host := { s.host with memLoaded := true } }

/-- What the host does before its program runs: it stores the bytes of every MEM line, wherever the line stands
(30_encoding.md R74). -/
def hostPreload (s : State) : Host.Outcome State Fault Refusal :=
  match s.host.memLines.findSome? (fun l => storeFault s l.1.toNat l.2.length) with
  | some f => .fault f
  | none => .next (beginProgram s)

/-- The host's step: the stores of the MEM lines before the program runs; then its next line, or nothing where its program has
ended. -/
def hostStep (s : State) : Host.Outcome State Fault Refusal :=
  if s.host.memLoaded then
    match s.host.program[s.host.line]? with
    | none => .next s
    | some op => hostPerform op s
  else hostPreload s

/-- `WR <REG>, <v>` (30_encoding.md R74). -/
def HostOp.wrReg (r : Reg) (v : Word) : HostOp := .wr r.offset .bits32 v

/-- `RD <REG>` (30_encoding.md R74). -/
def HostOp.rdReg (r : Reg) : HostOp := .rd r.offset .bits32

/-- `RUN <MNEMONIC>, in=<a>,<n>, out=<b>,<c>` (30_encoding.md R75). -/
def runProgram (i : Instr) (a n b c : Word) : List HostOp :=
  [.wrReg .inBase a, .wrReg .inLen n, .wrReg .outBase b, .wrReg .outCap c, .wrReg .status 0x00000006#32,
    .wrReg .cmd (encode i), .poll (Reg.offset .status) { hi := 1, lo := 1 } 1#32]

end Sys2Proof.Machine
end

