-- ==== Sys2Proof/Machine/Schedule.lean ====
section
/-! DEFINITION. Which agent moves next, and the command a running engine fetches (44_command_interface.md R117, R122;
00_scope.md R9, LATENCY). -/

namespace Sys2Proof.Machine

/-- The agent that moves in this step: the schedule's head; with no schedule left, the engine while a command runs, else the
host (log 5). -/
def State.turn (s : State) : Slot :=
  match s.schedule with
  | x :: _ => x
  | [] => if s.busy then .engine else .host

/-- The state with this step's slot used up. -/
def popSlot (s : State) : State := { s with schedule := s.schedule.tail }

/-- The command the engine runs: the latched OP decoded, while phase = RUN; an idle engine has no step
(44_command_interface.md R117; 20_memory.md R58). -/
def fetchCommand (s : State) : Option (Except DecodeError Instr) :=
  match s.engine.phase with
  | .idle => none
  | .run => some (decodeOp s.engine.op)

/-- The state in which the very next step runs the command word `v`: the word has been written to CMD and accepted, with the
buffer registers as they stand, and the engine moves next (log 13). -/
def placeCommand (v : Word) (s : State) : State := { accept v (latchCmd v s) with schedule := [] }

/-- The state in which the very next step is the host's write of `v` to CMD, the one line of a program that runs: where
a word that is no command is met (44_command_interface.md R119; log 13). -/
def placeCmdWrite (v : Word) (s : State) : State :=
  { s with host := { s.host with program := [.wrReg .cmd v], memLoaded := true, line := 0 }, schedule := [.host] }

end Sys2Proof.Machine
end

