-- ==== Sys2Proof/Machine/Step.lean ====
section
/-! DEFINITION. The step: one move of one agent (44_command_interface.md R117). -/

namespace Sys2Proof.Machine

/-- One move. The engine's move is the whole running command and its completion; while phase = IDLE it has none
(44_command_interface.md R117, R122). -/
def step (s : State) : Host.Outcome State Fault Refusal :=
  match s.turn with
  | .host => hostStep (popSlot s)
  | .reset => .next (assertReset (popSlot s))
  | .engine =>
    match fetchCommand s with
    | none => .next (popSlot s)
    | some (.ok i) => exec i (popSlot s)
    | some (.error _) => .fault .illegalLatchedOp

/-- The state in which `step` runs the table's word next (log 13). -/
def State.withFetchWord (s : State) (nbits w : Nat) : State :=
  if wordLegal (tableWord nbits w) then placeCommand (tableWord nbits w) s else placeCmdWrite (tableWord nbits w) s

end Sys2Proof.Machine
end

