-- ==== Sys2Proof/Safety.lean ====
section
/-! DEFINITION. What counts as a sound state of the block: the invariant every step keeps, and what software can see. -/

namespace Sys2Proof.Machine

/-- Host memory is in its canonical form. -/
abbrev MemoryCanonical (s : State) : Prop := s.mem.wf = true

/-- DICT_CAP is one that 00_scope.md R9 allows. -/
abbrev PlatformLegal (s : State) : Prop := dictCapLegal s.platform.dictCap = true

/-- Every completion register that holds a value only after OK reads 0 (10_state.md R30..R34). -/
abbrev CompletionZero (s : State) : Prop :=
  s.outLen = 0#32 ∧ s.hdrWidth = 0#5 ∧ s.hdrCount = 0#32 ∧ s.lastWidth = 0#6 ∧ s.dictNext = 0#32

/-- While BUSY = 1: DONE, RESULT and the completion registers read 0 (44_command_interface.md R127, 10_state.md R24). -/
abbrev BusyQuiet (s : State) : Prop :=
  s.busy = true → s.done = false ∧ s.result = .ok ∧ s.errInfo = 0#32 ∧ CompletionZero s

/-- While BUSY = 1: the engine runs the legal command word in CMD on the buffers the registers name, which passed the buffer
check (44_command_interface.md R118, R120, R121, R125; 20_memory.md R58). -/
abbrev BusyLatched (s : State) : Prop :=
  s.busy = true →
    wordLegal s.cmd = true ∧ s.engine.op = opField s.cmd ∧
      s.engine.inBase = s.inBase ∧ s.engine.inLen = s.inLen ∧ s.engine.outBase = s.outBase ∧ s.engine.outCap = s.outCap ∧
      buffersBad s.inBase s.inLen s.outBase s.outCap = false

/-- Completion is all-or-nothing: an error leaves the other completion registers 0, and OK leaves ERR_INFO 0
(60_exceptions.md R133, R134, R136). -/
abbrev CompletionWhole (s : State) : Prop :=
  (s.result ≠ .ok → CompletionZero s) ∧ (s.result = .ok → s.errInfo = 0#32)

/-- The invariant: it holds at reset and every step keeps it. -/
abbrev State.Inv (s : State) : Prop :=
  MemoryCanonical s ∧ PlatformLegal s ∧ BusyQuiet s ∧ BusyLatched s ∧ CompletionWhole s

/-- The input bytes of the latched command: B[i] = MemRead(in_base + i, 1) (20_memory.md R47). -/
def State.inputBytes (s : State) : List Byte := (List.range s.inLength).map fun i => s.mem.read (s.inAddr i)

/-- The bus completes every read of the latched input buffer (00_scope.md R9). -/
def State.inputReadable (s : State) : Prop := ∀ i < s.inLength, s.platform.memOk (s.inAddr i) .read = true

/-- The bus completes the writes of the first `n` bytes of the latched output buffer (00_scope.md R9). -/
def State.outputWritable (s : State) (n : Nat) : Prop := ∀ j < n, s.platform.memOk (s.outAddr j) .write = true

/-- The latched ranges are ones the buffer check lets through (44_command_interface.md R120, R121): neither wraps past 2^32,
and two non-empty ones do not overlap. -/
def State.latchedOk (s : State) : Prop :=
  s.engine.inBase.toNat + s.engine.inLen.toNat ≤ 2 ^ 32 ∧ s.engine.outBase.toNat + s.engine.outCap.toNat ≤ 2 ^ 32 ∧
    (s.engine.inLen.toNat = 0 ∨ s.engine.outCap.toNat = 0 ∨
      s.engine.outBase.toNat + s.engine.outCap.toNat ≤ s.engine.inBase.toNat ∨
      s.engine.inBase.toNat + s.engine.inLen.toNat ≤ s.engine.outBase.toNat)

/-- The command of `s` has ended in `t` with an error (60_exceptions.md R133). -/
def endedError (t : State) (code : ResultCode) (info : Nat) : Prop :=
  t.busy = false ∧ t.done = true ∧ t.result = code ∧ t.errInfo.toNat = info ∧ CompletionZero t

/-- The command of `s` has ended in `t` with OK (60_exceptions.md R134): the registers' values, and the output bytes in
memory. -/
def endedOk (s t : State) (out : List Byte) (hdrWidth hdrCount lastWidth dictNext : Nat) : Prop :=
  t.busy = false ∧ t.done = true ∧ t.result = .ok ∧ t.errInfo = 0#32 ∧ t.outLen.toNat = out.length ∧
    t.hdrWidth.toNat = hdrWidth ∧ t.hdrCount.toNat = hdrCount ∧ t.lastWidth.toNat = lastWidth ∧
    t.dictNext.toNat = dictNext ∧ ∀ (j : Nat) (h : j < out.length), t.mem.read (s.outAddr j) = out[j]

/-- Byte `j` is the first of the output buffer whose write the bus refuses. -/
def State.firstRefusedWrite (s : State) (j : Nat) : Prop :=
  (∀ i < j, s.platform.memOk (s.outAddr i) .write = true) ∧ s.platform.memOk (s.outAddr j) .write = false

/-- Byte `j` is the first of the input buffer whose read the bus refuses. -/
def State.firstRefusedRead (s : State) (j : Nat) : Prop :=
  j < s.inLength ∧ (∀ i < j, s.platform.memOk (s.inAddr i) .read = true) ∧
    s.platform.memOk (s.inAddr j) .read = false

/-- The bit position of code `i` of a stream whose schedule starts at a width: 36, and then the widths of the codes before it
(30_encoding.md R67; 43_improved.md R108, R114). -/
def growPos (startWidth : Nat) (i : Nat) : Nat :=
  36 + ((List.range i).map fun j => (growAfter j (Grow.start startWidth)).width).sum

/-- What a command computes from its input bytes (44_command_interface.md R122). -/
def codecOf (i : Instr) (s : State) : List Byte → Except Raise Completion :=
  match i with
  | .compressRegular => compressRegularBytes s.outCapacity
  | .decompressRegular => decompressRegularBytes s.outCapacity
  | .compressImproved => compressImprovedBytes s.platform.dictCap s.outCapacity
  | .decompressImproved => decompressImprovedBytes s.platform.dictCap s.outCapacity

/-- A state with what no register access can show blotted out: the hidden algorithm state always, and the latched operands
while no command runs (10_state.md R38, R39, R40). -/
def State.visible (s : State) : State :=
  { s with
    engine :=
      match s.engine.phase with
      | .idle => State.reset.engine
      | .run => { s.engine with scratch := State.reset.engine.scratch } }

/-- An outcome with its next state, if any, made visible. -/
def visibleOutcome : Host.Outcome State Fault Refusal → Host.Outcome State Fault Refusal
  | .next s => .next s.visible
  | .fault f => .fault f
  | .refused r => .refused r

end Sys2Proof.Machine
end

