-- ==== Sys2Proof/Certificates/Slice0/Obligations.lean ====
section
/-! DEFINITION. The statements for the provers, from the numbered rules of spec/. Premises such as `s.mem.wf = true` and
`s.latchedOk` are parts of the invariant `State.Inv` of a running command (`Obligations.StepKeepsInvariant`). -/

open Sys2Proof Sys2Proof.Machine

/-! ## The command word -/

/-- 30_encoding.md section 1: the four table words, written out. -/
def Obligations.TableWordsDecodeToTheirRows : Prop :=
  decodeTableWord 32 0x00000001 = some .compressRegular ∧ decodeTableWord 32 0x00000002 = some .decompressRegular ∧
    decodeTableWord 32 0x00000003 = some .compressImproved ∧ decodeTableWord 32 0x00000004 = some .decompressImproved ∧
    decodeTableWord 32 0x00000000 = none ∧ decodeTableWord 32 0x00000005 = none ∧
    decodeTableWord 32 0x80000001 = none ∧ decodeTableWord 32 0x00000011 = none

/-- 30_encoding.md R61: a word selects a row exactly when word[31:4] = 0 and word[3:0] = OP. -/
def Obligations.WordSelectsItsRowExactly : Prop :=
  ∀ w : Word,
    (decode w = .ok .compressRegular ↔ w.extractLsb' 4 28 = 0#28 ∧ w.extractLsb' 0 4 = 0x1#4) ∧
    (decode w = .ok .decompressRegular ↔ w.extractLsb' 4 28 = 0#28 ∧ w.extractLsb' 0 4 = 0x2#4) ∧
    (decode w = .ok .compressImproved ↔ w.extractLsb' 4 28 = 0#28 ∧ w.extractLsb' 0 4 = 0x3#4) ∧
    (decode w = .ok .decompressImproved ↔ w.extractLsb' 4 28 = 0#28 ∧ w.extractLsb' 0 4 = 0x4#4)

/-- Decoding and encoding agree both ways: the encoder's word decodes to its command, and no other word does. -/
def Obligations.DecodeAndEncodeAgree : Prop := ∀ (w : Word) (i : Instr), decode w = .ok i ↔ w = encode i

/-! ## The CMD write -/

/-- 30_encoding.md R62 and 44_command_interface.md R119: an illegal word completes in its own write, whole and alone. -/
def Obligations.IllegalWordCompletesAtOnce : Prop :=
  ∀ (s : State) (v : Word), s.busy = false → (v.toNat = 0 ∨ 5 ≤ v.toNat) →
    writeOffset 0x00#8 v s =
        { s with
          cmd := v, done := true, result := .illegalCommand, errInfo := v
          outLen := 0#32, hdrWidth := 0#5, hdrCount := 0#32, lastWidth := 0#6, dictNext := 0#32 } ∧
      (writeOffset 0x00#8 v s).irq = s.doneIe

/-- 44_command_interface.md R120: a legal word with a bad buffer completes in its own write with BAD_BUFFER; sums exact. A
zero-length buffer never overlaps and may sit at any address. -/
def Obligations.BadBufferCompletesAtOnce : Prop :=
  (∀ (s : State) (i : Instr), s.busy = false →
    (s.inBase.toNat + s.inLen.toNat > 2 ^ 32 ∨ s.outBase.toNat + s.outCap.toNat > 2 ^ 32 ∨
      (s.inLen.toNat > 0 ∧ s.outCap.toNat > 0 ∧ s.inBase.toNat < s.outBase.toNat + s.outCap.toNat ∧
        s.outBase.toNat < s.inBase.toNat + s.inLen.toNat)) →
    writeOffset 0x00#8 (encode i) s =
      { s with
        cmd := encode i, done := true, result := .badBuffer, errInfo := 0#32
        outLen := 0#32, hdrWidth := 0#5, hdrCount := 0#32, lastWidth := 0#6, dictNext := 0#32 }) ∧
  (∀ (s : State) (i : Instr), s.busy = false → s.inLen = 0#32 → s.outBase.toNat + s.outCap.toNat ≤ 2 ^ 32 →
    (writeOffset 0x00#8 (encode i) s).busy = true) ∧
  ∀ (s : State) (i : Instr), s.busy = false → s.outCap = 0#32 → s.inBase.toNat + s.inLen.toNat ≤ 2 ^ 32 →
    (writeOffset 0x00#8 (encode i) s).busy = true

/-- 44_command_interface.md R121: otherwise the command is accepted in the same step and its operands are latched; from then on
it reads the latched values alone: whatever the four registers are set to, it ends the same. -/
def Obligations.LegalCommandIsAccepted : Prop :=
  (∀ (s : State) (i : Instr), s.busy = false →
    s.inBase.toNat + s.inLen.toNat ≤ 2 ^ 32 → s.outBase.toNat + s.outCap.toNat ≤ 2 ^ 32 →
    (s.inLen.toNat = 0 ∨ s.outCap.toNat = 0 ∨ s.outBase.toNat + s.outCap.toNat ≤ s.inBase.toNat ∨
      s.inBase.toNat + s.inLen.toNat ≤ s.outBase.toNat) →
    writeOffset 0x00#8 (encode i) s =
        { s with
          cmd := encode i, done := false, result := .ok, errInfo := 0#32
          outLen := 0#32, hdrWidth := 0#5, hdrCount := 0#32, lastWidth := 0#6, dictNext := 0#32
          engine :=
            { phase := .run, op := (encode i).extractLsb' 0 4, inBase := s.inBase, inLen := s.inLen
              outBase := s.outBase, outCap := s.outCap, scratch := s.engine.scratch } } ∧
      (writeOffset 0x00#8 (encode i) s).busy = true ∧
      decodeOp (writeOffset 0x00#8 (encode i) s).engine.op = .ok i) ∧
  ∀ (s t : State) (i : Instr) (a n b c : Word), exec i s = .next t →
    exec i { s with inBase := a, inLen := n, outBase := b, outCap := c } =
      .next { t with inBase := a, inLen := n, outBase := b, outCap := c }

/-! ## The register window -/

/-- 44_command_interface.md R125: while BUSY = 1 the five locked registers ignore a write and set IGNORED_WRITE; STATUS and
INT_EN act as ever; a write to a read-only register or a reserved offset is ignored at any time. -/
def Obligations.BusyLocksFiveRegisters : Prop :=
  ∀ (s : State) (v : Word) (off : BitVec 8),
    (s.busy = true → off ∈ [0x00#8, 0x0C#8, 0x10#8, 0x14#8, 0x18#8] →
      writeOffset off v s = { s with ignoredWrite := true }) ∧
    writeOffset 0x04#8 v s =
      { s with done := s.done && !v.getLsbD 1, ignoredWrite := s.ignoredWrite && !v.getLsbD 2 } ∧
    writeOffset 0x08#8 v s = { s with doneIe := v.getLsbD 0 } ∧
    (0x1C ≤ off.toNat → writeOffset off v s = s)

/-- 44_command_interface.md section 4: while BUSY = 0 a write to a buffer register sets it and nothing else. -/
def Obligations.IdleWriteSetsBufferRegister : Prop :=
  ∀ (s : State) (v : Word), s.busy = false →
    writeOffset 0x0C#8 v s = { s with inBase := v } ∧ writeOffset 0x10#8 v s = { s with inLen := v } ∧
    writeOffset 0x14#8 v s = { s with outBase := v } ∧ writeOffset 0x18#8 v s = { s with outCap := v }

/-- 10_state.md section 2: STATUS reads BUSY, DONE, IGNORED_WRITE and RESULT at their bits and 0 elsewhere; the numbers of the
result codes are those of 60_exceptions.md section 1; in every state of the invariant BUSY and DONE are never both 1, and RESULT
is 0 while BUSY = 1. -/
def Obligations.StatusReadsItsFields : Prop :=
  (ResultCode.ok.toBits = 0#4 ∧ ResultCode.malformedHeader.toBits = 1#4 ∧ ResultCode.truncatedStream.toBits = 2#4 ∧
    ResultCode.corruptCode.toBits = 3#4 ∧ ResultCode.outOverflow.toBits = 4#4 ∧ ResultCode.dictFull.toBits = 5#4 ∧
    ResultCode.illegalCommand.toBits = 6#4 ∧ ResultCode.badBuffer.toBits = 7#4 ∧ ResultCode.busError.toBits = 8#4) ∧
  ∀ s : State,
    (∀ j < 32, (readOffset 0x04#8 s).getLsbD j =
      if j = 0 then s.busy else if j = 1 then s.done else if j = 2 then s.ignoredWrite
      else if 8 ≤ j ∧ j ≤ 11 then s.result.toBits.getLsbD (j - 8) else false) ∧
    (s.Inv → ¬ (s.busy = true ∧ s.done = true) ∧ (s.busy = true → s.result.toBits = 0#4))

/-- 10_state.md R25: INT_EN reads DONE_IE in bit 0 and 0 elsewhere; a write keeps bit 0 alone, busy or not, and never sets
IGNORED_WRITE. -/
def Obligations.InterruptEnableRegister : Prop :=
  ∀ (s : State) (v : Word),
    (readOffset 0x08#8 s = if s.doneIe then 1#32 else 0#32) ∧ State.reset.doneIe = false ∧
      writeOffset 0x08#8 v s = { s with doneIe := v.getLsbD 0 }

/-- 10_state.md R37: reserved offsets read 0 and ignore writes; reserved bits of defined registers read 0; writes to reserved
bits are ignored, except CMD's, which are latched and checked. -/
def Obligations.ReservedOffsetsAndBits : Prop :=
  ∀ (s : State) (v v' : Word),
    (∀ off : BitVec 8, 0x38 ≤ off.toNat → readOffset off s = 0#32 ∧ writeOffset off v s = s) ∧
    (readOffset 0x04#8 s).extractLsb' 3 5 = 0#5 ∧ (readOffset 0x04#8 s).extractLsb' 12 20 = 0#20 ∧
    (readOffset 0x08#8 s).extractLsb' 1 31 = 0#31 ∧ (readOffset 0x20#8 s).extractLsb' 5 27 = 0#27 ∧
    (readOffset 0x28#8 s).extractLsb' 6 26 = 0#26 ∧
    (v.extractLsb' 1 2 = v'.extractLsb' 1 2 → writeOffset 0x04#8 v s = writeOffset 0x04#8 v' s) ∧
    (v.getLsbD 0 = v'.getLsbD 0 → writeOffset 0x08#8 v s = writeOffset 0x08#8 v' s) ∧
    writeOffset 0x20#8 v s = s ∧ writeOffset 0x28#8 v s = s ∧
    (s.busy = false → (writeOffset 0x00#8 v s).cmd = v ∧
      (v.extractLsb' 4 28 ≠ 0#28 → (writeOffset 0x00#8 v s).result = .illegalCommand))

/-- 10_state.md section 2: what each offset of the window reads, the three computed words and the reserved offsets included, and
the offset of each register's name. -/
def Obligations.RegisterMapReads : Prop :=
  (Reg.offset .cmd = 0x00#8 ∧ Reg.offset .status = 0x04#8 ∧ Reg.offset .intEn = 0x08#8 ∧ Reg.offset .inBase = 0x0C#8 ∧
    Reg.offset .inLen = 0x10#8 ∧ Reg.offset .outBase = 0x14#8 ∧ Reg.offset .outCap = 0x18#8 ∧
    Reg.offset .outLen = 0x1C#8 ∧ Reg.offset .hdrWidth = 0x20#8 ∧ Reg.offset .hdrCount = 0x24#8 ∧
    Reg.offset .lastWidth = 0x28#8 ∧ Reg.offset .dictNext = 0x2C#8 ∧ Reg.offset .dictCapRd = 0x30#8 ∧
    Reg.offset .errInfo = 0x34#8) ∧
  ∀ s : State,
    readOffset 0x00#8 s = s.cmd ∧
    (readOffset 0x04#8 s).toNat =
      s.busy.toNat + 2 * s.done.toNat + 4 * s.ignoredWrite.toNat + 256 * s.result.toBits.toNat ∧
    (readOffset 0x08#8 s).toNat = s.doneIe.toNat ∧ readOffset 0x0C#8 s = s.inBase ∧ readOffset 0x10#8 s = s.inLen ∧
    readOffset 0x14#8 s = s.outBase ∧ readOffset 0x18#8 s = s.outCap ∧ readOffset 0x1C#8 s = s.outLen ∧
    (readOffset 0x20#8 s).toNat = s.hdrWidth.toNat ∧ readOffset 0x24#8 s = s.hdrCount ∧
    (readOffset 0x28#8 s).toNat = s.lastWidth.toNat ∧ readOffset 0x2C#8 s = s.dictNext ∧
    readOffset 0x30#8 s = dictCapWord s.platform ∧ readOffset 0x34#8 s = s.errInfo ∧
    ∀ off : BitVec 8, 0x38 ≤ off.toNat → readOffset off s = 0#32

/-- 10_state.md R35: DICT_CAP_RD reads DICT_CAP when it fits 32 bits, 0 when it is 2^32 or unbounded; writes are ignored; no
step changes it. -/
def Obligations.DictCapRegisterIsConstant : Prop :=
  ∀ s : State,
    (∀ c, s.platform.dictCap = some c → c ≤ 2 ^ 32 - 1 → (readOffset 0x30#8 s).toNat = c) ∧
    (s.platform.dictCap = none ∨ s.platform.dictCap = some (2 ^ 32) → readOffset 0x30#8 s = 0#32) ∧
    (∀ v, writeOffset 0x30#8 v s = s) ∧
    ∀ t, step s = .next t → readOffset 0x30#8 t = readOffset 0x30#8 s

/-- 44_command_interface.md R127: a read is allowed at any time and has no side effect; while BUSY = 1 the completion registers
read 0, STATUS reads BUSY = 1, DONE = 0, RESULT = 0, and the other registers read their current values. That the host keeps the
value read, goes on at its next line and uses up a slot of the schedule, and that its program runs once its MEM lines are stored,
is the model's own (log 20, 7, 5, 25). -/
def Obligations.ReadsHaveNoSideEffect : Prop :=
  (∀ (s : State) (off : BitVec 8), s.turn = .host → s.host.memLoaded = true →
    s.host.program[s.host.line]? = some (.rd off .bits32) → off.toNat % 4 = 0 →
    step s = .next
      { s with
        schedule := s.schedule.tail
        host := { s.host with line := s.host.line + 1, lastRead := readOffset off s } }) ∧
  ∀ s : State, s.Inv → s.busy = true →
    readOffset 0x04#8 s = (if s.ignoredWrite then 0x5#32 else 0x1#32) ∧ readOffset 0x1C#8 s = 0#32 ∧
    readOffset 0x20#8 s = 0#32 ∧ readOffset 0x24#8 s = 0#32 ∧ readOffset 0x28#8 s = 0#32 ∧
    readOffset 0x2C#8 s = 0#32 ∧ readOffset 0x34#8 s = 0#32 ∧
    readOffset 0x00#8 s = s.cmd ∧ (readOffset 0x08#8 s = if s.doneIe then 1#32 else 0#32) ∧
    readOffset 0x0C#8 s = s.inBase ∧ readOffset 0x10#8 s = s.inLen ∧ readOffset 0x14#8 s = s.outBase ∧
    readOffset 0x18#8 s = s.outCap ∧ readOffset 0x30#8 s = dictCapWord s.platform ∧
    ∀ off : BitVec 8, 0x38 ≤ off.toNat → readOffset off s = 0#32

/-- 20_memory.md R48: an access narrower than 32 bits, or at an offset not a multiple of 4, is a fault of the host. Its program runs
once its MEM lines are stored (log 25). -/
def Obligations.NarrowOrMisalignedAccessFaults : Prop :=
  ∀ (s : State) (off : BitVec 8) (width : BusWidth), s.turn = .host → s.host.memLoaded = true →
    (width ≠ .bits32 ∨ off.toNat % 4 ≠ 0) →
    let here := s.host.program[s.host.line]?
    (here = some (.rd off width) ∨ (∃ v, here = some (.wr off width v)) ∨
      (width = .bits32 ∧ ∃ f v, here = some (.poll off f v) ∨ ∃ l, here = some (.ifne off f v l))) →
    step s = .fault (.slaveError off)

/-- 20_memory.md R55: while BUSY = 1 a host write into either buffer, be it a MEM line's before the program runs or a later one, or
a host read of the output buffer, is a fault of the host; every other host access to memory takes its effect, and the block is not
changed by it. That it takes its effect whatever MEM_OK says is log 15; the MEM lines' stores as one step, and the store and load
lines, log 25; the host's last read value log 20, its position log 7, the schedule log 5. -/
def Obligations.BufferAccessWhileBusyFaults : Prop :=
  ∀ s : State, s.turn = .host →
    let here := s.host.program[s.host.line]?
    let closed := fun (a : Word) (bs : List Byte) =>
      ∃ k < bs.length, s.busy = true ∧
        (s.engine.inBase.toNat ≤ a.toNat + k ∧ a.toNat + k < s.engine.inBase.toNat + s.engine.inLen.toNat ∨
          s.engine.outBase.toNat ≤ a.toNat + k ∧ a.toNat + k < s.engine.outBase.toNat + s.engine.outCap.toNat)
    (s.host.memLoaded = false → (∀ a bs, HostOp.mem a bs ∈ s.host.program → a.toNat + bs.length ≤ 2 ^ 32) →
      ((∃ a bs, HostOp.mem a bs ∈ s.host.program ∧ closed a bs) → ∃ x, step s = .fault (.bufferHazard x)) ∧
      ((∀ a bs, HostOp.mem a bs ∈ s.host.program → ¬ closed a bs) →
        step s = .next
          { s with
            schedule := s.schedule.tail, mem := storeLines s.mem s.host.memLines
            host := { s.host with memLoaded := true } })) ∧
    (s.host.memLoaded = true → ∀ (a : Word) (bs : List Byte), here = some (.store a bs) → a.toNat + bs.length ≤ 2 ^ 32 →
      (closed a bs → ∃ x, step s = .fault (.bufferHazard x)) ∧
      (¬ closed a bs →
        step s = .next
          { s with
            schedule := s.schedule.tail, mem := s.mem.writeAll a.toNat bs
            host := { s.host with line := s.host.line + 1 } })) ∧
    (s.host.memLoaded = true → ∀ a : Word, here = some (.load a) →
      let closed := s.busy = true ∧ s.engine.outBase.toNat ≤ a.toNat ∧
        a.toNat < s.engine.outBase.toNat + s.engine.outCap.toNat
      (closed → step s = .fault (.bufferHazard a.toNat)) ∧
      (¬ closed →
        step s = .next
          { s with
            schedule := s.schedule.tail
            host := { s.host with line := s.host.line + 1, lastRead := (s.mem.read a.toNat).setWidth 32 } }))

/-- 60_exceptions.md R141: irq is DONE and DONE_IE; it rises in the completion step, stays until one of them is cleared, and is 0
at reset. -/
def Obligations.InterruptIsLevelOfDone : Prop :=
  State.reset.irq = false ∧
  ∀ (s : State) (v : Word),
    (s.irq = true ↔ s.done = true ∧ s.doneIe = true) ∧
    (∀ i t, exec i s = .next t → t.irq = s.doneIe) ∧
    (s.irq = true → v.getLsbD 1 = false → (writeOffset 0x04#8 v s).irq = true) ∧
    (v.getLsbD 1 = true → (writeOffset 0x04#8 v s).irq = false) ∧
    (v.getLsbD 0 = false → (writeOffset 0x08#8 v s).irq = false ∧ (writeOffset 0x08#8 v s).done = s.done) ∧
    (v.getLsbD 0 = true → (writeOffset 0x08#8 v s).irq = s.done)

/-! ## Reset -/

/-- 70_reset_and_hazards.md R147, R148: the reset input at any time gives every register its reset value and stops a running
command with no completion; only the bytes of that command's output buffer may change. -/
def Obligations.ResetInputRestoresRegisters : Prop :=
  ∀ s : State, s.turn = .reset →
    ∃ t, step s = .next t ∧ t.busy = false ∧ t.irq = false ∧
      (∀ off : BitVec 8, off ≠ 0x30#8 → readOffset off t = 0#32) ∧ readOffset 0x30#8 t = readOffset 0x30#8 s ∧
      t.done = false ∧ t.ignoredWrite = false ∧ t.result = .ok ∧ t.doneIe = false ∧ t.host = s.host ∧
      (s.busy = false → t.mem = s.mem) ∧
      ∀ a, (s.busy = true → a < s.engine.outBase.toNat ∨ s.engine.outBase.toNat + s.engine.outCap.toNat ≤ a) →
        t.mem.read a = s.mem.read a

/-- 70_reset_and_hazards.md R149: after reset the block is idle and accepts a CMD write at once; every register but the constant
DICT_CAP_RD reads 0. -/
def Obligations.ResetStateAcceptsCommand : Prop :=
  State.reset.busy = false ∧ (∀ off : BitVec 8, off ≠ 0x30#8 → readOffset off State.reset = 0#32) ∧
    ∀ i : Instr, (writeOffset 0x00#8 (encode i) State.reset).busy = true

/-! ## The step -/

/-- A step runs the latched command: on the engine's turn, with a command running whose latched OP decodes to i, the step is
exec of i on the state whose schedule slot is used up; an idle engine has no step; with no schedule left a running command
is the engine's turn. The schedule is the model's own (log 5). -/
def Obligations.StepRunsLatchedCommand : Prop :=
  ∀ s : State,
    (∀ i, s.turn = .engine → s.busy = true → decodeOp s.engine.op = .ok i →
      step s = exec i { s with schedule := s.schedule.tail }) ∧
    (s.turn = .engine → s.busy = false → step s = .next { s with schedule := s.schedule.tail }) ∧
    (s.schedule = [] → s.turn = if s.busy then .engine else .host) ∧
    ∀ x xs, s.schedule = x :: xs → s.turn = x

/-- The fetch of a placed word (the model's own operation, log 13): the very next step runs the table's command. -/
def Obligations.PlacedCommandRunsNext : Prop :=
  ∀ (s : State) (i : Instr),
    step (s.withFetchWord 32 (encode i).toNat) = exec i (s.withFetchWord 32 (encode i).toNat) ∧
      (s.withFetchWord 32 (encode i).toNat).mem = s.mem ∧
      (s.withFetchWord 32 (encode i).toNat).engine.inBase = s.inBase ∧
      (s.withFetchWord 32 (encode i).toNat).engine.inLen = s.inLen ∧
      (s.withFetchWord 32 (encode i).toNat).engine.outBase = s.outBase ∧
      (s.withFetchWord 32 (encode i).toNat).engine.outCap = s.outCap

/-- The invariant holds at reset. -/
def Obligations.ResetMeetsInvariant : Prop := State.reset.Inv

/-- Every step keeps the invariant: canonical memory, a legal DICT_CAP, quiet completion registers while busy, a legal latched
command on checked buffers while busy, all-or-nothing completion. -/
def Obligations.StepKeepsInvariant : Prop := ∀ s t : State, s.Inv → step s = .next t → t.Inv

/-- In a state of the invariant the engine never meets a latched op that is no command. -/
def Obligations.RunningEngineHoldsCommand : Prop :=
  ∀ s : State, s.Inv → step s ≠ .fault .illegalLatchedOp ∧ ∀ r, step s ≠ .refused r

/-- 44_command_interface.md R124: once accepted, a command is stopped by no register write; only its own completion or reset
makes the engine idle. -/
def Obligations.OnlyCompletionOrResetEndsCommand : Prop :=
  (∀ (s : State) (off : BitVec 8) (v : Word), s.busy = true → (writeOffset off v s).engine = s.engine) ∧
  ∀ s t : State, s.busy = true → step s = .next t →
    (s.turn = .host → t.engine = s.engine) ∧ (t.busy = false → s.turn = .engine ∨ s.turn = .reset)

/-- 70_reset_and_hazards.md section 4: a running command completes after finitely many steps, or reset stops it, or the host
faults: within the schedule's length and one step more. The schedule is the model's own (log 5). -/
def Obligations.RunningCommandEnds : Prop :=
  ∀ s : State, s.Inv → s.busy = true →
    ∃ k ≤ s.schedule.length + 1,
      (∃ t, Host.Core.run Sys2Proof.core k s = .next t ∧ t.busy = false) ∨
        ∃ f : Fault, f ≠ .illegalLatchedOp ∧ Host.Core.run Sys2Proof.core k s = .fault f

/-- 10_state.md section 3: the dictionary, the counters and the bit buffer are never observable, and an idle engine's latched
operands neither: two states that differ in nothing else step alike. -/
def Obligations.HiddenStateNeverShows : Prop :=
  ∀ s t : State, s.visible = t.visible → visibleOutcome (step s) = visibleOutcome (step t)

/-! ## The four commands -/

/-- 42_regular.md R102: COMPRESS_REGULAR, every outcome in its order. -/
def Obligations.CompressRegularMeaning : Prop :=
  ∀ s : State, s.mem.wf = true → s.latchedOk →
    (∀ j, s.firstRefusedRead j → ∃ t, exec .compressRegular s = .next t ∧ endedError t .busError (s.inAddr j)) ∧
    (s.inputReadable →
      ∃ codes d, encodeSymbols admitRegular s.inputBytes = .ok (codes, d) ∧
        let W := if codes = [] then 8 else max 8 (bitlen (codes.foldl max 0))
        let B := bitsToBytes (codes.foldl (fun S k => writeFixedWidth S k W) (writeHeader [] W codes.length))
        (B.length > s.outCapacity →
          ∃ t, exec .compressRegular s = .next t ∧ endedError t .outOverflow (min B.length (2 ^ 32 - 1))) ∧
        (B.length ≤ s.outCapacity →
          (∀ j < B.length, s.firstRefusedWrite j →
            ∃ t, exec .compressRegular s = .next t ∧ endedError t .busError (s.outAddr j)) ∧
          (s.outputWritable B.length →
            ∃ t, exec .compressRegular s = .next t ∧
              endedOk s t B W codes.length (if codes.length ≥ 1 then W else 0) d.nextCode)))

/-- 42_regular.md R103: DECOMPRESS_REGULAR, every outcome in its order. -/
def Obligations.DecompressRegularMeaning : Prop :=
  ∀ s : State, s.mem.wf = true → s.latchedOk →
    (∀ j, s.firstRefusedRead j → ∃ t, exec .decompressRegular s = .next t ∧ endedError t .busError (s.inAddr j)) ∧
    (s.inputReadable →
      let S := bytesToBits s.inputBytes
      let F := bitsToNat (S.take 4)
      let W := if F = 0 then 16 else F
      let N := bitsToNat ((S.drop 4).take 32)
      let codes := (List.range N).map fun i => bitsToNat ((S.drop (36 + i * W)).take W)
      (s.inLength < 5 →
        ∃ t, exec .decompressRegular s = .next t ∧ endedError t .malformedHeader s.inLength) ∧
      (5 ≤ s.inLength → N = 0 → ∃ t, exec .decompressRegular s = .next t ∧ endedOk s t [] W 0 0 256) ∧
      (5 ≤ s.inLength → 0 < N → 36 + N * W > 8 * s.inLength →
        ∃ t, exec .decompressRegular s = .next t ∧ endedError t .truncatedStream ((8 * s.inLength - 36) / W)) ∧
      (5 ≤ s.inLength → 0 < N → 36 + N * W ≤ 8 * s.inLength →
        (∀ r, decodeCodes admitRegular codes s.outCapacity = .error r →
          r.code ≠ .dictFull ∧ ∃ t, exec .decompressRegular s = .next t ∧ endedError t r.code r.info) ∧
        ∀ out d, decodeCodes admitRegular codes s.outCapacity = .ok (out, d) →
          (∀ j < out.length, s.firstRefusedWrite j →
            ∃ t, exec .decompressRegular s = .next t ∧ endedError t .busError (s.outAddr j)) ∧
          (s.outputWritable out.length →
            ∃ t, exec .decompressRegular s = .next t ∧ endedOk s t out W N W d.nextCode)))

/-- 43_improved.md R112: COMPRESS_IMPROVED, every outcome in its order; code i is written at bitlen(i + 256) bits. -/
def Obligations.CompressImprovedMeaning : Prop :=
  ∀ s : State, s.mem.wf = true → s.latchedOk →
    (∀ j, s.firstRefusedRead j → ∃ t, exec .compressImproved s = .next t ∧ endedError t .busError (s.inAddr j)) ∧
    (s.inputReadable →
      (∀ r, encodeSymbols (admitImproved s.platform.dictCap) s.inputBytes = .error r →
        r.code = .dictFull ∧ ∃ t, exec .compressImproved s = .next t ∧ endedError t .dictFull r.info) ∧
      ∀ codes d, encodeSymbols (admitImproved s.platform.dictCap) s.inputBytes = .ok (codes, d) →
        let B := bitsToBytes
          (codes.zipIdx.foldl (fun S p => writeFixedWidth S p.1 (bitlen (p.2 + 256))) (writeHeader [] 9 codes.length))
        (B.length > s.outCapacity →
          ∃ t, exec .compressImproved s = .next t ∧ endedError t .outOverflow (min B.length (2 ^ 32 - 1))) ∧
        (B.length ≤ s.outCapacity →
          (∀ j < B.length, s.firstRefusedWrite j →
            ∃ t, exec .compressImproved s = .next t ∧ endedError t .busError (s.outAddr j)) ∧
          (s.outputWritable B.length →
            ∃ t, exec .compressImproved s = .next t ∧
              endedOk s t B 9 codes.length (if codes.length ≥ 1 then bitlen (codes.length - 1 + 256) else 0)
                (min d.nextCode (2 ^ 32 - 1)))))

/-- 43_improved.md R113: DECOMPRESS_IMPROVED, every outcome in its order; code i stands at growPos W0 i and has the schedule's
width there. -/
def Obligations.DecompressImprovedMeaning : Prop :=
  ∀ s : State, s.mem.wf = true → s.latchedOk →
    (∀ j, s.firstRefusedRead j → ∃ t, exec .decompressImproved s = .next t ∧ endedError t .busError (s.inAddr j)) ∧
    (s.inputReadable →
      let S := bytesToBits s.inputBytes
      let F := bitsToNat (S.take 4)
      let W0 := if F = 0 then 16 else F
      let N := bitsToNat ((S.drop 4).take 32)
      let width := fun i => (growAfter i (Grow.start W0)).width
      let codes := (List.range N).map fun i => bitsToNat ((S.drop (growPos W0 i)).take (width i))
      (s.inLength < 5 →
        ∃ t, exec .decompressImproved s = .next t ∧ endedError t .malformedHeader s.inLength) ∧
      (5 ≤ s.inLength → N = 0 → ∃ t, exec .decompressImproved s = .next t ∧ endedOk s t [] W0 0 0 256) ∧
      (∀ i < N, 5 ≤ s.inLength → growPos W0 i ≤ 8 * s.inLength → growPos W0 (i + 1) > 8 * s.inLength →
        ∃ t, exec .decompressImproved s = .next t ∧ endedError t .truncatedStream i) ∧
      (5 ≤ s.inLength → 0 < N → growPos W0 N ≤ 8 * s.inLength →
        (∀ r, decodeCodes (admitImproved s.platform.dictCap) codes s.outCapacity = .error r →
          ∃ t, exec .decompressImproved s = .next t ∧ endedError t r.code r.info) ∧
        ∀ out d, decodeCodes (admitImproved s.platform.dictCap) codes s.outCapacity = .ok (out, d) →
          (∀ j < out.length, s.firstRefusedWrite j →
            ∃ t, exec .decompressImproved s = .next t ∧ endedError t .busError (s.outAddr j)) ∧
          (s.outputWritable out.length →
            ∃ t, exec .decompressImproved s = .next t ∧
              endedOk s t out W0 N (width (N - 1)) (min d.nextCode (2 ^ 32 - 1)))))

/-! ## What holds of every command -/

/-- 60_exceptions.md R136: every command completes, all-or-nothing, and memory outside its output buffer never changes. -/
def Obligations.CompletionIsAllOrNothing : Prop :=
  ∀ (i : Instr) (s : State), ∃ t, exec i s = .next t ∧ t.busy = false ∧ t.done = true ∧
    ((t.result = .ok ∧ t.errInfo = 0#32 ∧
        ∃ c, codecOf i s s.inputBytes = .ok c ∧ t.outLen.toNat = c.out.length ∧ t.hdrWidth.toNat = c.hdrWidth ∧
          t.hdrCount.toNat = c.hdrCount ∧ t.lastWidth.toNat = c.lastWidth ∧
          t.dictNext.toNat = min c.dictNext (2 ^ 32 - 1)) ∨
      (t.result ≠ .ok ∧ CompletionZero t)) ∧
    ∀ a, (a < s.engine.outBase.toNat ∨ s.engine.outBase.toNat + s.engine.outCap.toNat ≤ a) →
      t.mem.read a = s.mem.read a

/-- The frame of the four commands: no register but the completion registers, STATUS.BUSY, STATUS.DONE and STATUS.RESULT changes;
the platform stays. That the latched operands keep their values after the completion is log 2; the host and the schedule, which
stay too, are the model's own (log 7, 5). The frame of memory is WritesStayInOutputBuffer's. -/
def Obligations.CommandFrame : Prop :=
  ∀ (i : Instr) (s t : State), exec i s = .next t →
    t.cmd = s.cmd ∧ t.ignoredWrite = s.ignoredWrite ∧ t.doneIe = s.doneIe ∧ t.inBase = s.inBase ∧
    t.inLen = s.inLen ∧ t.outBase = s.outBase ∧ t.outCap = s.outCap ∧ t.engine.op = s.engine.op ∧
    t.engine.inBase = s.engine.inBase ∧ t.engine.inLen = s.engine.inLen ∧ t.engine.outBase = s.engine.outBase ∧
    t.engine.outCap = s.engine.outCap ∧ t.platform = s.platform ∧ t.host = s.host ∧ t.schedule = s.schedule

/-- 20_memory.md R45: a command writes only inside out_base .. out_base + out_cap - 1; on OK the first OUT_LEN bytes hold the
output and the rest of the buffer is unchanged. -/
def Obligations.WritesStayInOutputBuffer : Prop :=
  ∀ (i : Instr) (s t : State), s.mem.wf = true → exec i s = .next t →
    (∀ a, (a < s.engine.outBase.toNat ∨ s.engine.outBase.toNat + s.engine.outCap.toNat ≤ a) →
      t.mem.read a = s.mem.read a) ∧
    (t.result = .ok →
      (∀ a, s.engine.outBase.toNat + t.outLen.toNat ≤ a → t.mem.read a = s.mem.read a) ∧
      t.outLen.toNat ≤ s.engine.outCap.toNat ∧
      ∃ c, codecOf i s s.inputBytes = .ok c ∧ c.out.length = t.outLen.toNat ∧
        ∀ (j : Nat) (h : j < c.out.length), t.mem.read (s.engine.outBase.toNat + j) = c.out[j])

/-- 60_exceptions.md section 1: which results each command can give. -/
def Obligations.ResultsEachCommandGives : Prop :=
  ∀ (s : State),
    (∀ t, exec .compressRegular s = .next t → t.result ∈ [ResultCode.ok, .outOverflow, .busError]) ∧
    (∀ t, exec .decompressRegular s = .next t →
      t.result ∈ [ResultCode.ok, .malformedHeader, .truncatedStream, .corruptCode, .outOverflow, .busError]) ∧
    (∀ t, exec .compressImproved s = .next t →
      t.result ∈ [ResultCode.ok, .outOverflow, .dictFull, .busError] ∧
        (s.platform.dictCap = none → t.result ≠ .dictFull)) ∧
    (∀ t, exec .decompressImproved s = .next t →
      t.result ∈ [ResultCode.ok, .malformedHeader, .truncatedStream, .corruptCode, .outOverflow, .dictFull, .busError] ∧
        (s.platform.dictCap = none → t.result ≠ .dictFull))

/-- 10_state.md section 2: the ranges of HDR_WIDTH and LAST_WIDTH after OK. -/
def Obligations.WidthRegistersInRange : Prop :=
  ∀ (i : Instr) (s t : State), exec i s = .next t → t.result = .ok →
    1 ≤ t.hdrWidth.toNat ∧ t.hdrWidth.toNat ≤ 16 ∧ t.lastWidth.toNat ≤ 33 ∧
    (t.hdrCount = 0#32 ↔ t.lastWidth = 0#6) ∧
    (i = .compressRegular → 8 ≤ t.hdrWidth.toNat) ∧ (i = .compressImproved → t.hdrWidth = 9#5) ∧
    (i = .compressRegular ∨ i = .decompressRegular → t.hdrCount ≠ 0#32 →
      t.lastWidth.toNat = t.hdrWidth.toNat)

/-- 44_command_interface.md R123: the outcome depends on the operands, the input bytes, DICT_CAP and MEM_OK alone. -/
def Obligations.CommandIsDeterminedByItsInputs : Prop :=
  ∀ (i : Instr) (s t s' t' : State), s.mem.wf = true → t.mem.wf = true →
    s.engine.inBase = t.engine.inBase → s.engine.inLen = t.engine.inLen →
    s.engine.outBase = t.engine.outBase → s.engine.outCap = t.engine.outCap → s.platform = t.platform →
    s.inputBytes = t.inputBytes → exec i s = .next s' → exec i t = .next t' →
    s'.result = t'.result ∧ s'.errInfo = t'.errInfo ∧ s'.outLen = t'.outLen ∧ s'.hdrWidth = t'.hdrWidth ∧
    s'.hdrCount = t'.hdrCount ∧ s'.lastWidth = t'.lastWidth ∧ s'.dictNext = t'.dictNext ∧
    (s'.result = .ok → ∀ j < s'.outLen.toNat, s'.mem.read (s.outAddr j) = t'.mem.read (t.outAddr j))

/-- 44_command_interface.md section 4: a write and a completion at once lose neither: DONE reads 1, an ignored write stays
recorded, and the command's result is the same. That the two are a host step and then an engine step is the model's reading
(log 6). -/
def Obligations.CompletionAfterWriteIsNotLost : Prop :=
  ∀ (i : Instr) (s t : State) (v : Word) (off : BitVec 8), s.busy = true → exec i (writeOffset off v s) = .next t →
    t.done = true ∧ (off ∈ [0x00#8, 0x0C#8, 0x10#8, 0x14#8, 0x18#8] → t.ignoredWrite = true) ∧
      ∃ u, exec i s = .next u ∧ t.result = u.result ∧ t.outLen = u.outLen ∧ t.mem = u.mem

/-! ## BitChannel -/

/-- 20_memory.md R47: increasing address is increasing stream order; stream bit j is bit 7 - (j mod 8) of byte j div 8; an
integer is serialized most significant bit first. -/
def Obligations.StreamBitOrder : Prop :=
  (∀ (s : State) (i : Nat), i < s.engine.inLen.toNat →
    s.inputBytes[i]? = some (s.mem.read (s.engine.inBase.toNat + i))) ∧
  (∀ (B : List Byte) (j : Nat), j < 8 * B.length →
    (bytesToBits B)[j]? = (B[j / 8]?).map fun b => b.getLsbD (7 - j % 8)) ∧
  ∀ (S : Bits) (v w : Nat), writeFixedWidth S v w = S ++ (List.range w).map fun j => v.testBit (w - 1 - j)

/-- 30_encoding.md R68: a bit string of length L takes ceil(L/8) bytes, and the bits past L in the last one are zero. -/
def Obligations.PackingPadsWithZeros : Prop :=
  ∀ S : Bits, (bitsToBytes S).length = (S.length + 7) / 8 ∧
    bytesToBits (bitsToBytes S) = S ++ List.replicate (8 * ((S.length + 7) / 8) - S.length) false

/-- 40_bitchannel.md R82: readHeader fails exactly below 36 bits; it reads the width field, 0 meaning 16, and the count; its width
is always 1..16; it gives back what writeHeader wrote, whatever follows. -/
def Obligations.HeaderRoundTrip : Prop :=
  (∀ S : Bits, readHeader S = none ↔ S.length < 36) ∧
  (∀ S : Bits, 36 ≤ S.length →
    let F := bitsToNat (S.take 4)
    readHeader S = some (if F = 0 then 16 else F, bitsToNat ((S.drop 4).take 32))) ∧
  (∀ (S : Bits) (w n : Nat), readHeader S = some (w, n) → 1 ≤ w ∧ w ≤ 16 ∧ n < 2 ^ 32) ∧
  ∀ (w c : Nat) (T : Bits), 1 ≤ w → w ≤ 16 → c < 2 ^ 32 → readHeader (writeHeader [] w c ++ T) = some (w, c)

/-- 30_encoding.md R72: a decoder reads stream bits 0 .. L - 1 and no other: padding and later bytes are ignored, whatever the
outcome; a stream is truncated exactly when the input has fewer than L bits. -/
def Obligations.BitsBeyondCodesIgnored : Prop :=
  ∀ (cap : Nat) (dc : Option Nat) (ys : List Byte) (W N : Nat), readHeader (bytesToBits ys) = some (W, N) →
    (let L := 36 + N * W;
      ((∃ t, decompressRegularBytes cap ys = .error { code := .truncatedStream, info := t }) ↔ 8 * ys.length < L) ∧
      ∀ zs : List Byte, L ≤ 8 * ys.length → L ≤ 8 * zs.length →
        (bytesToBits zs).take L = (bytesToBits ys).take L →
        decompressRegularBytes cap zs = decompressRegularBytes cap ys) ∧
    (let L := growPos W N;
      ((∃ t, decompressImprovedBytes dc cap ys = .error { code := .truncatedStream, info := t }) ↔ 8 * ys.length < L) ∧
      ∀ zs : List Byte, L ≤ 8 * ys.length → L ≤ 8 * zs.length →
        (bytesToBits zs).take L = (bytesToBits ys).take L →
        decompressImprovedBytes dc cap zs = decompressImprovedBytes dc cap ys)

/-! ## LzwCore -/

/-- 41_lzw_core.md R85: a dictionary starts with the 256 one-symbol sequences, only grows, and its codes are exactly
0 .. nextCode - 1; the encoder's has one code per sequence. It only grows: what is registered after some symbols, or some codes,
is still there, under the same code, after any more of them. -/
def Obligations.DictionaryDiscipline : Prop :=
  (∀ c : Symbol, Dict.seed.codeOf [c] = some c.toNat ∧ Dict.seed.seqOf c.toNat = some [c]) ∧
  Dict.seed.nextCode = 256 ∧
  (∀ (policy : Nat → Admission) (xs : List Symbol) (codes : List Nat) (d : Dict),
    encodeSymbols policy xs = .ok (codes, d) →
      Dict.seed.entries <+: d.entries ∧ d.entries.length = d.nextCode ∧ d.entries.Nodup) ∧
  (∀ (policy : Nat → Admission) (xs ys : List Symbol) (codes codes' : List Nat) (d e : Dict),
    encodeSymbols policy xs = .ok (codes, d) → encodeSymbols policy (xs ++ ys) = .ok (codes', e) →
      d.entries <+: e.entries ∧ d.nextCode ≤ e.nextCode) ∧
  (∀ (policy : Nat → Admission) (codes : List Nat) (cap : Nat) (out : List Symbol) (d : Dict),
    decodeCodes policy codes cap = .ok (out, d) →
      Dict.seed.entries <+: d.entries ∧ d.entries.length = d.nextCode) ∧
  ∀ (policy : Nat → Admission) (codes more : List Nat) (cap : Nat) (out out' : List Symbol) (d e : Dict),
    decodeCodes policy codes cap = .ok (out, d) → decodeCodes policy (codes ++ more) cap = .ok (out', e) →
      d.entries <+: e.entries ∧ d.nextCode ≤ e.nextCode

/-- 41_lzw_core.md R87: the encoder symbol by symbol. After some symbols, with k the code of the pending sequence w that the final
flush emits: a symbol that makes a dictionary key of w only extends it; another one leaves k emitted, asks the policy at nextCode,
registers w with the symbol at nextCode or nothing or ends with DICT_FULL at the index of k, and restarts with the symbol. The
first failure ends the encoding. The encoder laws of R88 follow. -/
def Obligations.EncoderLaws : Prop :=
  (∀ policy : Nat → Admission, encodeSymbols policy [] = .ok ([], Dict.seed) ∧
    ∀ c : Symbol, encodeSymbols policy [c] = .ok ([c.toNat], Dict.seed)) ∧
  (∀ (policy : Nat → Admission) (xs ys : List Symbol) (r : Raise),
    encodeSymbols policy xs = .error r → encodeSymbols policy (xs ++ ys) = .error r) ∧
  (∀ (policy : Nat → Admission) (xs : List Symbol) (codes : List Nat) (k : Nat) (d : Dict),
    encodeSymbols policy xs = .ok (codes ++ [k], d) →
      ∃ w, w ≠ [] ∧ d.entries[k]? = some w ∧ ∀ c : Symbol,
        (∀ k', d.entries[k']? = some (w ++ [c]) → encodeSymbols policy (xs ++ [c]) = .ok (codes ++ [k'], d)) ∧
        (w ++ [c] ∉ d.entries →
          encodeSymbols policy (xs ++ [c]) =
            match policy d.nextCode with
            | .insert =>
              .ok (codes ++ [k, c.toNat], { entries := d.entries ++ [w ++ [c]], nextCode := d.nextCode + 1 })
            | .skip => .ok (codes ++ [k, c.toNat], d)
            | .full => .error { code := .dictFull, info := codes.length })) ∧
  ∀ (policy : Nat → Admission) (xs : List Symbol) (codes : List Nat) (d : Dict),
    encodeSymbols policy xs = .ok (codes, d) →
      (codes = [] ↔ xs = []) ∧ codes.length ≤ xs.length ∧
      (∀ (i : Nat) (h : i < codes.length), codes[i] ≤ 255 + i) ∧
      ((∀ n, policy n ≠ .skip) → xs ≠ [] → d.nextCode = 256 + codes.length - 1)

/-- The codes spell the input: each code's sequence in the encoder's final dictionary, one after the other. -/
def Obligations.CodesSpellTheInput : Prop :=
  ∀ (policy : Nat → Admission) (xs : List Symbol) (codes : List Nat) (d : Dict),
    encodeSymbols policy xs = .ok (codes, d) → (codes.map fun k => (d.seqOf k).getD []).flatten = xs

/-- 41_lzw_core.md R90, R91, R94: the decoder code by code. A first code of 256 or more fails with CORRUPT_CODE, ERR_INFO 0, in both
decoders. After codes `ks ++ [j]`, with w the entry of j, the next code k, of index i, is corrupt above nextCode, else has the entry
of a known key or w with its first symbol again; the output may not pass out_cap; then the policy is asked at nextCode, and w with
the entry's first symbol is registered there, or nothing is, or DICT_FULL ends the decoding. The first failure, at the lowest i,
ends it with ERR_INFO i. A capacity of at least the output's length changes nothing. -/
def Obligations.FirstCodeMustBeLiteral : Prop :=
  (∀ (policy : Nat → Admission) (k : Nat) (ks : List Nat) (cap : Nat), 256 ≤ k →
    decodeCodes policy (k :: ks) cap = .error { code := .corruptCode, info := 0 }) ∧
  (∀ (policy : Nat → Admission) (cap : Nat), decodeCodes policy [] cap = .ok ([], Dict.seed) ∧
    ∀ c : Symbol, decodeCodes policy [c.toNat] cap =
      if 1 > cap then .error { code := .outOverflow, info := 0 } else .ok ([c], Dict.seed)) ∧
  (∀ (policy : Nat → Admission) (ks more : List Nat) (cap : Nat) (r : Raise),
    decodeCodes policy ks cap = .error r → decodeCodes policy (ks ++ more) cap = .error r) ∧
  (∀ (policy : Nat → Admission) (ks : List Nat) (j k cap : Nat) (out0 out : List Symbol) (d0 d : Dict),
    decodeCodes policy ks cap = .ok (out0, d0) → decodeCodes policy (ks ++ [j]) cap = .ok (out, d) →
      ∃ w, w ≠ [] ∧ out = out0 ++ w ∧
        let i := ks.length + 1
        (k > d.nextCode → decodeCodes policy (ks ++ [j, k]) cap = .error { code := .corruptCode, info := i }) ∧
        (k < d.nextCode → ∃ entry, d.entries[k]? = some entry) ∧
        ∀ entry, (k < d.nextCode ∧ d.entries[k]? = some entry ∨ k = d.nextCode ∧ entry = w ++ w.take 1) →
          decodeCodes policy (ks ++ [j, k]) cap =
            if out.length + entry.length > cap then .error { code := .outOverflow, info := i }
            else
              match policy d.nextCode with
              | .insert =>
                .ok (out ++ entry,
                  { entries := d.entries ++ [w ++ entry.take 1], nextCode := d.nextCode + 1 })
              | .skip => .ok (out ++ entry, d)
              | .full => .error { code := .dictFull, info := i }) ∧
  (∀ (policy : Nat → Admission) (ks : List Nat) (cap cap' : Nat) (out : List Symbol) (d : Dict),
    decodeCodes policy ks cap = .ok (out, d) →
      out.length ≤ cap ∧ (out.length ≤ cap' → decodeCodes policy ks cap' = .ok (out, d))) ∧
  ∀ s : State, s.inputReadable → 5 ≤ s.inLength →
    let S := bytesToBits s.inputBytes
    let F := bitsToNat (S.take 4)
    let W := if F = 0 then 16 else F
    let N := bitsToNat ((S.drop 4).take 32)
    0 < N → 256 ≤ bitsToNat ((S.drop 36).take W) →
    (36 + N * W ≤ 8 * s.inLength → ∃ t, exec .decompressRegular s = .next t ∧ endedError t .corruptCode 0) ∧
    (growPos W N ≤ 8 * s.inLength → ∃ t, exec .decompressImproved s = .next t ∧ endedError t .corruptCode 0)

/-- 41_lzw_core.md R95: the round trip, under any admission policy the two sides share. -/
def Obligations.EncodeDecodeRoundTrip : Prop :=
  ∀ (policy : Nat → Admission) (xs : List Symbol) (codes : List Nat) (d : Dict) (cap : Nat),
    encodeSymbols policy xs = .ok (codes, d) → xs.length ≤ cap →
      ∃ e, decodeCodes policy codes cap = .ok (xs, e) ∧ e.nextCode = d.nextCode

/-- 41_lzw_core.md section 3: corruption need not be detected (a flipped bit of the stream of "AB" gives "AC"); 43_improved.md
section 3: the Improved stream of "AB" is longer in bits than the Regular one. -/
def Obligations.SourceClaimsThatFail : Prop :=
  (decompressRegularBytes 16 [0x80, 0x00, 0x00, 0x00, 0x24, 0x14, 0x20]).toOption.map (·.out) = some [0x41, 0x42] ∧
  (decompressRegularBytes 16 [0x80, 0x00, 0x00, 0x00, 0x24, 0x14, 0x30]).toOption.map (·.out) = some [0x41, 0x43] ∧
  (regularBits [65, 66]).length = 52 ∧ (improvedBits [65, 66]).length = 54

/-! ## The Regular variant -/

/-- 42_regular.md R99: nextCode stops at 65536, after 65281 emitted codes, with 65536 entries; every code is at most 65535; no
error. -/
def Obligations.RegularDictionaryFreezes : Prop :=
  ∀ xs : List Symbol, ∃ codes d, encodeSymbols admitRegular xs = .ok (codes, d) ∧
    (∀ k ∈ codes, k ≤ 65535) ∧ (xs ≠ [] → d.nextCode = min (256 + codes.length - 1) 65536) ∧
    d.entries.length = d.nextCode

/-- 42_regular.md R100: the Regular width is 8 for no code, else the least width of at least 8 that holds every code, at most
16. -/
def Obligations.RegularWidthIsLeast : Prop :=
  regularWidth [] = 8 ∧
  ∀ codes : List Nat, codes ≠ [] →
    regularWidth codes = max 8 (bitlen (codes.foldl max 0)) ∧
    (∀ k ∈ codes, k < 2 ^ regularWidth codes) ∧
    (∀ w, 8 ≤ w → (∀ k ∈ codes, k < 2 ^ w) → regularWidth codes ≤ w) ∧
    ((∀ k ∈ codes, k ≤ 65535) → regularWidth codes ≤ 16)

/-- 42_regular.md R101: OUT_LEN after an OK COMPRESS_REGULAR is ceil((36 + N·W)/8). -/
def Obligations.RegularStreamSize : Prop :=
  (∀ s t : State, exec .compressRegular s = .next t → t.result = .ok →
    t.outLen.toNat = (36 + t.hdrCount.toNat * t.hdrWidth.toNat + 7) / 8) ∧
  ∀ codes : List Nat, (regularBits codes).length = 36 + codes.length * regularWidth codes ∧
    ((∀ k ∈ codes, k < 256) → regularWidth codes = 8)

/-- COMPRESS_REGULAR and then DECOMPRESS_REGULAR of its output give back the input bytes. -/
def Obligations.RegularCommandsRoundTrip : Prop :=
  ∀ s t u : State, s.mem.wf = true → u.mem.wf = true → exec .compressRegular s = .next t → t.result = .ok →
    u.inputBytes = ((List.range t.outLen.toNat).map fun j => t.mem.read (s.outAddr j)) →
    u.inputReadable → s.inLength ≤ u.outCapacity → u.outputWritable s.inLength →
    ∃ v, exec .decompressRegular u = .next v ∧ v.result = .ok ∧ v.outLen.toNat = s.inLength ∧
      (∀ j < s.inLength, v.mem.read (u.outAddr j) = s.mem.read (s.inAddr j)) ∧
      v.hdrWidth = t.hdrWidth ∧ v.hdrCount = t.hdrCount ∧ v.lastWidth = t.lastWidth ∧ v.dictNext = t.dictNext

/-! ## The Improved variant -/

/-- 43_improved.md R109: before code i the counter is 256 + i, and the width of code i is bitlen(i + 256). -/
def Obligations.GrowScheduleClosedForm : Prop :=
  ∀ i : Nat, (growAfter i (Grow.start 9)).simulatedNext = 256 + i ∧
    (growAfter i (Grow.start 9)).width = bitlen (i + 256)

/-- 43_improved.md R114: a schedule that starts at 8 or less never grows; one that starts at W0 of 9 or more keeps W0 until the
counter reaches 2^W0, and then has the width bitlen of the counter. -/
def Obligations.HeaderWidthStartsSchedule : Prop :=
  ∀ (W0 i : Nat), 1 ≤ W0 → W0 ≤ 16 →
    (W0 ≤ 8 → (growAfter i (Grow.start W0)).width = W0) ∧
    (9 ≤ W0 → 256 + i < 2 ^ W0 → (growAfter i (Grow.start W0)).width = W0) ∧
    (9 ≤ W0 → 2 ^ W0 ≤ 256 + i → (growAfter i (Grow.start W0)).width = bitlen (256 + i))

/-- 43_improved.md R110: every code the encoder emits fits its width, so writeFixedWidth never truncates it. -/
def Obligations.ImprovedCodesFitTheirWidths : Prop :=
  ∀ (policy : Nat → Admission) (xs : List Symbol) (codes : List Nat) (d : Dict),
    encodeSymbols policy xs = .ok (codes, d) →
      ∀ (i : Nat) (h : i < codes.length), codes[i] < 2 ^ bitlen (i + 256) ∧
        codes[i] % 2 ^ (growAfter i (Grow.start 9)).width = codes[i]

/-- 43_improved.md R106: a non-empty input of N codes needs N - 1 registrations, so its encoding succeeds exactly when DICT_CAP is
unbounded or N ≤ DICT_CAP - 255; the decoder's condition for the same stream is the same. -/
def Obligations.ImprovedCapacityLaw : Prop :=
  ∀ (xs : List Symbol) (cap : Nat), xs ≠ [] → xs.length ≤ cap →
    ∃ codes d, encodeSymbols (admitImproved none) xs = .ok (codes, d) ∧ d.nextCode = 256 + (codes.length - 1) ∧
      (∃ e, decodeCodes (admitImproved none) codes cap = .ok (xs, e) ∧ e.nextCode = d.nextCode) ∧
      ∀ dictCap : Nat, 65536 ≤ dictCap →
        (codes.length ≤ dictCap - 255 →
          encodeSymbols (admitImproved (some dictCap)) xs = .ok (codes, d) ∧
            ∃ e, decodeCodes (admitImproved (some dictCap)) codes cap = .ok (xs, e) ∧ e.nextCode = d.nextCode) ∧
        (dictCap - 255 < codes.length →
          encodeSymbols (admitImproved (some dictCap)) xs = .error { code := .dictFull, info := dictCap - 256 } ∧
            decodeCodes (admitImproved (some dictCap)) codes cap = .error { code := .dictFull, info := dictCap - 255 })

/-- 30_encoding.md section 2: OUT_LEN after an OK COMPRESS_IMPROVED is ceil((36 + sum of bitlen(i + 256))/8). -/
def Obligations.ImprovedStreamSize : Prop :=
  ∀ s t : State, exec .compressImproved s = .next t → t.result = .ok →
    t.outLen.toNat = (36 + ((List.range t.hdrCount.toNat).map fun i => bitlen (i + 256)).sum + 7) / 8

/-- COMPRESS_IMPROVED and then DECOMPRESS_IMPROVED of its output, with the same DICT_CAP, give back the input bytes. -/
def Obligations.ImprovedCommandsRoundTrip : Prop :=
  ∀ s t u : State, s.mem.wf = true → u.mem.wf = true → exec .compressImproved s = .next t → t.result = .ok →
    u.platform.dictCap = s.platform.dictCap →
    u.inputBytes = ((List.range t.outLen.toNat).map fun j => t.mem.read (s.outAddr j)) →
    u.inputReadable → s.inLength ≤ u.outCapacity → u.outputWritable s.inLength →
    ∃ v, exec .decompressImproved u = .next v ∧ v.result = .ok ∧ v.outLen.toNat = s.inLength ∧
      (∀ j < s.inLength, v.mem.read (u.outAddr j) = s.mem.read (s.inAddr j)) ∧
      v.hdrWidth = t.hdrWidth ∧ v.hdrCount = t.hdrCount ∧ v.lastWidth = t.lastWidth ∧ v.dictNext = t.dictNext

/-- 42_regular.md section 2 and 43_improved.md section 3: an empty input compresses to the 5-byte header alone. -/
def Obligations.EmptyInputGivesHeaderAlone : Prop :=
  ∀ s : State, s.mem.wf = true → s.engine.inLen = 0#32 →
    (s.outCapacity < 5 →
      (∃ t, exec .compressRegular s = .next t ∧ endedError t .outOverflow 5) ∧
      ∃ t, exec .compressImproved s = .next t ∧ endedError t .outOverflow 5) ∧
    (5 ≤ s.outCapacity → s.outputWritable 5 →
      (∃ t, exec .compressRegular s = .next t ∧ endedOk s t [0x80, 0x00, 0x00, 0x00, 0x00] 8 0 0 256) ∧
      ∃ t, exec .compressImproved s = .next t ∧ endedOk s t [0x90, 0x00, 0x00, 0x00, 0x00] 9 0 0 256)

/-! ## The host program -/

/-- 30_encoding.md section 3: on the host's turn the bytes of the program's MEM lines are stored before the program runs, wherever
the lines stand; then what one line of the program does, a MEM line being passed over. A field is bits hi down to lo of the value
read (00_scope.md R11). Labels as numbers, the first of two lines
with one label, the fault at a label no line has, and the host's position are log 7; the MEM lines' stores as one step in the
program's order, the fault at a store past 2^32, and the store line log 25; their effect whatever MEM_OK says log 15; the last read
value log 20; the schedule log 5. -/
def Obligations.HostProgramLines : Prop :=
  ∀ s : State, s.turn = .host →
    let here := s.host.program[s.host.line]?
    let at_ := fun (n : Nat) (r : Word) => { s.host with line := n, lastRead := r }
    let next_ := s.host.line + 1
    let field := fun (f : BitField) (r : Reg) => (readOffset r.offset s).toNat / 2 ^ f.lo % 2 ^ (f.hi + 1 - f.lo)
    (s.host.memLoaded = false → s.busy = false →
      ((∀ a bs, HostOp.mem a bs ∈ s.host.program → a.toNat + bs.length ≤ 2 ^ 32) →
        step s = .next
          { s with
            schedule := s.schedule.tail
            mem := s.host.program.foldl
              (fun (m : Memory) op => match op with | .mem a bs => m.writeAll a.toNat bs | _ => m) s.mem
            host := { s.host with memLoaded := true } }) ∧
      ((∃ a bs, HostOp.mem a bs ∈ s.host.program ∧ 2 ^ 32 < a.toNat + bs.length) →
        step s = .fault (.noSuchAddress (2 ^ 32)))) ∧
    (s.host.memLoaded = true →
      (∀ r v, here = some (.wrReg r v) →
        step s = .next (advanceLine (writeOffset r.offset v { s with schedule := s.schedule.tail }))) ∧
      (∀ r, here = some (.rdReg r) →
        step s = .next { s with schedule := s.schedule.tail, host := at_ next_ (readOffset r.offset s) }) ∧
      (∀ (r : Reg) f v, here = some (.poll r.offset f v) →
        step s = .next
          { s with
            schedule := s.schedule.tail
            host := at_ (if field f r = v.toNat then next_ else s.host.line)
              (readOffset r.offset s) }) ∧
      (∀ (r : Reg) f v l, here = some (.ifne r.offset f v l) →
        (field f r = v.toNat →
          step s = .next { s with schedule := s.schedule.tail, host := at_ next_ (readOffset r.offset s) }) ∧
        (field f r ≠ v.toNat →
          (∀ n, s.host.program[n]? = some (.label l) → (∀ m < n, s.host.program[m]? ≠ some (.label l)) →
            step s = .next { s with schedule := s.schedule.tail, host := at_ n (readOffset r.offset s) }) ∧
          (HostOp.label l ∉ s.host.program → step s = .fault (.undefinedLabel l)))) ∧
      (∀ l, here = some (.label l) →
        step s = .next { s with schedule := s.schedule.tail, host := at_ next_ s.host.lastRead }) ∧
      (∀ a bs, here = some (.mem a bs) →
        step s = .next { s with schedule := s.schedule.tail, host := at_ next_ s.host.lastRead }) ∧
      (∀ a bs, here = some (.store a bs) → s.busy = false →
        step s =
          if a.toNat + bs.length ≤ 2 ^ 32 then
            .next
              { s with
                schedule := s.schedule.tail, mem := s.mem.writeAll a.toNat bs, host := at_ next_ s.host.lastRead }
          else .fault (.noSuchAddress (2 ^ 32))) ∧
    (here = some .stop ∨ here = none → step s = .next { s with schedule := s.schedule.tail }))
end

