-- ==== Sys2Proof/Laws/State.lean ====
section
/-! SUPPORT. What each update of the state does to each field, true by definition: no later proof unfolds a record update. -/

namespace Sys2Proof.Machine

variable (s : State)

/-! ### popSlot -/

@[simp] theorem popSlot_cmd : (popSlot s).cmd = s.cmd := rfl
@[simp] theorem popSlot_done : (popSlot s).done = s.done := rfl
@[simp] theorem popSlot_ignoredWrite : (popSlot s).ignoredWrite = s.ignoredWrite := rfl
@[simp] theorem popSlot_result : (popSlot s).result = s.result := rfl
@[simp] theorem popSlot_doneIe : (popSlot s).doneIe = s.doneIe := rfl
@[simp] theorem popSlot_inBase : (popSlot s).inBase = s.inBase := rfl
@[simp] theorem popSlot_inLen : (popSlot s).inLen = s.inLen := rfl
@[simp] theorem popSlot_outBase : (popSlot s).outBase = s.outBase := rfl
@[simp] theorem popSlot_outCap : (popSlot s).outCap = s.outCap := rfl
@[simp] theorem popSlot_outLen : (popSlot s).outLen = s.outLen := rfl
@[simp] theorem popSlot_hdrWidth : (popSlot s).hdrWidth = s.hdrWidth := rfl
@[simp] theorem popSlot_hdrCount : (popSlot s).hdrCount = s.hdrCount := rfl
@[simp] theorem popSlot_lastWidth : (popSlot s).lastWidth = s.lastWidth := rfl
@[simp] theorem popSlot_dictNext : (popSlot s).dictNext = s.dictNext := rfl
@[simp] theorem popSlot_errInfo : (popSlot s).errInfo = s.errInfo := rfl
@[simp] theorem popSlot_engine : (popSlot s).engine = s.engine := rfl
@[simp] theorem popSlot_mem : (popSlot s).mem = s.mem := rfl
@[simp] theorem popSlot_platform : (popSlot s).platform = s.platform := rfl
@[simp] theorem popSlot_host : (popSlot s).host = s.host := rfl
@[simp] theorem popSlot_schedule : (popSlot s).schedule = s.schedule.tail := rfl
@[simp] theorem popSlot_freeSerial : (popSlot s).freeSerial = s.freeSerial := rfl

/-! ### advanceLine -/

@[simp] theorem advanceLine_cmd : (advanceLine s).cmd = s.cmd := rfl
@[simp] theorem advanceLine_done : (advanceLine s).done = s.done := rfl
@[simp] theorem advanceLine_ignoredWrite : (advanceLine s).ignoredWrite = s.ignoredWrite := rfl
@[simp] theorem advanceLine_result : (advanceLine s).result = s.result := rfl
@[simp] theorem advanceLine_doneIe : (advanceLine s).doneIe = s.doneIe := rfl
@[simp] theorem advanceLine_inBase : (advanceLine s).inBase = s.inBase := rfl
@[simp] theorem advanceLine_inLen : (advanceLine s).inLen = s.inLen := rfl
@[simp] theorem advanceLine_outBase : (advanceLine s).outBase = s.outBase := rfl
@[simp] theorem advanceLine_outCap : (advanceLine s).outCap = s.outCap := rfl
@[simp] theorem advanceLine_outLen : (advanceLine s).outLen = s.outLen := rfl
@[simp] theorem advanceLine_hdrWidth : (advanceLine s).hdrWidth = s.hdrWidth := rfl
@[simp] theorem advanceLine_hdrCount : (advanceLine s).hdrCount = s.hdrCount := rfl
@[simp] theorem advanceLine_lastWidth : (advanceLine s).lastWidth = s.lastWidth := rfl
@[simp] theorem advanceLine_dictNext : (advanceLine s).dictNext = s.dictNext := rfl
@[simp] theorem advanceLine_errInfo : (advanceLine s).errInfo = s.errInfo := rfl
@[simp] theorem advanceLine_engine : (advanceLine s).engine = s.engine := rfl
@[simp] theorem advanceLine_mem : (advanceLine s).mem = s.mem := rfl
@[simp] theorem advanceLine_platform : (advanceLine s).platform = s.platform := rfl
@[simp] theorem advanceLine_host : (advanceLine s).host = { s.host with line := s.host.line + 1 } := rfl
@[simp] theorem advanceLine_schedule : (advanceLine s).schedule = s.schedule := rfl
@[simp] theorem advanceLine_freeSerial : (advanceLine s).freeSerial = s.freeSerial := rfl

/-! ### gotoLine -/

@[simp] theorem gotoLine_cmd (n : Nat) : (gotoLine n s).cmd = s.cmd := rfl
@[simp] theorem gotoLine_done (n : Nat) : (gotoLine n s).done = s.done := rfl
@[simp] theorem gotoLine_ignoredWrite (n : Nat) : (gotoLine n s).ignoredWrite = s.ignoredWrite := rfl
@[simp] theorem gotoLine_result (n : Nat) : (gotoLine n s).result = s.result := rfl
@[simp] theorem gotoLine_doneIe (n : Nat) : (gotoLine n s).doneIe = s.doneIe := rfl
@[simp] theorem gotoLine_inBase (n : Nat) : (gotoLine n s).inBase = s.inBase := rfl
@[simp] theorem gotoLine_inLen (n : Nat) : (gotoLine n s).inLen = s.inLen := rfl
@[simp] theorem gotoLine_outBase (n : Nat) : (gotoLine n s).outBase = s.outBase := rfl
@[simp] theorem gotoLine_outCap (n : Nat) : (gotoLine n s).outCap = s.outCap := rfl
@[simp] theorem gotoLine_outLen (n : Nat) : (gotoLine n s).outLen = s.outLen := rfl
@[simp] theorem gotoLine_hdrWidth (n : Nat) : (gotoLine n s).hdrWidth = s.hdrWidth := rfl
@[simp] theorem gotoLine_hdrCount (n : Nat) : (gotoLine n s).hdrCount = s.hdrCount := rfl
@[simp] theorem gotoLine_lastWidth (n : Nat) : (gotoLine n s).lastWidth = s.lastWidth := rfl
@[simp] theorem gotoLine_dictNext (n : Nat) : (gotoLine n s).dictNext = s.dictNext := rfl
@[simp] theorem gotoLine_errInfo (n : Nat) : (gotoLine n s).errInfo = s.errInfo := rfl
@[simp] theorem gotoLine_engine (n : Nat) : (gotoLine n s).engine = s.engine := rfl
@[simp] theorem gotoLine_mem (n : Nat) : (gotoLine n s).mem = s.mem := rfl
@[simp] theorem gotoLine_platform (n : Nat) : (gotoLine n s).platform = s.platform := rfl
@[simp] theorem gotoLine_host (n : Nat) : (gotoLine n s).host = { s.host with line := n } := rfl
@[simp] theorem gotoLine_schedule (n : Nat) : (gotoLine n s).schedule = s.schedule := rfl
@[simp] theorem gotoLine_freeSerial (n : Nat) : (gotoLine n s).freeSerial = s.freeSerial := rfl

/-! ### returnRead -/

@[simp] theorem returnRead_cmd (v : Word) : (returnRead v s).cmd = s.cmd := rfl
@[simp] theorem returnRead_done (v : Word) : (returnRead v s).done = s.done := rfl
@[simp] theorem returnRead_ignoredWrite (v : Word) : (returnRead v s).ignoredWrite = s.ignoredWrite := rfl
@[simp] theorem returnRead_result (v : Word) : (returnRead v s).result = s.result := rfl
@[simp] theorem returnRead_doneIe (v : Word) : (returnRead v s).doneIe = s.doneIe := rfl
@[simp] theorem returnRead_inBase (v : Word) : (returnRead v s).inBase = s.inBase := rfl
@[simp] theorem returnRead_inLen (v : Word) : (returnRead v s).inLen = s.inLen := rfl
@[simp] theorem returnRead_outBase (v : Word) : (returnRead v s).outBase = s.outBase := rfl
@[simp] theorem returnRead_outCap (v : Word) : (returnRead v s).outCap = s.outCap := rfl
@[simp] theorem returnRead_outLen (v : Word) : (returnRead v s).outLen = s.outLen := rfl
@[simp] theorem returnRead_hdrWidth (v : Word) : (returnRead v s).hdrWidth = s.hdrWidth := rfl
@[simp] theorem returnRead_hdrCount (v : Word) : (returnRead v s).hdrCount = s.hdrCount := rfl
@[simp] theorem returnRead_lastWidth (v : Word) : (returnRead v s).lastWidth = s.lastWidth := rfl
@[simp] theorem returnRead_dictNext (v : Word) : (returnRead v s).dictNext = s.dictNext := rfl
@[simp] theorem returnRead_errInfo (v : Word) : (returnRead v s).errInfo = s.errInfo := rfl
@[simp] theorem returnRead_engine (v : Word) : (returnRead v s).engine = s.engine := rfl
@[simp] theorem returnRead_mem (v : Word) : (returnRead v s).mem = s.mem := rfl
@[simp] theorem returnRead_platform (v : Word) : (returnRead v s).platform = s.platform := rfl
@[simp] theorem returnRead_host (v : Word) : (returnRead v s).host = { s.host with lastRead := v } := rfl
@[simp] theorem returnRead_schedule (v : Word) : (returnRead v s).schedule = s.schedule := rfl
@[simp] theorem returnRead_freeSerial (v : Word) : (returnRead v s).freeSerial = s.freeSerial := rfl

/-! ### beginProgram -/

@[simp] theorem beginProgram_cmd : (beginProgram s).cmd = s.cmd := rfl
@[simp] theorem beginProgram_done : (beginProgram s).done = s.done := rfl
@[simp] theorem beginProgram_ignoredWrite : (beginProgram s).ignoredWrite = s.ignoredWrite := rfl
@[simp] theorem beginProgram_result : (beginProgram s).result = s.result := rfl
@[simp] theorem beginProgram_doneIe : (beginProgram s).doneIe = s.doneIe := rfl
@[simp] theorem beginProgram_inBase : (beginProgram s).inBase = s.inBase := rfl
@[simp] theorem beginProgram_inLen : (beginProgram s).inLen = s.inLen := rfl
@[simp] theorem beginProgram_outBase : (beginProgram s).outBase = s.outBase := rfl
@[simp] theorem beginProgram_outCap : (beginProgram s).outCap = s.outCap := rfl
@[simp] theorem beginProgram_outLen : (beginProgram s).outLen = s.outLen := rfl
@[simp] theorem beginProgram_hdrWidth : (beginProgram s).hdrWidth = s.hdrWidth := rfl
@[simp] theorem beginProgram_hdrCount : (beginProgram s).hdrCount = s.hdrCount := rfl
@[simp] theorem beginProgram_lastWidth : (beginProgram s).lastWidth = s.lastWidth := rfl
@[simp] theorem beginProgram_dictNext : (beginProgram s).dictNext = s.dictNext := rfl
@[simp] theorem beginProgram_errInfo : (beginProgram s).errInfo = s.errInfo := rfl
@[simp] theorem beginProgram_engine : (beginProgram s).engine = s.engine := rfl
@[simp] theorem beginProgram_platform : (beginProgram s).platform = s.platform := rfl
@[simp] theorem beginProgram_schedule : (beginProgram s).schedule = s.schedule := rfl
@[simp] theorem beginProgram_freeSerial : (beginProgram s).freeSerial = s.freeSerial := rfl
@[simp] theorem beginProgram_mem : (beginProgram s).mem = storeLines s.mem s.host.memLines := rfl
@[simp] theorem beginProgram_host : (beginProgram s).host = { s.host with memLoaded := true } := rfl

/-! ### storeBytes -/

@[simp] theorem storeBytes_cmd (a : Nat) (bs : List Byte) : (storeBytes a bs s).cmd = s.cmd := rfl
@[simp] theorem storeBytes_done (a : Nat) (bs : List Byte) : (storeBytes a bs s).done = s.done := rfl
@[simp] theorem storeBytes_ignoredWrite (a : Nat) (bs : List Byte) :
    (storeBytes a bs s).ignoredWrite = s.ignoredWrite := rfl
@[simp] theorem storeBytes_result (a : Nat) (bs : List Byte) : (storeBytes a bs s).result = s.result := rfl
@[simp] theorem storeBytes_doneIe (a : Nat) (bs : List Byte) : (storeBytes a bs s).doneIe = s.doneIe := rfl
@[simp] theorem storeBytes_inBase (a : Nat) (bs : List Byte) : (storeBytes a bs s).inBase = s.inBase := rfl
@[simp] theorem storeBytes_inLen (a : Nat) (bs : List Byte) : (storeBytes a bs s).inLen = s.inLen := rfl
@[simp] theorem storeBytes_outBase (a : Nat) (bs : List Byte) : (storeBytes a bs s).outBase = s.outBase := rfl
@[simp] theorem storeBytes_outCap (a : Nat) (bs : List Byte) : (storeBytes a bs s).outCap = s.outCap := rfl
@[simp] theorem storeBytes_outLen (a : Nat) (bs : List Byte) : (storeBytes a bs s).outLen = s.outLen := rfl
@[simp] theorem storeBytes_hdrWidth (a : Nat) (bs : List Byte) : (storeBytes a bs s).hdrWidth = s.hdrWidth := rfl
@[simp] theorem storeBytes_hdrCount (a : Nat) (bs : List Byte) : (storeBytes a bs s).hdrCount = s.hdrCount := rfl
@[simp] theorem storeBytes_lastWidth (a : Nat) (bs : List Byte) : (storeBytes a bs s).lastWidth = s.lastWidth := rfl
@[simp] theorem storeBytes_dictNext (a : Nat) (bs : List Byte) : (storeBytes a bs s).dictNext = s.dictNext := rfl
@[simp] theorem storeBytes_errInfo (a : Nat) (bs : List Byte) : (storeBytes a bs s).errInfo = s.errInfo := rfl
@[simp] theorem storeBytes_engine (a : Nat) (bs : List Byte) : (storeBytes a bs s).engine = s.engine := rfl
@[simp] theorem storeBytes_mem (a : Nat) (bs : List Byte) : (storeBytes a bs s).mem = s.mem.writeAll a bs := rfl
@[simp] theorem storeBytes_platform (a : Nat) (bs : List Byte) : (storeBytes a bs s).platform = s.platform := rfl
@[simp] theorem storeBytes_host (a : Nat) (bs : List Byte) : (storeBytes a bs s).host = s.host := rfl
@[simp] theorem storeBytes_schedule (a : Nat) (bs : List Byte) : (storeBytes a bs s).schedule = s.schedule := rfl
@[simp] theorem storeBytes_freeSerial (a : Nat) (bs : List Byte) :
    (storeBytes a bs s).freeSerial = s.freeSerial := rfl

/-! ### noteIgnoredWrite -/

@[simp] theorem noteIgnoredWrite_cmd : (noteIgnoredWrite s).cmd = s.cmd := rfl
@[simp] theorem noteIgnoredWrite_done : (noteIgnoredWrite s).done = s.done := rfl
@[simp] theorem noteIgnoredWrite_ignoredWrite : (noteIgnoredWrite s).ignoredWrite = true := rfl
@[simp] theorem noteIgnoredWrite_result : (noteIgnoredWrite s).result = s.result := rfl
@[simp] theorem noteIgnoredWrite_doneIe : (noteIgnoredWrite s).doneIe = s.doneIe := rfl
@[simp] theorem noteIgnoredWrite_inBase : (noteIgnoredWrite s).inBase = s.inBase := rfl
@[simp] theorem noteIgnoredWrite_inLen : (noteIgnoredWrite s).inLen = s.inLen := rfl
@[simp] theorem noteIgnoredWrite_outBase : (noteIgnoredWrite s).outBase = s.outBase := rfl
@[simp] theorem noteIgnoredWrite_outCap : (noteIgnoredWrite s).outCap = s.outCap := rfl
@[simp] theorem noteIgnoredWrite_outLen : (noteIgnoredWrite s).outLen = s.outLen := rfl
@[simp] theorem noteIgnoredWrite_hdrWidth : (noteIgnoredWrite s).hdrWidth = s.hdrWidth := rfl
@[simp] theorem noteIgnoredWrite_hdrCount : (noteIgnoredWrite s).hdrCount = s.hdrCount := rfl
@[simp] theorem noteIgnoredWrite_lastWidth : (noteIgnoredWrite s).lastWidth = s.lastWidth := rfl
@[simp] theorem noteIgnoredWrite_dictNext : (noteIgnoredWrite s).dictNext = s.dictNext := rfl
@[simp] theorem noteIgnoredWrite_errInfo : (noteIgnoredWrite s).errInfo = s.errInfo := rfl
@[simp] theorem noteIgnoredWrite_engine : (noteIgnoredWrite s).engine = s.engine := rfl
@[simp] theorem noteIgnoredWrite_mem : (noteIgnoredWrite s).mem = s.mem := rfl
@[simp] theorem noteIgnoredWrite_platform : (noteIgnoredWrite s).platform = s.platform := rfl
@[simp] theorem noteIgnoredWrite_host : (noteIgnoredWrite s).host = s.host := rfl
@[simp] theorem noteIgnoredWrite_schedule : (noteIgnoredWrite s).schedule = s.schedule := rfl
@[simp] theorem noteIgnoredWrite_freeSerial : (noteIgnoredWrite s).freeSerial = s.freeSerial := rfl

/-! ### writeStatus -/

@[simp] theorem writeStatus_cmd (v : Word) : (writeStatus v s).cmd = s.cmd := rfl
@[simp] theorem writeStatus_done (v : Word) : (writeStatus v s).done = (s.done && !v.getLsbD 1) := rfl
@[simp] theorem writeStatus_ignoredWrite (v : Word) :
    (writeStatus v s).ignoredWrite = (s.ignoredWrite && !v.getLsbD 2) := rfl
@[simp] theorem writeStatus_result (v : Word) : (writeStatus v s).result = s.result := rfl
@[simp] theorem writeStatus_doneIe (v : Word) : (writeStatus v s).doneIe = s.doneIe := rfl
@[simp] theorem writeStatus_inBase (v : Word) : (writeStatus v s).inBase = s.inBase := rfl
@[simp] theorem writeStatus_inLen (v : Word) : (writeStatus v s).inLen = s.inLen := rfl
@[simp] theorem writeStatus_outBase (v : Word) : (writeStatus v s).outBase = s.outBase := rfl
@[simp] theorem writeStatus_outCap (v : Word) : (writeStatus v s).outCap = s.outCap := rfl
@[simp] theorem writeStatus_outLen (v : Word) : (writeStatus v s).outLen = s.outLen := rfl
@[simp] theorem writeStatus_hdrWidth (v : Word) : (writeStatus v s).hdrWidth = s.hdrWidth := rfl
@[simp] theorem writeStatus_hdrCount (v : Word) : (writeStatus v s).hdrCount = s.hdrCount := rfl
@[simp] theorem writeStatus_lastWidth (v : Word) : (writeStatus v s).lastWidth = s.lastWidth := rfl
@[simp] theorem writeStatus_dictNext (v : Word) : (writeStatus v s).dictNext = s.dictNext := rfl
@[simp] theorem writeStatus_errInfo (v : Word) : (writeStatus v s).errInfo = s.errInfo := rfl
@[simp] theorem writeStatus_engine (v : Word) : (writeStatus v s).engine = s.engine := rfl
@[simp] theorem writeStatus_mem (v : Word) : (writeStatus v s).mem = s.mem := rfl
@[simp] theorem writeStatus_platform (v : Word) : (writeStatus v s).platform = s.platform := rfl
@[simp] theorem writeStatus_host (v : Word) : (writeStatus v s).host = s.host := rfl
@[simp] theorem writeStatus_schedule (v : Word) : (writeStatus v s).schedule = s.schedule := rfl
@[simp] theorem writeStatus_freeSerial (v : Word) : (writeStatus v s).freeSerial = s.freeSerial := rfl

/-! ### writeIntEn -/

@[simp] theorem writeIntEn_cmd (v : Word) : (writeIntEn v s).cmd = s.cmd := rfl
@[simp] theorem writeIntEn_done (v : Word) : (writeIntEn v s).done = s.done := rfl
@[simp] theorem writeIntEn_ignoredWrite (v : Word) : (writeIntEn v s).ignoredWrite = s.ignoredWrite := rfl
@[simp] theorem writeIntEn_result (v : Word) : (writeIntEn v s).result = s.result := rfl
@[simp] theorem writeIntEn_doneIe (v : Word) : (writeIntEn v s).doneIe = v.getLsbD 0 := rfl
@[simp] theorem writeIntEn_inBase (v : Word) : (writeIntEn v s).inBase = s.inBase := rfl
@[simp] theorem writeIntEn_inLen (v : Word) : (writeIntEn v s).inLen = s.inLen := rfl
@[simp] theorem writeIntEn_outBase (v : Word) : (writeIntEn v s).outBase = s.outBase := rfl
@[simp] theorem writeIntEn_outCap (v : Word) : (writeIntEn v s).outCap = s.outCap := rfl
@[simp] theorem writeIntEn_outLen (v : Word) : (writeIntEn v s).outLen = s.outLen := rfl
@[simp] theorem writeIntEn_hdrWidth (v : Word) : (writeIntEn v s).hdrWidth = s.hdrWidth := rfl
@[simp] theorem writeIntEn_hdrCount (v : Word) : (writeIntEn v s).hdrCount = s.hdrCount := rfl
@[simp] theorem writeIntEn_lastWidth (v : Word) : (writeIntEn v s).lastWidth = s.lastWidth := rfl
@[simp] theorem writeIntEn_dictNext (v : Word) : (writeIntEn v s).dictNext = s.dictNext := rfl
@[simp] theorem writeIntEn_errInfo (v : Word) : (writeIntEn v s).errInfo = s.errInfo := rfl
@[simp] theorem writeIntEn_engine (v : Word) : (writeIntEn v s).engine = s.engine := rfl
@[simp] theorem writeIntEn_mem (v : Word) : (writeIntEn v s).mem = s.mem := rfl
@[simp] theorem writeIntEn_platform (v : Word) : (writeIntEn v s).platform = s.platform := rfl
@[simp] theorem writeIntEn_host (v : Word) : (writeIntEn v s).host = s.host := rfl
@[simp] theorem writeIntEn_schedule (v : Word) : (writeIntEn v s).schedule = s.schedule := rfl
@[simp] theorem writeIntEn_freeSerial (v : Word) : (writeIntEn v s).freeSerial = s.freeSerial := rfl

/-! ### setInBase -/

@[simp] theorem setInBase_cmd (v : Word) : (setInBase v s).cmd = s.cmd := rfl
@[simp] theorem setInBase_done (v : Word) : (setInBase v s).done = s.done := rfl
@[simp] theorem setInBase_ignoredWrite (v : Word) : (setInBase v s).ignoredWrite = s.ignoredWrite := rfl
@[simp] theorem setInBase_result (v : Word) : (setInBase v s).result = s.result := rfl
@[simp] theorem setInBase_doneIe (v : Word) : (setInBase v s).doneIe = s.doneIe := rfl
@[simp] theorem setInBase_inBase (v : Word) : (setInBase v s).inBase = v := rfl
@[simp] theorem setInBase_inLen (v : Word) : (setInBase v s).inLen = s.inLen := rfl
@[simp] theorem setInBase_outBase (v : Word) : (setInBase v s).outBase = s.outBase := rfl
@[simp] theorem setInBase_outCap (v : Word) : (setInBase v s).outCap = s.outCap := rfl
@[simp] theorem setInBase_outLen (v : Word) : (setInBase v s).outLen = s.outLen := rfl
@[simp] theorem setInBase_hdrWidth (v : Word) : (setInBase v s).hdrWidth = s.hdrWidth := rfl
@[simp] theorem setInBase_hdrCount (v : Word) : (setInBase v s).hdrCount = s.hdrCount := rfl
@[simp] theorem setInBase_lastWidth (v : Word) : (setInBase v s).lastWidth = s.lastWidth := rfl
@[simp] theorem setInBase_dictNext (v : Word) : (setInBase v s).dictNext = s.dictNext := rfl
@[simp] theorem setInBase_errInfo (v : Word) : (setInBase v s).errInfo = s.errInfo := rfl
@[simp] theorem setInBase_engine (v : Word) : (setInBase v s).engine = s.engine := rfl
@[simp] theorem setInBase_mem (v : Word) : (setInBase v s).mem = s.mem := rfl
@[simp] theorem setInBase_platform (v : Word) : (setInBase v s).platform = s.platform := rfl
@[simp] theorem setInBase_host (v : Word) : (setInBase v s).host = s.host := rfl
@[simp] theorem setInBase_schedule (v : Word) : (setInBase v s).schedule = s.schedule := rfl
@[simp] theorem setInBase_freeSerial (v : Word) : (setInBase v s).freeSerial = s.freeSerial := rfl

/-! ### setInLen -/

@[simp] theorem setInLen_cmd (v : Word) : (setInLen v s).cmd = s.cmd := rfl
@[simp] theorem setInLen_done (v : Word) : (setInLen v s).done = s.done := rfl
@[simp] theorem setInLen_ignoredWrite (v : Word) : (setInLen v s).ignoredWrite = s.ignoredWrite := rfl
@[simp] theorem setInLen_result (v : Word) : (setInLen v s).result = s.result := rfl
@[simp] theorem setInLen_doneIe (v : Word) : (setInLen v s).doneIe = s.doneIe := rfl
@[simp] theorem setInLen_inBase (v : Word) : (setInLen v s).inBase = s.inBase := rfl
@[simp] theorem setInLen_inLen (v : Word) : (setInLen v s).inLen = v := rfl
@[simp] theorem setInLen_outBase (v : Word) : (setInLen v s).outBase = s.outBase := rfl
@[simp] theorem setInLen_outCap (v : Word) : (setInLen v s).outCap = s.outCap := rfl
@[simp] theorem setInLen_outLen (v : Word) : (setInLen v s).outLen = s.outLen := rfl
@[simp] theorem setInLen_hdrWidth (v : Word) : (setInLen v s).hdrWidth = s.hdrWidth := rfl
@[simp] theorem setInLen_hdrCount (v : Word) : (setInLen v s).hdrCount = s.hdrCount := rfl
@[simp] theorem setInLen_lastWidth (v : Word) : (setInLen v s).lastWidth = s.lastWidth := rfl
@[simp] theorem setInLen_dictNext (v : Word) : (setInLen v s).dictNext = s.dictNext := rfl
@[simp] theorem setInLen_errInfo (v : Word) : (setInLen v s).errInfo = s.errInfo := rfl
@[simp] theorem setInLen_engine (v : Word) : (setInLen v s).engine = s.engine := rfl
@[simp] theorem setInLen_mem (v : Word) : (setInLen v s).mem = s.mem := rfl
@[simp] theorem setInLen_platform (v : Word) : (setInLen v s).platform = s.platform := rfl
@[simp] theorem setInLen_host (v : Word) : (setInLen v s).host = s.host := rfl
@[simp] theorem setInLen_schedule (v : Word) : (setInLen v s).schedule = s.schedule := rfl
@[simp] theorem setInLen_freeSerial (v : Word) : (setInLen v s).freeSerial = s.freeSerial := rfl

/-! ### setOutBase -/

@[simp] theorem setOutBase_cmd (v : Word) : (setOutBase v s).cmd = s.cmd := rfl
@[simp] theorem setOutBase_done (v : Word) : (setOutBase v s).done = s.done := rfl
@[simp] theorem setOutBase_ignoredWrite (v : Word) : (setOutBase v s).ignoredWrite = s.ignoredWrite := rfl
@[simp] theorem setOutBase_result (v : Word) : (setOutBase v s).result = s.result := rfl
@[simp] theorem setOutBase_doneIe (v : Word) : (setOutBase v s).doneIe = s.doneIe := rfl
@[simp] theorem setOutBase_inBase (v : Word) : (setOutBase v s).inBase = s.inBase := rfl
@[simp] theorem setOutBase_inLen (v : Word) : (setOutBase v s).inLen = s.inLen := rfl
@[simp] theorem setOutBase_outBase (v : Word) : (setOutBase v s).outBase = v := rfl
@[simp] theorem setOutBase_outCap (v : Word) : (setOutBase v s).outCap = s.outCap := rfl
@[simp] theorem setOutBase_outLen (v : Word) : (setOutBase v s).outLen = s.outLen := rfl
@[simp] theorem setOutBase_hdrWidth (v : Word) : (setOutBase v s).hdrWidth = s.hdrWidth := rfl
@[simp] theorem setOutBase_hdrCount (v : Word) : (setOutBase v s).hdrCount = s.hdrCount := rfl
@[simp] theorem setOutBase_lastWidth (v : Word) : (setOutBase v s).lastWidth = s.lastWidth := rfl
@[simp] theorem setOutBase_dictNext (v : Word) : (setOutBase v s).dictNext = s.dictNext := rfl
@[simp] theorem setOutBase_errInfo (v : Word) : (setOutBase v s).errInfo = s.errInfo := rfl
@[simp] theorem setOutBase_engine (v : Word) : (setOutBase v s).engine = s.engine := rfl
@[simp] theorem setOutBase_mem (v : Word) : (setOutBase v s).mem = s.mem := rfl
@[simp] theorem setOutBase_platform (v : Word) : (setOutBase v s).platform = s.platform := rfl
@[simp] theorem setOutBase_host (v : Word) : (setOutBase v s).host = s.host := rfl
@[simp] theorem setOutBase_schedule (v : Word) : (setOutBase v s).schedule = s.schedule := rfl
@[simp] theorem setOutBase_freeSerial (v : Word) : (setOutBase v s).freeSerial = s.freeSerial := rfl

/-! ### setOutCap -/

@[simp] theorem setOutCap_cmd (v : Word) : (setOutCap v s).cmd = s.cmd := rfl
@[simp] theorem setOutCap_done (v : Word) : (setOutCap v s).done = s.done := rfl
@[simp] theorem setOutCap_ignoredWrite (v : Word) : (setOutCap v s).ignoredWrite = s.ignoredWrite := rfl
@[simp] theorem setOutCap_result (v : Word) : (setOutCap v s).result = s.result := rfl
@[simp] theorem setOutCap_doneIe (v : Word) : (setOutCap v s).doneIe = s.doneIe := rfl
@[simp] theorem setOutCap_inBase (v : Word) : (setOutCap v s).inBase = s.inBase := rfl
@[simp] theorem setOutCap_inLen (v : Word) : (setOutCap v s).inLen = s.inLen := rfl
@[simp] theorem setOutCap_outBase (v : Word) : (setOutCap v s).outBase = s.outBase := rfl
@[simp] theorem setOutCap_outCap (v : Word) : (setOutCap v s).outCap = v := rfl
@[simp] theorem setOutCap_outLen (v : Word) : (setOutCap v s).outLen = s.outLen := rfl
@[simp] theorem setOutCap_hdrWidth (v : Word) : (setOutCap v s).hdrWidth = s.hdrWidth := rfl
@[simp] theorem setOutCap_hdrCount (v : Word) : (setOutCap v s).hdrCount = s.hdrCount := rfl
@[simp] theorem setOutCap_lastWidth (v : Word) : (setOutCap v s).lastWidth = s.lastWidth := rfl
@[simp] theorem setOutCap_dictNext (v : Word) : (setOutCap v s).dictNext = s.dictNext := rfl
@[simp] theorem setOutCap_errInfo (v : Word) : (setOutCap v s).errInfo = s.errInfo := rfl
@[simp] theorem setOutCap_engine (v : Word) : (setOutCap v s).engine = s.engine := rfl
@[simp] theorem setOutCap_mem (v : Word) : (setOutCap v s).mem = s.mem := rfl
@[simp] theorem setOutCap_platform (v : Word) : (setOutCap v s).platform = s.platform := rfl
@[simp] theorem setOutCap_host (v : Word) : (setOutCap v s).host = s.host := rfl
@[simp] theorem setOutCap_schedule (v : Word) : (setOutCap v s).schedule = s.schedule := rfl
@[simp] theorem setOutCap_freeSerial (v : Word) : (setOutCap v s).freeSerial = s.freeSerial := rfl

/-! ### latchCmd -/

@[simp] theorem latchCmd_cmd (v : Word) : (latchCmd v s).cmd = v := rfl
@[simp] theorem latchCmd_done (v : Word) : (latchCmd v s).done = false := rfl
@[simp] theorem latchCmd_ignoredWrite (v : Word) : (latchCmd v s).ignoredWrite = s.ignoredWrite := rfl
@[simp] theorem latchCmd_result (v : Word) : (latchCmd v s).result = .ok := rfl
@[simp] theorem latchCmd_doneIe (v : Word) : (latchCmd v s).doneIe = s.doneIe := rfl
@[simp] theorem latchCmd_inBase (v : Word) : (latchCmd v s).inBase = s.inBase := rfl
@[simp] theorem latchCmd_inLen (v : Word) : (latchCmd v s).inLen = s.inLen := rfl
@[simp] theorem latchCmd_outBase (v : Word) : (latchCmd v s).outBase = s.outBase := rfl
@[simp] theorem latchCmd_outCap (v : Word) : (latchCmd v s).outCap = s.outCap := rfl
@[simp] theorem latchCmd_outLen (v : Word) : (latchCmd v s).outLen = 0#32 := rfl
@[simp] theorem latchCmd_hdrWidth (v : Word) : (latchCmd v s).hdrWidth = 0#5 := rfl
@[simp] theorem latchCmd_hdrCount (v : Word) : (latchCmd v s).hdrCount = 0#32 := rfl
@[simp] theorem latchCmd_lastWidth (v : Word) : (latchCmd v s).lastWidth = 0#6 := rfl
@[simp] theorem latchCmd_dictNext (v : Word) : (latchCmd v s).dictNext = 0#32 := rfl
@[simp] theorem latchCmd_errInfo (v : Word) : (latchCmd v s).errInfo = 0#32 := rfl
@[simp] theorem latchCmd_engine (v : Word) : (latchCmd v s).engine = s.engine := rfl
@[simp] theorem latchCmd_mem (v : Word) : (latchCmd v s).mem = s.mem := rfl
@[simp] theorem latchCmd_platform (v : Word) : (latchCmd v s).platform = s.platform := rfl
@[simp] theorem latchCmd_host (v : Word) : (latchCmd v s).host = s.host := rfl
@[simp] theorem latchCmd_schedule (v : Word) : (latchCmd v s).schedule = s.schedule := rfl
@[simp] theorem latchCmd_freeSerial (v : Word) : (latchCmd v s).freeSerial = s.freeSerial := rfl

/-! ### accept -/

@[simp] theorem accept_cmd (v : Word) : (accept v s).cmd = s.cmd := rfl
@[simp] theorem accept_done (v : Word) : (accept v s).done = s.done := rfl
@[simp] theorem accept_ignoredWrite (v : Word) : (accept v s).ignoredWrite = s.ignoredWrite := rfl
@[simp] theorem accept_result (v : Word) : (accept v s).result = s.result := rfl
@[simp] theorem accept_doneIe (v : Word) : (accept v s).doneIe = s.doneIe := rfl
@[simp] theorem accept_inBase (v : Word) : (accept v s).inBase = s.inBase := rfl
@[simp] theorem accept_inLen (v : Word) : (accept v s).inLen = s.inLen := rfl
@[simp] theorem accept_outBase (v : Word) : (accept v s).outBase = s.outBase := rfl
@[simp] theorem accept_outCap (v : Word) : (accept v s).outCap = s.outCap := rfl
@[simp] theorem accept_outLen (v : Word) : (accept v s).outLen = s.outLen := rfl
@[simp] theorem accept_hdrWidth (v : Word) : (accept v s).hdrWidth = s.hdrWidth := rfl
@[simp] theorem accept_hdrCount (v : Word) : (accept v s).hdrCount = s.hdrCount := rfl
@[simp] theorem accept_lastWidth (v : Word) : (accept v s).lastWidth = s.lastWidth := rfl
@[simp] theorem accept_dictNext (v : Word) : (accept v s).dictNext = s.dictNext := rfl
@[simp] theorem accept_errInfo (v : Word) : (accept v s).errInfo = s.errInfo := rfl
@[simp] theorem accept_engine (v : Word) :
    (accept v s).engine = { phase := .run, op := opField v, inBase := s.inBase, inLen := s.inLen, outBase := s.outBase, outCap := s.outCap, scratch := s.engine.scratch } := rfl
@[simp] theorem accept_mem (v : Word) : (accept v s).mem = s.mem := rfl
@[simp] theorem accept_platform (v : Word) : (accept v s).platform = s.platform := rfl
@[simp] theorem accept_host (v : Word) : (accept v s).host = s.host := rfl
@[simp] theorem accept_schedule (v : Word) : (accept v s).schedule = s.schedule := rfl
@[simp] theorem accept_freeSerial (v : Word) : (accept v s).freeSerial = s.freeSerial := rfl

/-! ### setErrorRegs -/

@[simp] theorem setErrorRegs_cmd (k : ResultCode) (v : Word) : (setErrorRegs k v s).cmd = s.cmd := rfl
@[simp] theorem setErrorRegs_done (k : ResultCode) (v : Word) : (setErrorRegs k v s).done = true := rfl
@[simp] theorem setErrorRegs_ignoredWrite (k : ResultCode) (v : Word) :
    (setErrorRegs k v s).ignoredWrite = s.ignoredWrite := rfl
@[simp] theorem setErrorRegs_result (k : ResultCode) (v : Word) : (setErrorRegs k v s).result = k := rfl
@[simp] theorem setErrorRegs_doneIe (k : ResultCode) (v : Word) : (setErrorRegs k v s).doneIe = s.doneIe := rfl
@[simp] theorem setErrorRegs_inBase (k : ResultCode) (v : Word) : (setErrorRegs k v s).inBase = s.inBase := rfl
@[simp] theorem setErrorRegs_inLen (k : ResultCode) (v : Word) : (setErrorRegs k v s).inLen = s.inLen := rfl
@[simp] theorem setErrorRegs_outBase (k : ResultCode) (v : Word) : (setErrorRegs k v s).outBase = s.outBase := rfl
@[simp] theorem setErrorRegs_outCap (k : ResultCode) (v : Word) : (setErrorRegs k v s).outCap = s.outCap := rfl
@[simp] theorem setErrorRegs_outLen (k : ResultCode) (v : Word) : (setErrorRegs k v s).outLen = 0#32 := rfl
@[simp] theorem setErrorRegs_hdrWidth (k : ResultCode) (v : Word) : (setErrorRegs k v s).hdrWidth = 0#5 := rfl
@[simp] theorem setErrorRegs_hdrCount (k : ResultCode) (v : Word) : (setErrorRegs k v s).hdrCount = 0#32 := rfl
@[simp] theorem setErrorRegs_lastWidth (k : ResultCode) (v : Word) : (setErrorRegs k v s).lastWidth = 0#6 := rfl
@[simp] theorem setErrorRegs_dictNext (k : ResultCode) (v : Word) : (setErrorRegs k v s).dictNext = 0#32 := rfl
@[simp] theorem setErrorRegs_errInfo (k : ResultCode) (v : Word) : (setErrorRegs k v s).errInfo = v := rfl
@[simp] theorem setErrorRegs_engine (k : ResultCode) (v : Word) : (setErrorRegs k v s).engine = s.engine := rfl
@[simp] theorem setErrorRegs_mem (k : ResultCode) (v : Word) : (setErrorRegs k v s).mem = s.mem := rfl
@[simp] theorem setErrorRegs_platform (k : ResultCode) (v : Word) : (setErrorRegs k v s).platform = s.platform := rfl
@[simp] theorem setErrorRegs_host (k : ResultCode) (v : Word) : (setErrorRegs k v s).host = s.host := rfl
@[simp] theorem setErrorRegs_schedule (k : ResultCode) (v : Word) : (setErrorRegs k v s).schedule = s.schedule := rfl
@[simp] theorem setErrorRegs_freeSerial (k : ResultCode) (v : Word) :
    (setErrorRegs k v s).freeSerial = s.freeSerial := rfl

/-! ### setOkRegs -/

@[simp] theorem setOkRegs_cmd (c : Completion) : (setOkRegs c s).cmd = s.cmd := rfl
@[simp] theorem setOkRegs_done (c : Completion) : (setOkRegs c s).done = true := rfl
@[simp] theorem setOkRegs_ignoredWrite (c : Completion) : (setOkRegs c s).ignoredWrite = s.ignoredWrite := rfl
@[simp] theorem setOkRegs_result (c : Completion) : (setOkRegs c s).result = .ok := rfl
@[simp] theorem setOkRegs_doneIe (c : Completion) : (setOkRegs c s).doneIe = s.doneIe := rfl
@[simp] theorem setOkRegs_inBase (c : Completion) : (setOkRegs c s).inBase = s.inBase := rfl
@[simp] theorem setOkRegs_inLen (c : Completion) : (setOkRegs c s).inLen = s.inLen := rfl
@[simp] theorem setOkRegs_outBase (c : Completion) : (setOkRegs c s).outBase = s.outBase := rfl
@[simp] theorem setOkRegs_outCap (c : Completion) : (setOkRegs c s).outCap = s.outCap := rfl
@[simp] theorem setOkRegs_outLen (c : Completion) : (setOkRegs c s).outLen = BitVec.ofNat 32 c.out.length := rfl
@[simp] theorem setOkRegs_hdrWidth (c : Completion) : (setOkRegs c s).hdrWidth = BitVec.ofNat 5 c.hdrWidth := rfl
@[simp] theorem setOkRegs_hdrCount (c : Completion) : (setOkRegs c s).hdrCount = BitVec.ofNat 32 c.hdrCount := rfl
@[simp] theorem setOkRegs_lastWidth (c : Completion) : (setOkRegs c s).lastWidth = BitVec.ofNat 6 c.lastWidth := rfl
@[simp] theorem setOkRegs_dictNext (c : Completion) :
    (setOkRegs c s).dictNext = BitVec.ofNat 32 (saturate32 c.dictNext) := rfl
@[simp] theorem setOkRegs_errInfo (c : Completion) : (setOkRegs c s).errInfo = 0#32 := rfl
@[simp] theorem setOkRegs_engine (c : Completion) : (setOkRegs c s).engine = s.engine := rfl
@[simp] theorem setOkRegs_mem (c : Completion) : (setOkRegs c s).mem = s.mem := rfl
@[simp] theorem setOkRegs_platform (c : Completion) : (setOkRegs c s).platform = s.platform := rfl
@[simp] theorem setOkRegs_host (c : Completion) : (setOkRegs c s).host = s.host := rfl
@[simp] theorem setOkRegs_schedule (c : Completion) : (setOkRegs c s).schedule = s.schedule := rfl
@[simp] theorem setOkRegs_freeSerial (c : Completion) : (setOkRegs c s).freeSerial = s.freeSerial := rfl

/-! ### forgetOutput -/

@[simp] theorem forgetOutput_cmd : (forgetOutput s).cmd = s.cmd := rfl
@[simp] theorem forgetOutput_done : (forgetOutput s).done = s.done := rfl
@[simp] theorem forgetOutput_ignoredWrite : (forgetOutput s).ignoredWrite = s.ignoredWrite := rfl
@[simp] theorem forgetOutput_result : (forgetOutput s).result = s.result := rfl
@[simp] theorem forgetOutput_doneIe : (forgetOutput s).doneIe = s.doneIe := rfl
@[simp] theorem forgetOutput_inBase : (forgetOutput s).inBase = s.inBase := rfl
@[simp] theorem forgetOutput_inLen : (forgetOutput s).inLen = s.inLen := rfl
@[simp] theorem forgetOutput_outBase : (forgetOutput s).outBase = s.outBase := rfl
@[simp] theorem forgetOutput_outCap : (forgetOutput s).outCap = s.outCap := rfl
@[simp] theorem forgetOutput_outLen : (forgetOutput s).outLen = s.outLen := rfl
@[simp] theorem forgetOutput_hdrWidth : (forgetOutput s).hdrWidth = s.hdrWidth := rfl
@[simp] theorem forgetOutput_hdrCount : (forgetOutput s).hdrCount = s.hdrCount := rfl
@[simp] theorem forgetOutput_lastWidth : (forgetOutput s).lastWidth = s.lastWidth := rfl
@[simp] theorem forgetOutput_dictNext : (forgetOutput s).dictNext = s.dictNext := rfl
@[simp] theorem forgetOutput_errInfo : (forgetOutput s).errInfo = s.errInfo := rfl
@[simp] theorem forgetOutput_engine : (forgetOutput s).engine = s.engine := rfl
@[simp] theorem forgetOutput_mem :
    (forgetOutput s).mem = s.mem.forget s.freeSerial s.engine.outBase.toNat s.engine.outCap.toNat := rfl
@[simp] theorem forgetOutput_platform : (forgetOutput s).platform = s.platform := rfl
@[simp] theorem forgetOutput_host : (forgetOutput s).host = s.host := rfl
@[simp] theorem forgetOutput_schedule : (forgetOutput s).schedule = s.schedule := rfl
@[simp] theorem forgetOutput_freeSerial : (forgetOutput s).freeSerial = s.freeSerial := rfl

/-! ### discardScratch -/

@[simp] theorem discardScratch_cmd : (discardScratch s).cmd = s.cmd := rfl
@[simp] theorem discardScratch_done : (discardScratch s).done = s.done := rfl
@[simp] theorem discardScratch_ignoredWrite : (discardScratch s).ignoredWrite = s.ignoredWrite := rfl
@[simp] theorem discardScratch_result : (discardScratch s).result = s.result := rfl
@[simp] theorem discardScratch_doneIe : (discardScratch s).doneIe = s.doneIe := rfl
@[simp] theorem discardScratch_inBase : (discardScratch s).inBase = s.inBase := rfl
@[simp] theorem discardScratch_inLen : (discardScratch s).inLen = s.inLen := rfl
@[simp] theorem discardScratch_outBase : (discardScratch s).outBase = s.outBase := rfl
@[simp] theorem discardScratch_outCap : (discardScratch s).outCap = s.outCap := rfl
@[simp] theorem discardScratch_outLen : (discardScratch s).outLen = s.outLen := rfl
@[simp] theorem discardScratch_hdrWidth : (discardScratch s).hdrWidth = s.hdrWidth := rfl
@[simp] theorem discardScratch_hdrCount : (discardScratch s).hdrCount = s.hdrCount := rfl
@[simp] theorem discardScratch_lastWidth : (discardScratch s).lastWidth = s.lastWidth := rfl
@[simp] theorem discardScratch_dictNext : (discardScratch s).dictNext = s.dictNext := rfl
@[simp] theorem discardScratch_errInfo : (discardScratch s).errInfo = s.errInfo := rfl
@[simp] theorem discardScratch_engine :
    (discardScratch s).engine = { s.engine with phase := .idle, scratch := freeScratch s.freeSerial } := rfl
@[simp] theorem discardScratch_mem : (discardScratch s).mem = s.mem := rfl
@[simp] theorem discardScratch_platform : (discardScratch s).platform = s.platform := rfl
@[simp] theorem discardScratch_host : (discardScratch s).host = s.host := rfl
@[simp] theorem discardScratch_schedule : (discardScratch s).schedule = s.schedule := rfl
@[simp] theorem discardScratch_freeSerial : (discardScratch s).freeSerial = s.freeSerial + 1 := rfl

/-! ### raiseResult -/

@[simp] theorem raiseResult_cmd (r : Raise) : (raiseResult r s).cmd = s.cmd := rfl
@[simp] theorem raiseResult_done (r : Raise) : (raiseResult r s).done = true := rfl
@[simp] theorem raiseResult_ignoredWrite (r : Raise) : (raiseResult r s).ignoredWrite = s.ignoredWrite := rfl
@[simp] theorem raiseResult_result (r : Raise) : (raiseResult r s).result = r.code := rfl
@[simp] theorem raiseResult_doneIe (r : Raise) : (raiseResult r s).doneIe = s.doneIe := rfl
@[simp] theorem raiseResult_inBase (r : Raise) : (raiseResult r s).inBase = s.inBase := rfl
@[simp] theorem raiseResult_inLen (r : Raise) : (raiseResult r s).inLen = s.inLen := rfl
@[simp] theorem raiseResult_outBase (r : Raise) : (raiseResult r s).outBase = s.outBase := rfl
@[simp] theorem raiseResult_outCap (r : Raise) : (raiseResult r s).outCap = s.outCap := rfl
@[simp] theorem raiseResult_outLen (r : Raise) : (raiseResult r s).outLen = 0#32 := rfl
@[simp] theorem raiseResult_hdrWidth (r : Raise) : (raiseResult r s).hdrWidth = 0#5 := rfl
@[simp] theorem raiseResult_hdrCount (r : Raise) : (raiseResult r s).hdrCount = 0#32 := rfl
@[simp] theorem raiseResult_lastWidth (r : Raise) : (raiseResult r s).lastWidth = 0#6 := rfl
@[simp] theorem raiseResult_dictNext (r : Raise) : (raiseResult r s).dictNext = 0#32 := rfl
@[simp] theorem raiseResult_errInfo (r : Raise) : (raiseResult r s).errInfo = BitVec.ofNat 32 r.info := rfl
@[simp] theorem raiseResult_engine (r : Raise) :
    (raiseResult r s).engine = { s.engine with phase := .idle, scratch := freeScratch s.freeSerial } := rfl
@[simp] theorem raiseResult_mem (r : Raise) :
    (raiseResult r s).mem = s.mem.forget s.freeSerial s.engine.outBase.toNat s.engine.outCap.toNat := rfl
@[simp] theorem raiseResult_platform (r : Raise) : (raiseResult r s).platform = s.platform := rfl
@[simp] theorem raiseResult_host (r : Raise) : (raiseResult r s).host = s.host := rfl
@[simp] theorem raiseResult_schedule (r : Raise) : (raiseResult r s).schedule = s.schedule := rfl
@[simp] theorem raiseResult_freeSerial (r : Raise) : (raiseResult r s).freeSerial = s.freeSerial + 1 := rfl

/-! ### completeOk -/

@[simp] theorem completeOk_cmd (c : Completion) (m : Memory) : (completeOk c m s).cmd = s.cmd := rfl
@[simp] theorem completeOk_done (c : Completion) (m : Memory) : (completeOk c m s).done = true := rfl
@[simp] theorem completeOk_ignoredWrite (c : Completion) (m : Memory) :
    (completeOk c m s).ignoredWrite = s.ignoredWrite := rfl
@[simp] theorem completeOk_result (c : Completion) (m : Memory) : (completeOk c m s).result = .ok := rfl
@[simp] theorem completeOk_doneIe (c : Completion) (m : Memory) : (completeOk c m s).doneIe = s.doneIe := rfl
@[simp] theorem completeOk_inBase (c : Completion) (m : Memory) : (completeOk c m s).inBase = s.inBase := rfl
@[simp] theorem completeOk_inLen (c : Completion) (m : Memory) : (completeOk c m s).inLen = s.inLen := rfl
@[simp] theorem completeOk_outBase (c : Completion) (m : Memory) : (completeOk c m s).outBase = s.outBase := rfl
@[simp] theorem completeOk_outCap (c : Completion) (m : Memory) : (completeOk c m s).outCap = s.outCap := rfl
@[simp] theorem completeOk_outLen (c : Completion) (m : Memory) :
    (completeOk c m s).outLen = BitVec.ofNat 32 c.out.length := rfl
@[simp] theorem completeOk_hdrWidth (c : Completion) (m : Memory) :
    (completeOk c m s).hdrWidth = BitVec.ofNat 5 c.hdrWidth := rfl
@[simp] theorem completeOk_hdrCount (c : Completion) (m : Memory) :
    (completeOk c m s).hdrCount = BitVec.ofNat 32 c.hdrCount := rfl
@[simp] theorem completeOk_lastWidth (c : Completion) (m : Memory) :
    (completeOk c m s).lastWidth = BitVec.ofNat 6 c.lastWidth := rfl
@[simp] theorem completeOk_dictNext (c : Completion) (m : Memory) :
    (completeOk c m s).dictNext = BitVec.ofNat 32 (saturate32 c.dictNext) := rfl
@[simp] theorem completeOk_errInfo (c : Completion) (m : Memory) : (completeOk c m s).errInfo = 0#32 := rfl
@[simp] theorem completeOk_engine (c : Completion) (m : Memory) :
    (completeOk c m s).engine = { s.engine with phase := .idle, scratch := freeScratch s.freeSerial } := rfl
@[simp] theorem completeOk_mem (c : Completion) (m : Memory) : (completeOk c m s).mem = m := rfl
@[simp] theorem completeOk_platform (c : Completion) (m : Memory) : (completeOk c m s).platform = s.platform := rfl
@[simp] theorem completeOk_host (c : Completion) (m : Memory) : (completeOk c m s).host = s.host := rfl
@[simp] theorem completeOk_schedule (c : Completion) (m : Memory) : (completeOk c m s).schedule = s.schedule := rfl
@[simp] theorem completeOk_freeSerial (c : Completion) (m : Memory) :
    (completeOk c m s).freeSerial = s.freeSerial + 1 := rfl

/-! ### assertReset -/

@[simp] theorem assertReset_cmd : (assertReset s).cmd = 0#32 := rfl
@[simp] theorem assertReset_done : (assertReset s).done = false := rfl
@[simp] theorem assertReset_ignoredWrite : (assertReset s).ignoredWrite = false := rfl
@[simp] theorem assertReset_result : (assertReset s).result = .ok := rfl
@[simp] theorem assertReset_doneIe : (assertReset s).doneIe = false := rfl
@[simp] theorem assertReset_inBase : (assertReset s).inBase = 0#32 := rfl
@[simp] theorem assertReset_inLen : (assertReset s).inLen = 0#32 := rfl
@[simp] theorem assertReset_outBase : (assertReset s).outBase = 0#32 := rfl
@[simp] theorem assertReset_outCap : (assertReset s).outCap = 0#32 := rfl
@[simp] theorem assertReset_outLen : (assertReset s).outLen = 0#32 := rfl
@[simp] theorem assertReset_hdrWidth : (assertReset s).hdrWidth = 0#5 := rfl
@[simp] theorem assertReset_hdrCount : (assertReset s).hdrCount = 0#32 := rfl
@[simp] theorem assertReset_lastWidth : (assertReset s).lastWidth = 0#6 := rfl
@[simp] theorem assertReset_dictNext : (assertReset s).dictNext = 0#32 := rfl
@[simp] theorem assertReset_errInfo : (assertReset s).errInfo = 0#32 := rfl
@[simp] theorem assertReset_engine : (assertReset s).engine = freeEngine s.freeSerial := rfl
@[simp] theorem assertReset_mem :
    (assertReset s).mem = (match s.engine.phase with | .idle => s.mem | .run => (forgetOutput s).mem) := rfl
@[simp] theorem assertReset_platform : (assertReset s).platform = s.platform := rfl
@[simp] theorem assertReset_host : (assertReset s).host = s.host := rfl
@[simp] theorem assertReset_schedule : (assertReset s).schedule = s.schedule := rfl
@[simp] theorem assertReset_freeSerial : (assertReset s).freeSerial = s.freeSerial + 1 := rfl

/-! ### placeCommand -/

@[simp] theorem placeCommand_cmd (v : Word) : (placeCommand v s).cmd = v := rfl
@[simp] theorem placeCommand_done (v : Word) : (placeCommand v s).done = false := rfl
@[simp] theorem placeCommand_ignoredWrite (v : Word) : (placeCommand v s).ignoredWrite = s.ignoredWrite := rfl
@[simp] theorem placeCommand_result (v : Word) : (placeCommand v s).result = .ok := rfl
@[simp] theorem placeCommand_doneIe (v : Word) : (placeCommand v s).doneIe = s.doneIe := rfl
@[simp] theorem placeCommand_inBase (v : Word) : (placeCommand v s).inBase = s.inBase := rfl
@[simp] theorem placeCommand_inLen (v : Word) : (placeCommand v s).inLen = s.inLen := rfl
@[simp] theorem placeCommand_outBase (v : Word) : (placeCommand v s).outBase = s.outBase := rfl
@[simp] theorem placeCommand_outCap (v : Word) : (placeCommand v s).outCap = s.outCap := rfl
@[simp] theorem placeCommand_outLen (v : Word) : (placeCommand v s).outLen = 0#32 := rfl
@[simp] theorem placeCommand_hdrWidth (v : Word) : (placeCommand v s).hdrWidth = 0#5 := rfl
@[simp] theorem placeCommand_hdrCount (v : Word) : (placeCommand v s).hdrCount = 0#32 := rfl
@[simp] theorem placeCommand_lastWidth (v : Word) : (placeCommand v s).lastWidth = 0#6 := rfl
@[simp] theorem placeCommand_dictNext (v : Word) : (placeCommand v s).dictNext = 0#32 := rfl
@[simp] theorem placeCommand_errInfo (v : Word) : (placeCommand v s).errInfo = 0#32 := rfl
@[simp] theorem placeCommand_engine (v : Word) :
    (placeCommand v s).engine = { phase := .run, op := opField v, inBase := s.inBase, inLen := s.inLen, outBase := s.outBase, outCap := s.outCap, scratch := s.engine.scratch } := rfl
@[simp] theorem placeCommand_mem (v : Word) : (placeCommand v s).mem = s.mem := rfl
@[simp] theorem placeCommand_platform (v : Word) : (placeCommand v s).platform = s.platform := rfl
@[simp] theorem placeCommand_host (v : Word) : (placeCommand v s).host = s.host := rfl
@[simp] theorem placeCommand_schedule (v : Word) : (placeCommand v s).schedule = [] := rfl
@[simp] theorem placeCommand_freeSerial (v : Word) : (placeCommand v s).freeSerial = s.freeSerial := rfl

end Sys2Proof.Machine
end

