-- ==== Sys2Proof/Laws/BitChannel.lean ====
section
/-! SUPPORT. Laws of the bit layer: lengths, the value of serialized bits, reading and writing. -/

namespace Sys2Proof.Machine

/-! ## Serialized integers -/

@[simp] theorem length_natBits (w v : Nat) : (natBits w v).length = w := by
  induction w with
  | zero => rfl
  | succ w ih => simp [natBits, ih]

theorem foldl_bitsToNat (bs : Bits) (v : Nat) :
    bs.foldl (fun v b => 2 * v + b.toNat) v = v * 2 ^ bs.length + bitsToNat bs := by
  induction bs generalizing v with
  | nil => simp [bitsToNat]
  | cons b bs ih =>
    have h0 : bitsToNat (b :: bs) = b.toNat * 2 ^ bs.length + bitsToNat bs := by
      have : bitsToNat (b :: bs) = (2 * 0 + b.toNat) * 2 ^ bs.length + bitsToNat bs := ih (2 * 0 + b.toNat)
      rwa [Nat.mul_zero, Nat.zero_add] at this
    rw [List.foldl_cons, ih, h0, List.length_cons, pow_succ]
    ring

@[simp] theorem bitsToNat_nil : bitsToNat [] = 0 := rfl

/-- The first bit weighs most. -/
theorem bitsToNat_cons (b : Bool) (bs : Bits) : bitsToNat (b :: bs) = b.toNat * 2 ^ bs.length + bitsToNat bs := by
  simp only [bitsToNat, List.foldl_cons]
  rw [foldl_bitsToNat]
  simp [bitsToNat]

theorem bitsToNat_append (xs ys : Bits) : bitsToNat (xs ++ ys) = bitsToNat xs * 2 ^ ys.length + bitsToNat ys := by
  simp only [bitsToNat, List.foldl_append]
  rw [foldl_bitsToNat]
  rfl

theorem bitsToNat_lt (bs : Bits) : bitsToNat bs < 2 ^ bs.length := by
  induction bs with
  | nil => simp
  | cons b bs ih =>
    rw [bitsToNat_cons, List.length_cons, pow_succ]
    have : b.toNat ≤ 1 := Bool.toNat_le b
    have : b.toNat * 2 ^ bs.length ≤ 1 * 2 ^ bs.length := Nat.mul_le_mul_right _ this
    omega

/-- Serializing at a width and reading back gives the value's low bits. -/
theorem bitsToNat_natBits (w v : Nat) : bitsToNat (natBits w v) = v % 2 ^ w := by
  induction w with
  | zero => simp [natBits, Nat.mod_one]
  | succ w ih =>
    simp only [natBits, bitsToNat_cons, length_natBits, ih]
    rw [Nat.mod_pow_succ, Nat.testBit_eq_decide_div_mod_eq]
    rcases Nat.mod_two_eq_zero_or_one (v / 2 ^ w) with h | h <;> simp [h]
    omega

/-- Serializing what a bit string means gives it back. -/
theorem natBits_bitsToNat (bs : Bits) : natBits bs.length (bitsToNat bs) = bs := by
  have key : ∀ (bs : Bits) (h : Nat), natBits bs.length (h * 2 ^ bs.length + bitsToNat bs) = bs := by
    intro bs
    induction bs with
    | nil => intro h; rfl
    | cons b bs ih =>
      intro h
      simp only [List.length_cons, natBits, bitsToNat_cons]
      have hlt := bitsToNat_lt bs
      congr 1
      · rw [show h * 2 ^ (bs.length + 1) + (b.toNat * 2 ^ bs.length + bitsToNat bs)
            = 2 ^ bs.length * (2 * h + b.toNat) + bitsToNat bs by ring]
        rw [Nat.testBit_eq_decide_div_mod_eq, Nat.mul_add_div (by positivity), Nat.div_eq_of_lt hlt]
        cases b <;> simp [Nat.add_mod]
      · rw [show h * 2 ^ (bs.length + 1) + (b.toNat * 2 ^ bs.length + bitsToNat bs)
            = (2 * h + b.toNat) * 2 ^ bs.length + bitsToNat bs by ring]
        exact ih _
  simpa using key bs 0

/-- Only a value's low bits are serialized. -/
theorem natBits_mod (w v : Nat) : natBits w (v % 2 ^ w) = natBits w v := by
  have h := natBits_bitsToNat (natBits w v)
  rwa [length_natBits, bitsToNat_natBits] at h

/-! ## Bytes and bits -/

@[simp] theorem length_byteBits (b : Byte) : (byteBits b).length = 8 := length_natBits 8 _

@[simp] theorem length_bytesToBits (bs : List Byte) : (bytesToBits bs).length = 8 * bs.length := by
  induction bs with
  | nil => rfl
  | cons b bs ih => simp only [bytesToBits, List.length_append, length_byteBits, ih, List.length_cons]; omega

theorem bytesToBits_append (xs ys : List Byte) : bytesToBits (xs ++ ys) = bytesToBits xs ++ bytesToBits ys := by
  induction xs with
  | nil => rfl
  | cons b bs ih => simp only [List.cons_append, bytesToBits, ih, List.append_assoc]

/-- A byte's bits pack to the byte. -/
theorem byteOfBits_byteBits (b : Byte) (rest : Bits) : byteOfBits (byteBits b ++ rest) = b := by
  unfold byteOfBits
  rw [List.take_append_of_le_length (by simp), List.take_of_length_le (by simp),
    show 8 - (byteBits b ++ rest).length = 0 by simp]
  simp only [List.replicate_zero, List.append_nil, byteBits, bitsToNat_natBits]
  apply BitVec.eq_of_toNat_eq
  have := b.isLt
  simp; omega

@[simp] theorem length_packBytes (n : Nat) (S : Bits) : (packBytes n S).length = n := by
  induction n generalizing S with
  | zero => rfl
  | succ n ih => simp [packBytes, ih]

/-- The number of bytes of a bit string (40_bitchannel.md R78). -/
@[simp] theorem length_bitsToBytes (S : Bits) : (bitsToBytes S).length = (S.length + 7) / 8 := length_packBytes _ _

/-- A packed byte's bits are its eight bits, missing ones 0. -/
theorem byteBits_byteOfBits (S : Bits) :
    byteBits (byteOfBits S) = S.take 8 ++ List.replicate (8 - S.length) false := by
  have hl : (S.take 8 ++ List.replicate (8 - S.length) false).length = 8 := by simp; omega
  have h := natBits_bitsToNat (S.take 8 ++ List.replicate (8 - S.length) false)
  rw [hl] at h
  unfold byteBits byteOfBits
  rw [BitVec.toNat_ofNat, natBits_mod, h]

/-! ## Fixed-width reads -/

@[simp] theorem length_writeFixedWidth (S : Bits) (v w : Nat) : (writeFixedWidth S v w).length = S.length + w := by
  simp [writeFixedWidth]

@[simp] theorem length_writeHeader (S : Bits) (w n : Nat) : (writeHeader S w n).length = S.length + 36 := by
  simp [writeHeader]

/-- A read fails exactly when fewer than `width` bits remain (40_bitchannel.md R80). -/
theorem readFixedWidth_isNone (S : Bits) (o w : Nat) : readFixedWidth S o w = none ↔ S.length < o + w := by
  unfold readFixedWidth
  split <;> simp <;> omega

/-- A read that does not fail gives the bits' value (40_bitchannel.md R80). -/
theorem readFixedWidth_some {S : Bits} {o w : Nat} (h : o + w ≤ S.length) :
    readFixedWidth S o w = some (bitsToNat ((S.drop o).take w)) := by
  unfold readFixedWidth
  rw [if_neg (by omega)]

/-- What was written at a place is read there, whatever comes before and after. -/
theorem readFixedWidth_written (pre post : Bits) (v w : Nat) :
    readFixedWidth (pre ++ (natBits w v ++ post)) pre.length w = some (v % 2 ^ w) := by
  rw [readFixedWidth_some (by simp), List.drop_left, List.take_append_of_le_length (by simp),
    List.take_of_length_le (by simp), bitsToNat_natBits]

/-- Bits appended at the end do not change a read that does not fail. -/
theorem readFixedWidth_append {S : Bits} (T : Bits) {o w k : Nat} (h : readFixedWidth S o w = some k) :
    readFixedWidth (S ++ T) o w = some k := by
  have hl : o + w ≤ S.length := by
    by_contra hc
    rw [(readFixedWidth_isNone S o w).mpr (by omega)] at h
    simp at h
  rw [readFixedWidth_some hl] at h
  rw [readFixedWidth_some (by simp; omega), List.drop_append_of_le_length (by omega),
    List.take_append_of_le_length (by simp; omega)]
  exact h

/-- The header is read exactly when the input has its 36 bits (40_bitchannel.md R82). -/
theorem readHeader_some {S : Bits} (h : 36 ≤ S.length) :
    readHeader S = some (fieldWidth (bitsToNat (S.take 4)), bitsToNat ((S.drop 4).take 32)) := by
  unfold readHeader
  simp only [Config.hdrBits, Config.hdrWidthBits, Config.hdrCountBits]
  rw [if_neg (by omega), readFixedWidth_some (by omega), readFixedWidth_some (by omega)]
  simp

theorem readHeader_none {S : Bits} (h : S.length < 36) : readHeader S = none := by
  unfold readHeader
  rw [if_pos (by simpa using h)]

/-- A decoded width is 1..16 (30_encoding.md R65). -/
theorem fieldWidth_range {f : Nat} (h : f < 16) : 1 ≤ fieldWidth f ∧ fieldWidth f ≤ 16 := by
  unfold fieldWidth
  split <;> omega

end Sys2Proof.Machine
end

