-- ==== Sys2Proof/Laws/LzwCore.lean ====
section
/-! SUPPORT. Laws of the dictionary and of the encode loop's pending sequence. -/

namespace Sys2Proof.Machine

@[simp] theorem length_seed : Dict.seed.entries.length = 256 := by simp [Dict.seed]

@[simp] theorem nextCode_seed : Dict.seed.nextCode = 256 := rfl

/-- The seed maps each code below 256 to its symbol (41_lzw_core.md R85, R89). -/
theorem seqOf_seed {k : Nat} (h : k < 256) : Dict.seed.seqOf k = some [BitVec.ofNat 8 k] := by
  simp [Dict.seqOf, Dict.seed, h]

@[simp] theorem entries_insert (d : Dict) (q : Sequence) : (d.insert q).entries = d.entries ++ [q] := rfl

@[simp] theorem nextCode_insert (d : Dict) (q : Sequence) : (d.insert q).nextCode = d.nextCode + 1 := rfl

/-- A registration inserts, leaves the dictionary alone, or cannot be held (41_lzw_core.md R86). -/
theorem register_cases {d d' : Dict} {a : Admission} {q : Sequence} (h : d.register a q = some d') :
    (a = .insert ∧ d' = d.insert q) ∨ (a = .skip ∧ d' = d) := by
  cases a <;> simp_all [Dict.register]

theorem register_none {d : Dict} {a : Admission} {q : Sequence} : d.register a q = none ↔ a = .full := by
  cases a <;> simp [Dict.register]

/-- A sequence has a code exactly when it is an entry. -/
theorem codeOf_isSome (d : Dict) (q : Sequence) : (d.codeOf q).isSome ↔ q ∈ d.entries := by
  simp [Dict.codeOf]

/-- The code of an entry is an index at which it stands. -/
theorem codeOf_some {d : Dict} {q : Sequence} {k : Nat} (h : d.codeOf q = some k) :
    ∃ hk : k < d.entries.length, d.entries[k] = q := by
  unfold Dict.codeOf at h
  rw [List.idxOf?_eq_some_iff] at h
  obtain ⟨hk, he, _⟩ := h
  exact ⟨hk, by simpa using he⟩

/-- The two directions agree on the code a sequence is emitted as: it stands for that sequence. -/
theorem seqOf_emit {d : Dict} {q : Sequence} (h : q ∈ d.entries) : d.seqOf (d.emit q) = some q := by
  obtain ⟨k, hk⟩ := Option.isSome_iff_exists.mp ((codeOf_isSome d q).mpr h)
  obtain ⟨hl, he⟩ := codeOf_some hk
  simp [Dict.emit, hk, Dict.seqOf, hl, he]

theorem emit_lt {d : Dict} {q : Sequence} (h : q ∈ d.entries) : d.emit q < d.entries.length := by
  obtain ⟨k, hk⟩ := Option.isSome_iff_exists.mp ((codeOf_isSome d q).mpr h)
  obtain ⟨hl, _⟩ := codeOf_some hk
  simpa [Dict.emit, hk] using hl

/-- Every one-symbol sequence is an entry of the seed (41_lzw_core.md R85). -/
theorem single_mem_seed (c : Symbol) : [c] ∈ Dict.seed.entries := by
  simp only [Dict.seed, List.mem_map, List.mem_range]
  exact ⟨c.toNat, c.isLt, by simp⟩

/-- A registration only adds entries. -/
theorem mem_register {d d' : Dict} {a : Admission} {q x : Sequence} (h : d.register a q = some d')
    (hx : x ∈ d.entries) : x ∈ d'.entries := by
  rcases register_cases h with ⟨_, rfl⟩ | ⟨_, rfl⟩
  · simp [hx]
  · exact hx

/-- A registration keeps every entry at its code: the dictionary only grows (41_lzw_core.md R85, R86). -/
theorem prefix_register {d d' : Dict} {a : Admission} {q : Sequence} (h : d.register a q = some d') :
    d.entries <+: d'.entries ∧ d.nextCode ≤ d'.nextCode := by
  rcases register_cases h with ⟨_, rfl⟩ | ⟨_, rfl⟩ <;> simp

/-- What the encode loop keeps of a dictionary and a pending sequence: every symbol is an entry, the pending sequence is empty
or an entry, and the codes are exactly 0 .. nextCode - 1 (41_lzw_core.md R85, R87). -/
structure EncodeReady (d : Dict) (w : Sequence) : Prop where
  single : ∀ c : Symbol, [c] ∈ d.entries
  pending : w = [] ∨ w ∈ d.entries
  dense : d.entries.length = d.nextCode

theorem encodeReady_seed : EncodeReady Dict.seed [] := ⟨single_mem_seed, .inl rfl, length_seed⟩

/-- An empty pending sequence is always extended by the next symbol (41_lzw_core.md R87). -/
theorem EncodeReady.pending_of_no_entry {d : Dict} {w : Sequence} {c : Symbol} (h : EncodeReady d w)
    (hn : ¬ (d.codeOf (w ++ [c])).isSome) : w ∈ d.entries := by
  rcases h.pending with rfl | hw
  · exact absurd ((codeOf_isSome d [c]).mpr (h.single c)) hn
  · exact hw

theorem EncodeReady.extend {d : Dict} {w : Sequence} {c : Symbol} (h : EncodeReady d w)
    (hs : (d.codeOf (w ++ [c])).isSome) : EncodeReady d (w ++ [c]) :=
  ⟨h.single, .inr ((codeOf_isSome d _).mp hs), h.dense⟩

theorem EncodeReady.restart {d d' : Dict} {w q : Sequence} {a : Admission} (c : Symbol) (h : EncodeReady d w)
    (hr : d.register a q = some d') : EncodeReady d' [c] := by
  refine ⟨fun c => mem_register hr (h.single c), .inr (mem_register hr (h.single c)), ?_⟩
  rcases register_cases hr with ⟨_, rfl⟩ | ⟨_, rfl⟩
  · simp [h.dense]
  · exact h.dense

/-- What the decode loop keeps: the codes are exactly 0 .. nextCode - 1, and the previous entry and every entry is non-empty
(41_lzw_core.md R85, R89, R90). -/
structure DecodeReady (d : Dict) (w : Sequence) : Prop where
  dense : d.entries.length = d.nextCode
  nonempty : ∀ q ∈ d.entries, q ≠ []
  pending : w ≠ []

theorem seed_nonempty : ∀ q ∈ Dict.seed.entries, q ≠ [] := by
  intro q hq
  simp only [Dict.seed, List.mem_map] at hq
  obtain ⟨c, _, rfl⟩ := hq
  simp

theorem decodeReady_seed (c : Symbol) : DecodeReady Dict.seed [c] := ⟨length_seed, seed_nonempty, by simp⟩

/-- A code is corrupt exactly when it is greater than nextCode (41_lzw_core.md R90). -/
theorem decodeEntry_none {d : Dict} {w : Sequence} {k : Nat} (h : DecodeReady d w) :
    decodeEntry d w k = none ↔ d.nextCode < k := by
  unfold decodeEntry Dict.seqOf
  split
  · rename_i hk
    rw [List.getElem?_eq_getElem (by rw [h.dense]; exact hk)]
    simp; omega
  · split
    · simp; omega
    · simp; omega

theorem decodeEntry_nonempty {d : Dict} {w e : Sequence} {k : Nat} (h : DecodeReady d w)
    (he : decodeEntry d w k = some e) : e ≠ [] := by
  unfold decodeEntry Dict.seqOf at he
  split at he
  · exact h.nonempty e (List.mem_of_getElem? he)
  · split at he
    · simp only [Option.some.injEq] at he
      subst he
      simp [h.pending]
    · simp at he

theorem DecodeReady.next {d d' : Dict} {w e : Sequence} {k : Nat} {a : Admission} (h : DecodeReady d w)
    (he : decodeEntry d w k = some e) (hr : d.register a (w ++ e.take 1) = some d') : DecodeReady d' e := by
  have hne := decodeEntry_nonempty h he
  rcases register_cases hr with ⟨_, rfl⟩ | ⟨_, rfl⟩
  · refine ⟨by simp [h.dense], ?_, hne⟩
    intro q hq
    simp only [entries_insert, List.mem_append, List.mem_singleton] at hq
    rcases hq with hq | rfl
    · exact h.nonempty q hq
    · simp [h.pending]
  · exact ⟨h.dense, h.nonempty, hne⟩

end Sys2Proof.Machine
end

