-- ==== Sys2Proof/Laws/Memory.lean ====
section
/-! SUPPORT. Laws of host memory: a read after a write, and that every operation keeps the canonical form. -/

namespace Sys2Proof.Machine

/-! ## Reading what was written -/

/-- An address below every listed one reads as an unlisted one. -/
theorem read_of_wfFrom_lt {m : Memory} {lo x : Nat} (h : Memory.wfFrom lo m = true) (hx : x < lo) :
    m.read x = Config.unwrittenByte := by
  induction m generalizing lo with
  | nil => rfl
  | cons c m ih =>
    simp only [Memory.wfFrom, Bool.and_eq_true, decide_eq_true_eq] at h
    simp only [Memory.read]
    rw [if_neg (by omega)]
    exact ih h.2 (by omega)

/-- The canonical form from an address on is the canonical form from any lower one on. -/
theorem wfFrom_mono {m : Memory} {lo lo' : Nat} (h : Memory.wfFrom lo m = true) (hl : lo' ≤ lo) :
    Memory.wfFrom lo' m = true := by
  cases m with
  | nil => rfl
  | cons c m =>
    simp only [Memory.wfFrom, Bool.and_eq_true, decide_eq_true_eq] at h ⊢
    exact ⟨⟨⟨by omega, h.1.1.2⟩, h.1.2⟩, h.2⟩

/-- Reading any address after a write to a canonical memory. -/
theorem read_write_from {m : Memory} {lo : Nat} (h : Memory.wfFrom lo m = true) (x y : Nat) (v : Byte) :
    (m.write x v).read y = if y = x then v else m.read y := by
  induction m generalizing lo with
  | nil =>
    by_cases hv : v = Config.unwrittenByte
    · simp [Memory.write, Memory.read, hv]
    · simp [Memory.write, Memory.read, hv]
  | cons c m ih =>
    simp only [Memory.wfFrom, Bool.and_eq_true, decide_eq_true_eq] at h
    have below : ∀ z, z ≤ c.1 → Memory.read m z = Config.unwrittenByte :=
      fun z hz => read_of_wfFrom_lt h.2 (by omega)
    simp only [Memory.write]
    split
    · split
      · rename_i hx hv
        simp only [Memory.read]
        by_cases hy : y = x
        · subst hy; rw [if_neg (by omega), if_pos rfl, below y (by omega), hv]
        · rw [if_neg hy]
      · simp only [Memory.read]
    · split
      · rename_i hx hxc
        split
        · rename_i hv
          simp only [Memory.read]
          by_cases hy : y = x
          · subst hy; rw [if_pos rfl, below y (by omega), hv]
          · rw [if_neg hy, if_neg (by omega)]
        · simp only [Memory.read]
          by_cases hy : y = x
          · rw [if_pos hy, if_pos hy]
          · rw [if_neg hy, if_neg hy, if_neg (by omega)]
      · rename_i hx hxc
        simp only [Memory.read, ih h.2]
        by_cases hy : y = c.1
        · rw [if_pos hy, if_neg (by omega), if_pos hy]
        · rw [if_neg hy, if_neg hy]

/-- Reading any address after a write. -/
theorem read_write {m : Memory} (h : m.wf = true) (x y : Nat) (v : Byte) :
    (m.write x v).read y = if y = x then v else m.read y := read_write_from h x y v

/-- A write leaves every other address alone, in any memory. -/
theorem read_write_other (m : Memory) {x y : Nat} (v : Byte) (hy : y ≠ x) : (m.write x v).read y = m.read y := by
  induction m with
  | nil =>
    simp only [Memory.write]
    split
    · rfl
    · simp [Memory.read, hy]
  | cons c m ih =>
    simp only [Memory.write]
    split
    · split
      · rfl
      · simp [Memory.read, hy]
    · split
      · rename_i hxc
        split
        · simp only [Memory.read]; rw [if_neg (by omega)]
        · simp only [Memory.read]; rw [if_neg hy, if_neg (by omega)]
      · simp only [Memory.read, ih]

/-! ## The canonical form is kept -/

/-- A write at or above the least address keeps the canonical form from it on. -/
theorem wfFrom_write {m : Memory} {lo x : Nat} (v : Byte) (h : Memory.wfFrom lo m = true) (hx : lo ≤ x)
    (hs : x < Config.memorySize) : Memory.wfFrom lo (m.write x v) = true := by
  induction m generalizing lo with
  | nil =>
    simp only [Memory.write]
    split
    · rfl
    · rename_i hv
      simp only [Memory.wfFrom, Bool.and_true, Bool.and_eq_true, decide_eq_true_eq]
      exact ⟨⟨hx, hs⟩, hv⟩
  | cons c m ih =>
    have h0 := h
    simp only [Memory.wfFrom, Bool.and_eq_true, decide_eq_true_eq] at h
    obtain ⟨⟨⟨h1, h2⟩, h3⟩, h4⟩ := h
    simp only [Memory.write]
    split
    · split
      · exact h0
      · rename_i hc hv
        simp only [Memory.wfFrom, Bool.and_eq_true, decide_eq_true_eq]
        exact ⟨⟨⟨hx, hs⟩, hv⟩, ⟨⟨by omega, h2⟩, h3⟩, h4⟩
    · split
      · rename_i hc hxc
        split
        · exact wfFrom_mono h4 (by omega)
        · rename_i hv
          simp only [Memory.wfFrom, Bool.and_eq_true, decide_eq_true_eq]
          exact ⟨⟨⟨hx, hs⟩, hv⟩, by rw [hxc]; exact h4⟩
      · simp only [Memory.wfFrom, Bool.and_eq_true, decide_eq_true_eq]
        exact ⟨⟨⟨h1, h2⟩, h3⟩, ih h4 (by omega)⟩

/-- A write keeps the canonical form. -/
theorem wf_write {m : Memory} {x : Nat} (v : Byte) (h : m.wf = true) (hs : x < Config.memorySize) :
    (m.write x v).wf = true := wfFrom_write v h (Nat.zero_le x) hs

/-- A run of writes keeps the canonical form. -/
theorem wf_writeAll {m : Memory} {a : Nat} {bs : List Byte} (h : m.wf = true)
    (hs : a + bs.length ≤ Config.memorySize) : (m.writeAll a bs).wf = true := by
  induction bs generalizing m a with
  | nil => exact h
  | cons v bs ih =>
    simp only [List.length_cons] at hs
    exact ih (wf_write v h (by omega)) (by omega)

/-- Forgetting a range keeps the canonical form. -/
theorem wf_forget {serial : Nat} {m : Memory} {a n : Nat} (h : m.wf = true) :
    (m.forget serial a n).wf = true := by
  induction n generalizing m a with
  | zero => exact h
  | succ n ih =>
    simp only [Memory.forget]
    split
    · rename_i hs; exact ih (wf_write _ h hs)
    · exact ih h

/-- Reset memory has the canonical form. -/
theorem wf_nil : Memory.wf [] = true := rfl

/-! ## Runs of bytes -/

/-- A run of writes leaves every address outside the run alone. -/
theorem read_writeAll_outside (m : Memory) (a : Nat) (bs : List Byte) {x : Nat} (h : x < a ∨ a + bs.length ≤ x) :
    (m.writeAll a bs).read x = m.read x := by
  induction bs generalizing m a with
  | nil => rfl
  | cons v bs ih =>
    simp only [List.length_cons] at h
    simp only [Memory.writeAll]
    rw [ih _ _ (by omega), read_write_other _ _ (by omega)]

/-- A run of writes puts its bytes at their addresses. -/
theorem read_writeAll_inside {m : Memory} {a : Nat} {bs : List Byte} (h : m.wf = true)
    (hs : a + bs.length ≤ Config.memorySize) {j : Nat} (hj : j < bs.length) :
    (m.writeAll a bs).read (a + j) = bs[j] := by
  induction bs generalizing m a j with
  | nil => simp at hj
  | cons v bs ih =>
    simp only [List.length_cons] at hs hj
    simp only [Memory.writeAll]
    cases j with
    | zero =>
      rw [read_writeAll_outside _ _ _ (by omega), read_write h]
      simp
    | succ j =>
      have := ih (m := m.write a v) (a := a + 1) (wf_write v h (by omega)) (by omega) (j := j) (by omega)
      rw [show a + (j + 1) = a + 1 + j by omega, this]
      simp

/-- Forgetting a range leaves every address outside it alone. -/
theorem read_forget_outside (serial : Nat) (m : Memory) (a n : Nat) {x : Nat} (h : x < a ∨ a + n ≤ x) :
    (m.forget serial a n).read x = m.read x := by
  induction n generalizing m a with
  | zero => rfl
  | succ n ih =>
    simp only [Memory.forget]
    rw [ih _ _ (by omega)]
    split
    · exact read_write_other _ _ (by omega)
    · rfl

/-! ## The memory-master port -/

/-- A refused read is a bus error at its address (20_memory.md R43). -/
theorem memRead_refused {p : Platform} {m : Memory} {a : Nat} (h : p.memOk a .read = false) :
    memRead p m a = .error { code := .busError, info := a } := by simp [memRead, h]

/-- A read the bus completes gives the byte (20_memory.md R43). -/
theorem memRead_ok {p : Platform} {m : Memory} {a : Nat} (h : p.memOk a .read = true) :
    memRead p m a = .ok (m.read a) := by simp [memRead, h]

/-- An access the bus completes is inside host memory. -/
theorem lt_of_memOk {p : Platform} {a : Nat} {k : Access} (h : p.memOk a k = true) : a < Config.memorySize := by
  simp only [Platform.memOk, Bool.and_eq_true, decide_eq_true_eq] at h
  exact h.1

/-- All of a range is read where the bus completes every read of it (20_memory.md R46). -/
theorem memReadAll_ok {p : Platform} {m : Memory} {a n : Nat} (h : ∀ i < n, p.memOk (a + i) .read = true) :
    memReadAll p m a n = .ok ((List.range n).map fun i => m.read (a + i)) := by
  induction n generalizing a with
  | zero => rfl
  | succ n ih =>
    have h0 := h 0 (by omega)
    have ht : ∀ i < n, p.memOk (a + 1 + i) .read = true := fun i hi => by
      have := h (i + 1) (by omega); rwa [show a + (i + 1) = a + 1 + i by omega] at this
    simp only [memReadAll, memRead_ok (by simpa using h0), ih ht]
    rw [List.range_succ_eq_map]
    simp only [List.map_cons, List.map_map, Nat.add_zero]
    congr 2
    apply List.map_congr_left
    intro i _
    simp only [Function.comp_apply]
    congr 1
    omega

/-- A range of reads fails at the lowest refused address (20_memory.md R46; 60_exceptions.md R135). -/
theorem memReadAll_refused {p : Platform} {m : Memory} {a n j : Nat} (hj : j < n)
    (h : ∀ i < j, p.memOk (a + i) .read = true) (hr : p.memOk (a + j) .read = false) :
    memReadAll p m a n = .error { code := .busError, info := a + j } := by
  induction n generalizing a j with
  | zero => omega
  | succ n ih =>
    cases j with
    | zero => simp only [memReadAll, memRead_refused (by simpa using hr)]; rfl
    | succ j =>
      have h0 : p.memOk a .read = true := by simpa using h 0 (by omega)
      simp only [memReadAll, memRead_ok h0]
      rw [ih (a := a + 1) (j := j) (by omega)
        (fun i hi => by have := h (i + 1) (by omega); rwa [show a + (i + 1) = a + 1 + i by omega] at this)
        (by rwa [show a + (j + 1) = a + 1 + j by omega] at hr)]
      simp only [show a + 1 + j = a + (j + 1) by omega]

/-- A range of reads that succeeds has read the bytes of memory (20_memory.md R46, R47). -/
theorem memReadAll_eq_ok {p : Platform} {m : Memory} {a n : Nat} {bs : List Byte} (h : memReadAll p m a n = .ok bs) :
    bs = (List.range n).map (fun i => m.read (a + i)) := by
  by_cases hall : ∀ i < n, p.memOk (a + i) .read = true
  · rw [memReadAll_ok hall] at h; exact (Except.ok.inj h).symm
  · exfalso
    push Not at hall
    have hex : ∃ j, j < n ∧ p.memOk (a + j) .read ≠ true := hall
    classical
    let j := Nat.find hex
    have hj := Nat.find_spec hex
    rw [memReadAll_refused (j := j) hj.1
      (fun i hi => by
        have := Nat.find_min hex hi
        by_contra hc
        exact this ⟨by omega, hc⟩)
      (Bool.eq_false_iff.mpr hj.2)] at h
    exact absurd h (by simp)

/-- All of a range is written where the bus completes every write of it (42_regular.md R102). -/
theorem memWriteAll_ok {p : Platform} {m : Memory} {a : Nat} {bs : List Byte}
    (h : ∀ j < bs.length, p.memOk (a + j) .write = true) : memWriteAll p m a bs = .ok (m.writeAll a bs) := by
  induction bs generalizing m a with
  | nil => rfl
  | cons v bs ih =>
    have h0 : p.memOk a .write = true := by simpa using h 0 (by simp)
    simp only [memWriteAll, memWrite, h0, if_true, Memory.writeAll]
    apply ih
    intro j hj
    have := h (j + 1) (by simpa using hj)
    rwa [show a + (j + 1) = a + 1 + j by omega] at this

/-- A range of writes fails at the lowest refused address (60_exceptions.md R135). -/
theorem memWriteAll_refused {p : Platform} {m : Memory} {a j : Nat} {bs : List Byte} (hj : j < bs.length)
    (h : ∀ i < j, p.memOk (a + i) .write = true) (hr : p.memOk (a + j) .write = false) :
    memWriteAll p m a bs = .error { code := .busError, info := a + j } := by
  induction bs generalizing m a j with
  | nil => simp at hj
  | cons v bs ih =>
    cases j with
    | zero =>
      simp only [Nat.add_zero] at hr
      simp [memWriteAll, memWrite, hr]
    | succ j =>
      have h0 : p.memOk a .write = true := by simpa using h 0 (by omega)
      simp only [memWriteAll, memWrite, h0, if_true]
      rw [ih (a := a + 1) (j := j) (by simpa using hj)
        (fun i hi => by have := h (i + 1) (by omega); rwa [show a + (i + 1) = a + 1 + i by omega] at this)
        (by rwa [show a + (j + 1) = a + 1 + j by omega] at hr)]
      simp only [show a + 1 + j = a + (j + 1) by omega]

/-- A range of writes that succeeds has written all its bytes, inside host memory. -/
theorem memWriteAll_eq_ok {p : Platform} {m m' : Memory} {a : Nat} {bs : List Byte}
    (h : memWriteAll p m a bs = .ok m') :
    m' = m.writeAll a bs ∧ (bs = [] ∨ a + bs.length ≤ Config.memorySize) := by
  induction bs generalizing m a with
  | nil => simp only [memWriteAll, Except.ok.injEq] at h; exact ⟨h.symm, .inl rfl⟩
  | cons v bs ih =>
    simp only [memWriteAll, memWrite] at h
    split at h
    · simp at h
    · rename_i m'' hw
      split at hw
      · rename_i hok
        have := lt_of_memOk hok
        simp only [Except.ok.injEq] at hw
        subst hw
        obtain ⟨h1, h2⟩ := ih h
        refine ⟨h1, .inr ?_⟩
        rcases h2 with rfl | h2
        · simp only [List.length_cons, List.length_nil]; omega
        · simp only [List.length_cons]; omega
      · simp at hw

/-- A range of writes that succeeds keeps the canonical form. -/
theorem wf_memWriteAll {p : Platform} {m m' : Memory} {a : Nat} {bs : List Byte} (hw : m.wf = true)
    (h : memWriteAll p m a bs = .ok m') : m'.wf = true := by
  obtain ⟨rfl, rfl | h2⟩ := memWriteAll_eq_ok h
  · exact hw
  · exact wf_writeAll hw h2

end Sys2Proof.Machine
end

