-- ==== Sys2Proof/Laws/Command.lean ====
section
/-! SUPPORT. What a command can do: read its input, compute, write its output, and complete. -/

namespace Sys2Proof.Machine

/-- Every command is one run of its codec over the shared operation. -/
theorem exec_eq_run (i : Instr) (s : State) : exec i s = .next (runCommand (codecOf i s) s) := by
  cases i <;> rfl

/-- An address outside the output buffer lies below it or past its capacity (20_memory.md R45). -/
theorem inOutput_eq_false {s : State} {a : Nat} :
    s.inOutput a = false ↔ a < s.engine.outBase.toNat ∨ s.engine.outBase.toNat + s.engine.outCap.toNat ≤ a := by
  rw [Bool.eq_false_iff]
  simp only [State.inOutput, ne_eq, Bool.and_eq_true, decide_eq_true_eq]
  simp only [State.outAddr, State.outCapacity]
  omega

/-- A readable input buffer is read whole (20_memory.md R46). -/
theorem readInput_ok {s : State} (h : s.inputReadable) : readInput s = .ok s.inputBytes := by
  have := memReadAll_ok (p := s.platform) (m := s.mem) (a := s.inAddr 0) (n := s.inLength) (by
    intro i hi
    simpa [State.inAddr] using h i hi)
  simpa [readInput, State.inputBytes, State.inAddr] using this

/-- A refused input byte ends the command at its address (20_memory.md R43). -/
theorem readInput_refused {s : State} {j : Nat} (hj : j < s.inLength)
    (h : ∀ i < j, s.platform.memOk (s.inAddr i) .read = true) (hr : s.platform.memOk (s.inAddr j) .read = false) :
    readInput s = .error { code := .busError, info := s.inAddr j } := by
  have := memReadAll_refused (p := s.platform) (m := s.mem) (a := s.inAddr 0) (n := s.inLength) (j := j) hj
    (by intro i hi; simpa [State.inAddr] using h i hi) (by simpa [State.inAddr] using hr)
  simpa [readInput, State.inAddr] using this

/-- What is read is the input bytes. -/
theorem readInput_eq_ok {s : State} {x : List Byte} (h : readInput s = .ok x) : x = s.inputBytes := by
  have := memReadAll_eq_ok h
  simpa [State.inputBytes, State.inAddr] using this

/-- A writable output is written whole (42_regular.md R102). -/
theorem writeOutput_ok {s : State} {out : List Byte} (h : s.outputWritable out.length) :
    writeOutput s out = .ok (s.mem.writeAll (s.outAddr 0) out) :=
  memWriteAll_ok (by intro j hj; simpa [State.outAddr] using h j hj)

/-- A refused output byte ends the command at its address (20_memory.md R44). -/
theorem writeOutput_refused {s : State} {out : List Byte} {j : Nat} (hj : j < out.length)
    (h : ∀ i < j, s.platform.memOk (s.outAddr i) .write = true) (hr : s.platform.memOk (s.outAddr j) .write = false) :
    writeOutput s out = .error { code := .busError, info := s.outAddr j } := by
  have := memWriteAll_refused (p := s.platform) (m := s.mem) (a := s.outAddr 0) (bs := out) (j := j) hj
    (by intro i hi; simpa [State.outAddr] using h i hi) (by simpa [State.outAddr] using hr)
  simpa [writeOutput, State.outAddr] using this

/-- A command that succeeds has read its input, computed a completion, and written the completion's output. -/
theorem commandOutcome_eq_ok {codec : List Byte → Except Raise Completion} {s : State} {c : Completion} {m : Memory}
    (h : commandOutcome codec s = .ok (c, m)) :
    codec s.inputBytes = .ok c ∧ writeOutput s c.out = .ok m := by
  unfold commandOutcome at h
  split at h
  · simp at h
  · rename_i x hx
    have := readInput_eq_ok hx
    subst this
    split at h
    · simp at h
    · rename_i c' hc
      split at h
      · simp at h
      · rename_i m' hm
        simp only [Except.ok.injEq, Prod.mk.injEq] at h
        obtain ⟨rfl, rfl⟩ := h
        exact ⟨hc, hm⟩

/-- A command whose input is readable and whose codec succeeds completes OK, if its output is writable. -/
theorem runCommand_ok {codec : List Byte → Except Raise Completion} {s : State} {c : Completion}
    (hr : s.inputReadable) (hc : codec s.inputBytes = .ok c) (hw : s.outputWritable c.out.length) :
    runCommand codec s = completeOk c (s.mem.writeAll (s.outAddr 0) c.out) s := by
  simp only [runCommand, commandOutcome, readInput_ok hr, hc, writeOutput_ok hw]

/-- A command whose input is readable and whose codec raises ends with that result. -/
theorem runCommand_raise {codec : List Byte → Except Raise Completion} {s : State} {r : Raise}
    (hr : s.inputReadable) (hc : codec s.inputBytes = .error r) : runCommand codec s = raiseResult r s := by
  simp only [runCommand, commandOutcome, readInput_ok hr, hc]

/-- A command ends in one of two ways (60_exceptions.md R130). -/
theorem runCommand_cases (codec : List Byte → Except Raise Completion) (s : State) :
    (∃ c m, codec s.inputBytes = .ok c ∧ writeOutput s c.out = .ok m ∧ runCommand codec s = completeOk c m s) ∨
      ∃ r, runCommand codec s = raiseResult r s := by
  unfold runCommand
  split
  · rename_i c m h
    obtain ⟨h1, h2⟩ := commandOutcome_eq_ok h
    exact .inl ⟨c, m, h1, h2, rfl⟩
  · rename_i r _; exact .inr ⟨r, rfl⟩

/-! ## No completion's output is longer than the capacity -/

theorem decodeLoop_length {policy : Nat → Admission} {cap : Nat} {ks : List Nat} {i : Nat} {d e : Dict} {w : Sequence}
    {len : Nat} {out : List Symbol} (h : decodeLoop policy cap ks i d w len = .ok (out, e)) (hl : len ≤ cap) :
    len + out.length ≤ cap := by
  induction ks generalizing i d w len out with
  | nil => simp only [decodeLoop, Except.ok.injEq, Prod.mk.injEq] at h; obtain ⟨rfl, _⟩ := h; simpa using hl
  | cons k ks ih =>
    simp only [decodeLoop] at h
    split at h
    · simp at h
    · split at h
      · simp at h
      · rename_i hle
        split at h
        · simp at h
        · split at h
          · simp at h
          · rename_i hrec
            simp only [Except.ok.injEq, Prod.mk.injEq] at h
            obtain ⟨rfl, rfl⟩ := h
            have := ih hrec (by omega)
            simp only [List.length_append]; omega

/-- The decoder's output is never longer than out_cap (41_lzw_core.md R94). -/
theorem decodeCodes_length {policy : Nat → Admission} {cap : Nat} {ks : List Nat} {out : List Symbol} {d : Dict}
    (h : decodeCodes policy ks cap = .ok (out, d)) : out.length ≤ cap := by
  unfold decodeCodes at h
  split at h
  · simp only [Except.ok.injEq, Prod.mk.injEq] at h; obtain ⟨rfl, _⟩ := h; simp
  · split at h
    · split at h
      · simp at h
      · split at h
        · simp at h
        · rename_i hle
          split at h
          · simp at h
          · rename_i hrec
            simp only [Except.ok.injEq, Prod.mk.injEq] at h
            obtain ⟨rfl, _⟩ := h
            have := decodeLoop_length hrec (by omega)
            simpa using this
    · simp at h

theorem compressRegularBytes_length {cap : Nat} {xs : List Symbol} {c : Completion}
    (h : compressRegularBytes cap xs = .ok c) : c.out.length ≤ cap := by
  unfold compressRegularBytes at h
  split at h
  · simp at h
  · simp only at h
    split at h
    · simp at h
    · simp only [Except.ok.injEq] at h; subst h; simp only; omega

theorem compressImprovedBytes_length {dc : Option Nat} {cap : Nat} {xs : List Symbol} {c : Completion}
    (h : compressImprovedBytes dc cap xs = .ok c) : c.out.length ≤ cap := by
  unfold compressImprovedBytes at h
  split at h
  · simp at h
  · simp only at h
    split at h
    · simp at h
    · simp only [Except.ok.injEq] at h; subst h; simp only; omega

theorem decompressRegularBytes_length {cap : Nat} {ys : List Byte} {c : Completion}
    (h : decompressRegularBytes cap ys = .ok c) : c.out.length ≤ cap := by
  simp only [decompressRegularBytes] at h
  split at h
  · simp at h
  · split at h
    · simp only [Except.ok.injEq] at h; subst h; simp
    · split at h
      · simp at h
      · split at h
        · simp at h
        · rename_i hd
          simp only [Except.ok.injEq] at h; subst h
          exact decodeCodes_length hd

theorem decompressImprovedBytes_length {dc : Option Nat} {cap : Nat} {ys : List Byte} {c : Completion}
    (h : decompressImprovedBytes dc cap ys = .ok c) : c.out.length ≤ cap := by
  simp only [decompressImprovedBytes] at h
  split at h
  · simp at h
  · split at h
    · simp only [Except.ok.injEq] at h; subst h; simp
    · split at h
      · simp at h
      · split at h
        · simp at h
        · rename_i hd
          simp only [Except.ok.injEq] at h; subst h
          exact decodeCodes_length hd

/-- No command's output is longer than its capacity (10_state.md R29). -/
theorem codecOf_length {i : Instr} {s : State} {xs : List Byte} {c : Completion} (h : codecOf i s xs = .ok c) :
    c.out.length ≤ s.outCapacity := by
  cases i with
  | compressRegular => exact compressRegularBytes_length h
  | decompressRegular => exact decompressRegularBytes_length h
  | compressImproved => exact compressImprovedBytes_length h
  | decompressImproved => exact decompressImprovedBytes_length h

end Sys2Proof.Machine
end

