-- ==== Sys2Proof/Laws/Codec.lean ====
section
/-! SUPPORT. Laws of the two codecs' parts: widths, the encode and decode loops, reading codes, the grow schedule. -/

namespace Sys2Proof.Machine

/-! ## Widths -/

/-- A number fits its bit length. -/
theorem bitlen_lt (v) : v < 2 ^ bitlen v := by
  unfold bitlen; split
  · simp [*]
  · exact Nat.lt_log2_self

/-- The bit length is the least width that holds a number (00_scope.md R11). -/
theorem bitlen_le {v w} (h : v < 2 ^ w) : bitlen v ≤ w := by
  unfold bitlen; split
  · omega
  · have := (Nat.log2_lt (by assumption)).mpr h; omega

/-- A number between two powers of two has the upper one's exponent for bit length. -/
theorem bitlen_eq {v w} (h1 : 2 ^ w ≤ v) (h2 : v < 2 ^ (w+1)) : bitlen v = w + 1 := by
  apply Nat.le_antisymm (bitlen_le h2)
  by_contra h
  have : bitlen v ≤ w := by omega
  have h3 := bitlen_lt v
  have : 2 ^ bitlen v ≤ 2 ^ w := Nat.pow_le_pow_right (by simp) this
  omega

/-- A field of `n` bits is below 2^n. -/
theorem bitsToNat_take_lt {S : Bits} {n : Nat} : bitsToNat (S.take n) < 2 ^ n := by
  have := bitsToNat_lt (S.take n)
  have h2 : 2 ^ (S.take n).length ≤ 2 ^ n := Nat.pow_le_pow_right (by simp) (by simp)
  omega

/-- The width and the count a header gives, and its 36 bits (40_bitchannel.md R82). -/
theorem readHeader_range {S w n} (h : readHeader S = some (w, n)) : 1 ≤ w ∧ w ≤ 16 ∧ n < 2 ^ 32 ∧ 36 ≤ S.length := by
  by_cases hl : S.length < 36
  · rw [readHeader_none hl] at h; simp at h
  · rw [readHeader_some (by omega)] at h
    simp only [Option.some.injEq, Prod.mk.injEq] at h
    obtain ⟨rfl, rfl⟩ := h
    have := fieldWidth_range (f := bitsToNat (S.take 4)) (bitsToNat_take_lt (n := 4))
    exact ⟨this.1, this.2, bitsToNat_take_lt (n := 32), by omega⟩

/-! ## The encode loop -/

/-- What a run of the encode loop keeps and gives: how many codes, how large code `i` is, when there is none, and how
far nextCode can go (41_lzw_core.md R87, R88). -/
theorem encodeLoop_facts {policy xs d w n codes e} (h : encodeLoop policy xs d w n = .ok (codes, e))
    (hr : EncodeReady d w) (hn : d.nextCode ≤ 256 + n) :
    codes.length ≤ xs.length + (if w = [] then 0 else 1) ∧
      (∀ (i : Nat) (h : i < codes.length), codes[i] ≤ 255 + n + i) ∧ (codes = [] ↔ xs = [] ∧ w = []) ∧
      e.nextCode ≤ d.nextCode + codes.length ∧ (∀ k ∈ codes, k < e.nextCode) ∧ d.nextCode ≤ e.nextCode := by
  induction xs generalizing d w n codes with
  | nil =>
    simp only [encodeLoop, Except.ok.injEq, Prod.mk.injEq] at h
    obtain ⟨rfl, rfl⟩ := h
    by_cases hw : w = []
    · simp [hw]
    · have := emit_lt (hr.pending.resolve_left hw)
      rw [hr.dense] at this
      simp [hw]; omega
  | cons c xs ih =>
    simp only [encodeLoop] at h
    split at h
    · rename_i hs
      have := ih h (hr.extend hs) hn
      simp only [List.length_cons]
      simp at this
      obtain ⟨a, b, c, d⟩ := this
      refine ⟨?_, b, ?_, d⟩
      · split <;> omega
      · simp [c]
    · rename_i hs
      have hmem := hr.pending_of_no_entry hs
      have hw : w ≠ [] := by
        rintro rfl; exact hs ((codeOf_isSome d [c]).mpr (hr.single c))
      split at h
      · simp at h
      · rename_i d' hd
        split at h
        · simp at h
        · rename_i codes' e' hrec
          simp only [Except.ok.injEq, Prod.mk.injEq] at h
          obtain ⟨rfl, rfl⟩ := h
          have hd' : d'.nextCode ≤ d.nextCode + 1 ∧ d.nextCode ≤ d'.nextCode := by
            rcases register_cases hd with ⟨_, rfl⟩ | ⟨_, rfl⟩ <;> simp
          have := ih hrec (hr.restart c hd) (by omega)
          simp at this
          obtain ⟨a, b, c', d1, e1, f1⟩ := this
          have he := emit_lt hmem
          rw [hr.dense] at he
          refine ⟨by simp [hw]; omega, ?_, by simp, by simp; omega, ?_, by omega⟩
          · intro i hi
            cases i with
            | zero => simp; omega
            | succ i => have := b i (by simpa using hi); simp; omega
          · intro k hk
            simp at hk
            rcases hk with rfl | hk
            · omega
            · exact e1 k hk

/-- The Regular policy never answers Full (42_regular.md R98). -/
theorem admitRegular_not_full (n) : admitRegular n ≠ .full := by unfold admitRegular; split <;> simp

/-- An encoding under a policy that never answers Full succeeds. -/
theorem encodeLoop_total {policy xs d w n} (h : ∀ n, policy n ≠ .full) : ∃ codes e, encodeLoop policy xs d w n = .ok
    (codes, e) := by
  induction xs generalizing d w n with
  | nil => simp [encodeLoop]
  | cons c xs ih =>
    simp only [encodeLoop]
    split
    · exact ih
    · split
      · rename_i hh; exact absurd (register_none.mp hh) (h _)
      · rename_i d' _
        obtain ⟨codes, e, he⟩ := ih (d := d') (w := [c]) (n := n+1)
        simp [he]

/-- The encode loop's one error is DICT_FULL (41_lzw_core.md R87). -/
theorem encodeLoop_error {policy xs d w n r} (h : encodeLoop policy xs d w n = .error r) : r.code = .dictFull := by
  induction xs generalizing d w n with
  | nil => simp [encodeLoop] at h
  | cons c xs ih =>
    simp only [encodeLoop] at h
    split at h
    · exact ih h
    · split at h
      · simp only [Except.error.injEq] at h; rw [← h]
      · split at h
        · rename_i hh; simp only [Except.error.injEq] at h; subst h; exact ih hh
        · simp at h

/-- Every entry of the seed is one symbol long. -/
theorem seed_short : ∀ q ∈ Dict.seed.entries, q.length ≤ 0 + 1 := by
  intro q hq
  simp only [Dict.seed, List.mem_map] at hq
  obtain ⟨c, _, rfl⟩ := hq
  simp

/-- The n-th emission adds one entry, one symbol longer than an old one at most, so few codes spell a short input only. -/
theorem encodeLoop_spread {policy xs d w n codes e} (h : encodeLoop policy xs d w n = .ok (codes, e))
    (hr : EncodeReady d w) (hs : ∀ q ∈ d.entries, q.length ≤ n + 1) :
    w.length + xs.length ≤ codes.length * (n + codes.length) := by
  induction xs generalizing d w n codes with
  | nil =>
    simp only [encodeLoop, Except.ok.injEq, Prod.mk.injEq] at h
    obtain ⟨rfl, rfl⟩ := h
    by_cases hw : w = []
    · simp [hw]
    · have := hs w (hr.pending.resolve_left hw)
      simp [hw]; omega
  | cons c xs ih =>
    simp only [encodeLoop] at h
    split at h
    · rename_i hx
      have := ih h (hr.extend hx) hs
      simp at this ⊢; omega
    · rename_i hx
      have hw := hs w (hr.pending_of_no_entry hx)
      split at h
      · simp at h
      · rename_i d' hd
        split at h
        · simp at h
        · rename_i codes' e' hrec
          simp only [Except.ok.injEq, Prod.mk.injEq] at h
          obtain ⟨rfl, rfl⟩ := h
          have := ih hrec (hr.restart c hd) (by
            intro q hq
            rcases register_cases hd with ⟨_, rfl⟩ | ⟨_, rfl⟩
            · simp only [entries_insert, List.mem_append, List.mem_singleton] at hq
              rcases hq with hq | rfl
              · have := hs q hq; omega
              · simp; omega
            · have := hs q hq; omega)
          simp at this ⊢
          nlinarith

/-! ## The decode loop -/

/-- The decode loop's errors (41_lzw_core.md R90). -/
theorem decodeLoop_error {policy cap ks i d w len r} (h : decodeLoop policy cap ks i d w len = .error r) : r.code =
    .corruptCode ∨ r.code = .outOverflow ∨ r.code = .dictFull := by
  induction ks generalizing i d w len with
  | nil => simp [decodeLoop] at h
  | cons c xs ih =>
    simp only [decodeLoop] at h
    split at h
    · simp only [Except.error.injEq] at h; rw [← h]; simp
    · split at h
      · simp only [Except.error.injEq] at h; rw [← h]; simp
      · split at h
        · simp only [Except.error.injEq] at h; rw [← h]; simp
        · split at h
          · rename_i hh; simp only [Except.error.injEq] at h; subst h; exact ih hh
          · simp at h

/-- The errors of decodeCodes (41_lzw_core.md R90, R91). -/
theorem decodeCodes_error {policy cap ks r} (h : decodeCodes policy ks cap = .error r) : r.code = .corruptCode ∨
    r.code = .outOverflow ∨ r.code = .dictFull := by
  unfold decodeCodes at h
  split at h
  · simp at h
  · split at h
    · split at h
      · simp only [Except.error.injEq] at h; rw [← h]; simp
      · split at h
        · simp only [Except.error.injEq] at h; rw [← h]; simp
        · split at h
          · rename_i hh; simp only [Except.error.injEq] at h; subst h; exact decodeLoop_error hh
          · simp at h
    · simp only [Except.error.injEq] at h; rw [← h]; simp

/-- The index an error of the decode loop carries is that of one of its codes (41_lzw_core.md R90). -/
theorem decodeLoop_error_index {policy cap ks i d w len r} (h : decodeLoop policy cap ks i d w len = .error r) :
    r.info < i + ks.length := by
  induction ks generalizing i d w len with
  | nil => simp [decodeLoop] at h
  | cons c xs ih =>
    simp only [decodeLoop] at h
    split at h
    · simp only [Except.error.injEq] at h; rw [← h]; simp
    · split at h
      · simp only [Except.error.injEq] at h; rw [← h]; simp
      · split at h
        · simp only [Except.error.injEq] at h; rw [← h]; simp
        · split at h
          · rename_i hh; simp only [Except.error.injEq] at h; subst h; have := ih hh; simp; omega
          · simp at h

/-- The index an error carries is that of a code (41_lzw_core.md R90). -/
theorem decodeCodes_error_index {policy cap ks r} (h : decodeCodes policy ks cap = .error r) : r.info < ks.length := by
  unfold decodeCodes at h
  split at h
  · simp at h
  · split at h
    · split at h
      · simp only [Except.error.injEq] at h; rw [← h]; simp
      · split at h
        · simp only [Except.error.injEq] at h; rw [← h]; simp
        · split at h
          · rename_i hh; simp only [Except.error.injEq] at h; subst h; have := decodeLoop_error_index hh; simp; omega
          · simp at h
    · simp only [Except.error.injEq] at h; rw [← h]; simp

/-- No DICT_FULL under a policy that never answers Full (41_lzw_core.md R86). -/
theorem decodeLoop_not_full {policy cap ks i d w len r} (hf : ∀ n, policy n ≠ .full) (h :
    decodeLoop policy cap ks i d w len = .error r) : r.code ≠ .dictFull := by
  induction ks generalizing i d w len with
  | nil => simp [decodeLoop] at h
  | cons c xs ih =>
    simp only [decodeLoop] at h
    split at h
    · simp only [Except.error.injEq] at h; rw [← h]; simp
    · split at h
      · simp only [Except.error.injEq] at h; rw [← h]; simp
      · split at h
        · rename_i hh; exact absurd (register_none.mp hh) (hf _)
        · split at h
          · rename_i hh; simp only [Except.error.injEq] at h; subst h; exact ih hh
          · simp at h

/-- See `decodeLoop_not_full`. -/
theorem decodeCodes_not_full {policy cap ks r} (hf : ∀ n, policy n ≠ .full) (h : decodeCodes policy ks cap = .error r) :
    r.code ≠ .dictFull := by
  unfold decodeCodes at h
  split at h
  · simp at h
  · split at h
    · split at h
      · simp only [Except.error.injEq] at h; rw [← h]; simp
      · split at h
        · simp only [Except.error.injEq] at h; rw [← h]; simp
        · split at h
          · rename_i hh; simp only [Except.error.injEq] at h; subst h; exact decodeLoop_not_full hf hh
          · simp at h
    · simp only [Except.error.injEq] at h; rw [← h]; simp

/-! ## Reading codes -/

/-- Codes that all fit are read whole, each at its place (40_bitchannel.md R83). -/
theorem readCodes_eq (S : Bits) (W o n : Nat) (h : o + n * W ≤ S.length) :
   readCodes S W o n = some ((List.range n).map fun i => bitsToNat ((S.drop (o + i * W)).take W)) := by
  induction n generalizing o with
  | zero => rfl
  | succ n ih =>
    have e : (n+1) * W = n * W + W := by ring
    simp only [readCodes]
    rw [readFixedWidth_some (by rw [e] at h; omega), ih (o + W) (by rw [e] at h; omega)]
    rw [List.range_succ_eq_map]
    simp only [List.map_cons, List.map_map]
    congr 2
    · simp
    · apply List.map_congr_left
      intro i _
      simp only [Function.comp_apply]
      congr 3
      rw [Nat.succ_mul]; omega

/-! ## The Regular width -/

/-- The fold that takes the largest code. -/
theorem foldl_max_maxCode (codes : List Nat) (a : Nat) : codes.foldl max a = max a (maxCode codes) := by
  induction codes generalizing a with
  | nil => simp [maxCode]
  | cons k ks ih => simp [maxCode, ih, max_assoc]

/-- No code is above the largest. -/
theorem le_maxCode {codes : List Nat} {k} (h : k ∈ codes) : k ≤ maxCode codes := by
  induction codes with
  | nil => simp at h
  | cons a ks ih => simp [maxCode] at h ⊢; rcases h with rfl | h; simp; right; exact ih h

/-- The largest code is one of the codes. -/
theorem maxCode_mem {codes : List Nat} (h : codes ≠ []) : maxCode codes ∈ codes := by
  induction codes with
  | nil => simp at h
  | cons a ks ih =>
    simp only [maxCode]
    by_cases hk : ks = []
    · simp [hk, maxCode]
    · rcases max_choice a (maxCode ks) with h | h <;> rw [h]
      · simp
      · simp [ih hk]

/-- A code region at one width has that width for each code (42_regular.md R101). -/
theorem length_writeCodes (codes : List Nat) (W) : (writeCodes W codes).length = codes.length * W := by
  induction codes with
  | nil => simp [writeCodes]
  | cons k ks ih => simp [writeCodes, ih]; ring

/-! ## The grow schedule -/

/-- One more code is one more grow step. -/
theorem growAfter_succ (n g) : growAfter (n+1) g = growStep (growAfter n g) := by
  induction n generalizing g with
  | zero => rfl
  | succ n ih => rw [growAfter, ih]; rfl

/-- The counter counts the codes (43_improved.md R108). -/
theorem growAfter_simulatedNext (n g) : (growAfter n g).simulatedNext = g.simulatedNext + n := by
  induction n with
  | zero => rfl
  | succ n ih => rw [growAfter_succ, growStep]; split <;> simp [ih] <;> omega

/-- What the schedule keeps from a starting width of 9 or more (43_improved.md R107, R108). -/
theorem growAfter_schedule (W0 i : Nat) (h : 9 ≤ W0) : let g := growAfter i (Grow.start W0)
    g.growAt = 2 ^ g.width ∧ W0 ≤ g.width ∧ 256 + i < g.growAt ∧ (W0 < g.width → 2 ^ (g.width - 1) ≤ 256 + i) := by
  induction i with
  | zero => 
    refine ⟨rfl, le_refl _, ?_, fun h => absurd h (lt_irrefl _)⟩
    have : 2 ^ 9 ≤ 2 ^ W0 := Nat.pow_le_pow_right (by simp) h
    simp [growAfter, Grow.start]; omega
  | succ i ih =>
    intro g
    have hs := growAfter_simulatedNext i (Grow.start W0)
    have e : g = growStep (growAfter i (Grow.start W0)) := growAfter_succ _ _
    obtain ⟨a, b, c, d⟩ := ih
    generalize growAfter i (Grow.start W0) = q at *
    have hq : q.simulatedNext = 256 + i := hs
    rw [e, growStep]
    have hp : 0 < q.growAt := by omega
    split
    · refine ⟨by simp [a, pow_succ]; ring, by simp; omega, by simp; omega, fun _ => by simp [← a]; omega⟩
    · refine ⟨a, b, by simp; omega, fun h => by have := d h; simp; omega⟩

/-- The next code stands past this one's width. -/
theorem growPos_succ (W i) : growPos W (i+1) = growPos W i + (growAfter i (Grow.start W)).width := by
  simp [growPos, List.range_succ]; omega

/-- Later codes stand later. -/
theorem growPos_mono (W) {i j} (h : i ≤ j) : growPos W i ≤ growPos W j := by
  induction h with
  | refl => simp
  | step _ ih => rw [growPos_succ]; omega

/-- Codes that all fit are read whole under the schedule, with the last one's width (43_improved.md R113). -/
theorem readGrowing_eq (S : Bits) (W n i last : Nat) (h : growPos W (i + n) ≤ S.length) :
    readGrowing S n (growPos W i) (growAfter i (Grow.start W)) i last =
      .ok
        ((List.range n).map fun j =>
            bitsToNat ((S.drop (growPos W (i + j))).take (growAfter (i + j) (Grow.start W)).width),
          if n = 0 then last else (growAfter (i + n - 1) (Grow.start W)).width) := by
  induction n generalizing i last with
  | zero => rfl
  | succ n ih =>
    simp only [readGrowing]
    have h1 := growPos_mono W (show i + 1 ≤ i + (n+1) by omega)
    rw [growPos_succ] at h1
    rw [readFixedWidth_some (by omega), ← growPos_succ, ← growAfter_succ, ih (i+1) _ (by rwa [show i + 1 + n = i +
    (n+1) by omega])]
    rw [List.range_succ_eq_map]
    simp only [List.map_cons, List.map_map]
    congr 2
    · congr 1
      apply List.map_congr_left
      intro j _
      simp only [Function.comp_apply, show i + 1 + j = i + j.succ by omega]
    · split
      · rename_i h; simp [h]
      · simp [show i + 1 + n - 1 = i + (n+1) - 1 by omega]

/-- The first code that does not fit ends the reading at its index (43_improved.md R113). -/
theorem readGrowing_short (S : Bits) (W n i t last : Nat) (ht : i ≤ t) (hn : t < i + n) (h : growPos W t ≤ S.length)
    (h2 : S.length < growPos W (t+1)) :
   readGrowing S n (growPos W i) (growAfter i (Grow.start W)) i last = .error t := by
  induction n generalizing i last with
  | zero => omega
  | succ n ih =>
    simp only [readGrowing]
    by_cases he : i = t
    · subst he
      rw [growPos_succ] at h2
      rw [(readFixedWidth_isNone _ _ _).mpr h2]
    · have h1 := growPos_mono W (show i + 1 ≤ t by omega)
      rw [growPos_succ] at h1
      rw [readFixedWidth_some (by omega), ← growPos_succ, ← growAfter_succ, ih (i+1) _ (by omega) (by omega)]

end Sys2Proof.Machine
end

