-- ==== Sys2Proof/Laws/Completion.lean ====
section
/-! SUPPORT. How a command ends, said once for the four of them. -/

namespace Sys2Proof.Machine

/-- The number a register of `w` bits holds, when it fits. -/
theorem toNat_ofNat_lt {w n : Nat} (h : n < 2 ^ w) : (BitVec.ofNat w n).toNat = n := by
  simp [BitVec.toNat_ofNat, Nat.mod_eq_of_lt h]

/-- A latched length fits 32 bits. -/
theorem inLen_lt (s : State) : s.inLength < 2 ^ 32 := s.engine.inLen.isLt

/-- A latched capacity fits 32 bits. -/
theorem outCap_lt (s : State) : s.outCapacity < 2 ^ 32 := s.engine.outCap.isLt

/-- The memory port's one error is BUS_ERROR (20_memory.md R43). -/
theorem memReadAll_error {p m a n r} (h : memReadAll p m a n = .error r) : r.code = .busError := by
  induction n generalizing a with
  | zero => simp [memReadAll] at h
  | succ n ih =>
    simp only [memReadAll, memRead] at h
    split at h
    · rename_i hh
      split at hh
      · simp at hh
      · simp only [Except.error.injEq] at hh h; subst hh; rw [← h]
    · split at h
      · rename_i hh; simp only [Except.error.injEq] at h; subst h; exact ih hh
      · simp at h

/-- See `memReadAll_error` (20_memory.md R44). -/
theorem memWriteAll_error {p m a bs r} (h : memWriteAll p m a bs = .error r) : r.code = .busError := by
  induction bs generalizing a m with
  | nil => simp [memWriteAll] at h
  | cons n bs ih =>
    simp only [memWriteAll, memWrite] at h
    split at h
    · rename_i hh
      split at hh
      · simp at hh
      · simp only [Except.error.injEq] at hh h; subst hh; rw [← h]
    · exact ih h

/-- Where a command fails: at the memory port, or in its codec. -/
theorem commandOutcome_error {codec s r} (h : commandOutcome codec s = .error r) : r.code = .busError ∨
    codec s.inputBytes = .error r := by
  unfold commandOutcome at h
  split at h
  · rename_i hh; simp only [Except.error.injEq] at h; subst h; exact .inl (memReadAll_error hh)
  · rename_i x hx
    have := readInput_eq_ok hx; subst this
    split at h
    · rename_i hh; simp only [Except.error.injEq] at h; subst h; exact .inr hh
    · split at h
      · rename_i hh; simp only [Except.error.injEq] at h; subst h; exact .inl (memWriteAll_error hh)
      · simp at h

/-- A command either completes OK, its output written, or raises a result: a bus error, or its codec's own
(60_exceptions.md R130, R133, R134). -/
theorem exec_split {i s} : (∃ c m, codecOf i s s.inputBytes = .ok c ∧ writeOutput s c.out = .ok m ∧ exec i s = .next
    (completeOk c m s)) ∨
   ∃ r, (r.code = .busError ∨ codecOf i s s.inputBytes = .error r) ∧ exec i s = .next (raiseResult r s) := by
  rw [exec_eq_run]
  unfold runCommand
  split
  · rename_i c m h
    obtain ⟨a, b⟩ := commandOutcome_eq_ok h
    exact .inl ⟨c, m, a, b, rfl⟩
  · rename_i r h
    exact .inr ⟨r, commandOutcome_error h, rfl⟩

/-- The registers of an error completion (60_exceptions.md R133). -/
theorem endedError_raise {s : State} {r : Raise} (h : r.info < 2 ^ 32) :
    endedError (raiseResult r s) r.code r.info := by
  refine ⟨rfl, rfl, rfl, ?_, rfl, rfl, rfl, rfl, rfl⟩
  exact toNat_ofNat_lt h

/-- A refused input byte ends every command with BUS_ERROR at its address (60_exceptions.md R133; 20_memory.md R43).
-/
theorem exec_bus_read {i s} {j : Nat} (hl : s.latchedOk) (h : s.firstRefusedRead j) :
    ∃ t, exec i s = .next t ∧ endedError t .busError (s.inAddr j) := by
  obtain ⟨h1, h2, h3⟩ := h
  refine ⟨raiseResult { code := .busError, info := s.inAddr j } s, ?_, endedError_raise ?_⟩
  · rw [exec_eq_run, runCommand, commandOutcome, readInput_refused h1 h2 h3]
  · have := hl.1; simp only [State.inLength] at h1; simp only [State.inAddr]; omega

/-- A codec's error ends its command with that error (60_exceptions.md R133). -/
theorem exec_raise {i s r} (hr : s.inputReadable) (hc : codecOf i s s.inputBytes = .error r) (h : r.info < 2^32) :
    ∃ t, exec i s = .next t ∧ endedError t r.code r.info :=
  ⟨_, by rw [exec_eq_run, runCommand_raise hr hc], endedError_raise h⟩

/-- A refused output byte ends the command with BUS_ERROR at its address (20_memory.md R44). -/
theorem exec_bus_write {i s c} {j : Nat} (hl : s.latchedOk) (hr : s.inputReadable) (hc : codecOf i s s.inputBytes =
    .ok c)
   (hj : j < c.out.length) (h : s.firstRefusedWrite j) :
    ∃ t, exec i s = .next t ∧ endedError t .busError (s.outAddr j) := by
  refine ⟨raiseResult { code := .busError, info := s.outAddr j } s, ?_, endedError_raise ?_⟩
  · rw [exec_eq_run, runCommand, commandOutcome, readInput_ok hr]
    simp only [hc, writeOutput_refused hj h.1 h.2]
  · have := hl.2.1; have := codecOf_length hc; simp only [State.outCapacity] at this; simp only [State.outAddr]; omega

/-- A codec's completion, written whole, ends its command with OK (60_exceptions.md R134). -/
theorem exec_ok {i s c} {hw hc lw dn} (hm : s.mem.wf = true) (hl : s.latchedOk) (hr : s.inputReadable) (hcc :
    codecOf i s s.inputBytes = .ok c)
   (hwr : s.outputWritable c.out.length) (h1 : c.hdrWidth = hw) (h2 : c.hdrCount = hc) (h3 : c.lastWidth = lw) (h4 :
    saturate32 c.dictNext = dn)
   (b1 : hw < 32) (b2 : hc < 2^32) (b3 : lw < 64) :
    ∃ t, exec i s = .next t ∧ endedOk s t c.out hw hc lw dn := by
  refine ⟨_, by rw [exec_eq_run, runCommand_ok hr hcc hwr], ?_⟩
  have hlen := codecOf_length hcc
  have hcap := outCap_lt s
  refine ⟨rfl, rfl, rfl, rfl, toNat_ofNat_lt (by omega), ?_, ?_, ?_, ?_, ?_⟩
  · exact (toNat_ofNat_lt (w := 5) (by omega)).trans h1
  · exact (toNat_ofNat_lt (w := 32) (by omega)).trans h2
  · exact (toNat_ofNat_lt (w := 6) (by omega)).trans h3
  · exact (toNat_ofNat_lt (w := 32) (by unfold saturate32; omega)).trans h4
  · intro j h
    have := read_writeAll_inside (m := s.mem) (a := s.outAddr 0) (bs := c.out) hm (by
      have := hl.2.1; simp only [State.outCapacity] at hlen; simp only [State.outAddr, Config.memorySize]; omega)
      (j := j) h
    simpa [State.outAddr] using this

end Sys2Proof.Machine
end

