-- ==== Sys2Proof/Laws/PerInstr.lean ====
section
/-! SUPPORT. Per-command facts about the syntax: the family Encoding. -/

namespace Sys2Proof.Laws.Encoding

/-- A command's word is legal, its table row's match value, and decodes to the command (30_encoding.md R60, R61). -/
def Statement (i : Instr) : Prop := wordLegal (encode i) = true ∧ (decode (encode i)).toOption = some i ∧ i.wf = true

theorem compressRegular : Statement .compressRegular := by unfold Statement; decide
theorem decompressRegular : Statement .decompressRegular := by unfold Statement; decide
theorem compressImproved : Statement .compressImproved := by unfold Statement; decide
theorem decompressImproved : Statement .decompressImproved := by unfold Statement; decide

end Sys2Proof.Laws.Encoding
end

