-- ==== Sys2Proof/Laws/Step.lean ====
section
/-! SUPPORT. What a step can do, said once: the register writes, the host's lines, and the three agents' moves. -/

namespace Sys2Proof.Machine

theorem busy_iff (s : State) : s.busy = true ↔ s.engine.phase = .run := by
  unfold State.busy
  split <;> simp_all

theorem not_busy_iff (s : State) : s.busy = false ↔ s.engine.phase = .idle := by
  unfold State.busy
  split <;> simp_all

/-! ## The register map -/

/-- The register at an offset is the one with that offset (10_state.md R22). -/
theorem regAt_eq_some {off : BitVec 8} {r : Reg} : regAt off = some r ↔ off = r.offset := by
  constructor
  · cases r <;> revert off <;> decide
  · rintro rfl; cases r <;> rfl

/-- The reserved offsets hold no register (10_state.md R37). -/
theorem regAt_reserved {off : BitVec 8} (h : 0x38 ≤ off.toNat) : regAt off = none := by
  revert off; decide

/-- An access is well formed exactly when it is 32 bits wide at a multiple of 4 (20_memory.md R48). -/
theorem accessOk_iff (off : BitVec 8) (width : BusWidth) :
    accessOk off width = true ↔ width = .bits32 ∧ off.toNat % 4 = 0 := by
  cases width with
  | bits32 => revert off; decide
  | bits16 => simp [accessOk]
  | bits8 => simp [accessOk]

/-! ## Register writes -/

/-- What a CMD write while BUSY = 0 does (44_command_interface.md R118). -/
theorem startCommand_cases (v : Word) (s : State) :
    (∃ e, decode v = .error e ∧ startCommand v s = setErrorRegs .illegalCommand v (latchCmd v s)) ∨
      (∃ i, decode v = .ok i ∧ buffersBad s.inBase s.inLen s.outBase s.outCap = true ∧
        startCommand v s = setErrorRegs .badBuffer 0#32 (latchCmd v s)) ∨
      ∃ i, decode v = .ok i ∧ buffersBad s.inBase s.inLen s.outBase s.outCap = false ∧
        startCommand v s = accept v (latchCmd v s) := by
  unfold startCommand
  split
  · rename_i e he; exact .inl ⟨e, he, rfl⟩
  · rename_i i hi
    split
    · rename_i hb; exact .inr (.inl ⟨i, hi, hb, rfl⟩)
    · rename_i hb; exact .inr (.inr ⟨i, hi, by simpa using hb, rfl⟩)

/-- What a register write can do: nothing, set IGNORED_WRITE while busy, clear STATUS bits, set DONE_IE, and, only while
idle, set a buffer register or start a command (44_command_interface.md R125, R126). -/
theorem writeOffset_cases (off : BitVec 8) (v : Word) (s : State) :
    writeOffset off v s = s ∨ (s.busy = true ∧ writeOffset off v s = noteIgnoredWrite s) ∨
      writeOffset off v s = writeStatus v s ∨ writeOffset off v s = writeIntEn v s ∨
      (s.busy = false ∧
        (writeOffset off v s = startCommand v s ∨ writeOffset off v s = setInBase v s ∨
          writeOffset off v s = setInLen v s ∨ writeOffset off v s = setOutBase v s ∨
          writeOffset off v s = setOutCap v s)) := by
  unfold writeOffset
  cases regAt off with
  | none => exact .inl rfl
  | some r =>
    cases hb : s.busy <;> cases r <;> simp [writeReg, unlessBusy, hb]

/-! ## The host -/

/-- The stores before the program runs go on exactly when none of them is a fault, and then the program begins
(30_encoding.md R74). -/
theorem hostPreload_next {s t : State} (h : hostPreload s = .next t) :
    (∀ l ∈ s.host.memLines, storeFault s l.1.toNat l.2.length = none) ∧ t = beginProgram s := by
  unfold hostPreload at h
  split at h
  · simp at h
  · rename_i hn
    exact ⟨List.findSome?_eq_none_iff.mp hn, by simpa using h.symm⟩

/-- What a host step that goes on can do. -/
theorem hostStep_cases {s t : State} (h : hostStep s = .next t) :
    t = s ∨ t = advanceLine s ∨ (∃ off v, accessOk off .bits32 = true ∧ t = advanceLine (writeOffset off v s)) ∨
      (∃ v, t = returnRead v s) ∨ (∃ v, t = advanceLine (returnRead v s)) ∨ (∃ n v, t = gotoLine n (returnRead v s)) ∨
      (∃ a bs, storeFault s a bs.length = none ∧ t = advanceLine (storeBytes a bs s)) ∨
      (s.host.memLoaded = false ∧ (∀ l ∈ s.host.memLines, storeFault s l.1.toNat l.2.length = none) ∧
        t = beginProgram s) := by
  unfold hostStep at h
  by_cases hm : s.host.memLoaded = true
  case neg =>
    rw [if_neg hm] at h
    obtain ⟨hf, rfl⟩ := hostPreload_next h
    exact .inr (.inr (.inr (.inr (.inr (.inr (.inr ⟨by simpa using hm, hf, rfl⟩))))))
  rw [if_pos hm] at h
  split at h
  · simp only [Host.Outcome.next.injEq] at h; exact .inl h.symm
  · rename_i op _
    cases op with
    | wr off width v =>
      simp only [hostPerform, hostWrite] at h
      split at h
      · rename_i hok
        simp only [Host.Outcome.next.injEq] at h
        cases width with
        | bits32 => exact .inr (.inr (.inl ⟨off, v, hok, h.symm⟩))
        | bits16 => simp [accessOk] at hok
        | bits8 => simp [accessOk] at hok
      · simp at h
    | rd off width =>
      simp only [hostPerform, hostRead] at h
      split at h
      · simp only [Host.Outcome.next.injEq] at h
        exact .inr (.inr (.inr (.inr (.inl ⟨_, h.symm⟩))))
      · simp at h
    | poll off f v =>
      simp only [hostPerform, hostPoll] at h
      split at h
      · simp only [Host.Outcome.next.injEq] at h
        split at h
        · exact .inr (.inr (.inr (.inr (.inl ⟨_, h.symm⟩))))
        · exact .inr (.inr (.inr (.inl ⟨_, h.symm⟩)))
      · simp at h
    | ifne off f v l =>
      simp only [hostPerform, hostIfne] at h
      split at h
      · split at h
        · simp only [Host.Outcome.next.injEq] at h
          exact .inr (.inr (.inr (.inr (.inl ⟨_, h.symm⟩))))
        · split at h
          · simp only [Host.Outcome.next.injEq] at h
            exact .inr (.inr (.inr (.inr (.inr (.inl ⟨_, _, h.symm⟩)))))
          · simp at h
      · simp at h
    | label n =>
      simp only [hostPerform, Host.Outcome.next.injEq] at h
      exact .inr (.inl h.symm)
    | mem a bs =>
      simp only [hostPerform, Host.Outcome.next.injEq] at h
      exact .inr (.inl h.symm)
    | store a bs =>
      simp only [hostPerform, hostStore] at h
      split at h
      · simp at h
      · rename_i hz
        simp only [Host.Outcome.next.injEq] at h
        exact .inr (.inr (.inr (.inr (.inr (.inr (.inl ⟨a.toNat, bs, hz, h.symm⟩))))))
    | load a =>
      simp only [hostPerform, hostLoad] at h
      split at h
      · simp at h
      · simp only [Host.Outcome.next.injEq] at h
        exact .inr (.inr (.inr (.inr (.inl ⟨_, h.symm⟩))))
    | stop =>
      simp only [hostPerform, Host.Outcome.next.injEq] at h
      exact .inl h.symm

/-- A host access meets no hazard exactly when no byte of it does (20_memory.md R55). -/
theorem firstHazard_none {k : Access} {s : State} {a n : Nat} :
    firstHazard k s a n = none ↔ ∀ j < n, hazardAt k s (a + j) = false := by
  induction n generalizing a with
  | zero => simp [firstHazard]
  | succ n ih =>
    simp only [firstHazard]
    split
    · rename_i h
      simp only [reduceCtorEq, false_iff]
      intro hc
      have := hc 0 (by omega)
      simp_all
    · rename_i h
      rw [ih]
      constructor
      · intro hh j hj
        cases j with
        | zero => simpa using h
        | succ j =>
          have := hh j (by omega)
          rwa [show a + 1 + j = a + (j + 1) by omega] at this
      · intro hh j hj
        have := hh (j + 1) (by omega)
        rwa [show a + 1 + j = a + (j + 1) by omega]

/-- Stores that end within host memory keep the canonical form. -/
theorem wf_storeLines {m : Memory} {ls : List (Word × List Byte)} (h : m.wf = true)
    (hs : ∀ l ∈ ls, l.1.toNat + l.2.length ≤ Config.memorySize) : (storeLines m ls).wf = true := by
  induction ls generalizing m with
  | nil => exact h
  | cons l ls ih => exact ih (wf_writeAll h (hs l (by simp))) fun x hx => hs x (by simp [hx])

/-- A byte that no line names keeps its value. -/
theorem read_storeLines_outside {m : Memory} {ls : List (Word × List Byte)} {x : Nat}
    (h : ∀ l ∈ ls, x < l.1.toNat ∨ l.1.toNat + l.2.length ≤ x) : (storeLines m ls).read x = m.read x := by
  induction ls generalizing m with
  | nil => rfl
  | cons l ls ih =>
    have := ih (m := m.writeAll l.1.toNat l.2) fun y hy => h y (by simp [hy])
    rw [read_writeAll_outside _ _ _ (h l (by simp))] at this
    exact this

/-- The lines stored before the program runs are the program's MEM lines (30_encoding.md R74). -/
theorem mem_memLines {h : HostPort} {l : Word × List Byte} : l ∈ h.memLines ↔ HostOp.mem l.1 l.2 ∈ h.program := by
  simp only [HostPort.memLines, List.mem_filterMap]
  constructor
  · rintro ⟨op, ho, he⟩
    cases op <;> simp [HostOp.memLine?] at he
    subst he; exact ho
  · intro ho; exact ⟨_, ho, rfl⟩

/-- A host store is no fault exactly when it ends within host memory and meets no hazard (20_memory.md R42, R55). -/
theorem storeFault_none {s : State} {a n : Nat} :
    storeFault s a n = none ↔ a + n ≤ Config.memorySize ∧ ∀ j < n, hazardAt .write s (a + j) = false := by
  unfold storeFault
  split
  · rename_i h
    exact ⟨fun hn => by simp at hn, fun hn => absurd hn.1 (by omega)⟩
  · simp only [Option.map_eq_none_iff, firstHazard_none]
    exact ⟨fun h => ⟨by omega, h⟩, fun h => h.2⟩

/-! ## The step -/

/-- On the host's turn, before the program runs, the MEM lines are stored (30_encoding.md R74). -/
theorem step_host_preload {s : State} (ht : s.turn = .host) (hm : s.host.memLoaded = false) :
    step s = hostPreload (popSlot s) := by
  simp [step, ht, hostStep, hm]

/-- On the host's turn the host's next line is performed. -/
theorem step_host_line {s : State} {op : HostOp} (ht : s.turn = .host) (hm : s.host.memLoaded = true)
    (h : s.host.program[s.host.line]? = some op) : step s = hostPerform op (popSlot s) := by
  simp [step, ht, hostStep, hm, h]

/-- On the host's turn nothing happens where its program has ended. -/
theorem step_host_done {s : State} (ht : s.turn = .host) (hm : s.host.memLoaded = true)
    (h : s.host.program[s.host.line]? = none) : step s = .next (popSlot s) := by
  simp [step, ht, hostStep, hm, h]

/-- What a command can do: complete OK with its codec's completion, the output written, or raise a result. -/
theorem exec_cases {i : Instr} {s t : State} (h : exec i s = .next t) :
    (∃ c m, codecOf i s s.inputBytes = .ok c ∧ writeOutput s c.out = .ok m ∧ t = completeOk c m s) ∨
      ∃ r, t = raiseResult r s := by
  rw [exec_eq_run] at h
  simp only [Host.Outcome.next.injEq] at h
  rcases runCommand_cases (codecOf i s) s with ⟨c, m, h1, h2, h3⟩ | ⟨r, h3⟩
  · exact .inl ⟨c, m, h1, h2, by rw [← h, h3]⟩
  · exact .inr ⟨r, by rw [← h, h3]⟩

/-- What a step that goes on can do: a host step, the reset input, an idle engine's nothing, or the running command. -/
theorem step_cases {s t : State} (h : step s = .next t) :
    (s.turn = .host ∧ hostStep (popSlot s) = .next t) ∨ (s.turn = .reset ∧ t = assertReset (popSlot s)) ∨
      (s.turn = .engine ∧ s.busy = false ∧ t = popSlot s) ∨
      ∃ i, s.turn = .engine ∧ s.busy = true ∧ decodeOp s.engine.op = .ok i ∧ exec i (popSlot s) = .next t := by
  unfold step at h
  split at h
  · rename_i ht; exact .inl ⟨ht, h⟩
  · rename_i ht; simp only [Host.Outcome.next.injEq] at h; exact .inr (.inl ⟨ht, h.symm⟩)
  · rename_i ht
    split at h
    · rename_i hf
      simp only [Host.Outcome.next.injEq] at h
      refine .inr (.inr (.inl ⟨ht, ?_, h.symm⟩))
      unfold fetchCommand at hf
      split at hf
      · rename_i hp; exact (not_busy_iff s).mpr hp
      · simp at hf
    · rename_i i hf
      refine .inr (.inr (.inr ⟨i, ht, ?_, ?_, h⟩))
      · unfold fetchCommand at hf
        split at hf
        · simp at hf
        · rename_i hp; exact (busy_iff s).mpr hp
      · unfold fetchCommand at hf
        split at hf
        · simp at hf
        · simpa using hf
    · simp at h

/-- The four legal operations, and no other, decode (30_encoding.md R61). -/
theorem decodeOp_ok_iff (op : BitVec 4) : (∃ i, decodeOp op = .ok i) ↔ opLegal op = true := by
  have key : ∀ op : BitVec 4, (decodeOp op).toOption.isSome = opLegal op := by decide
  rw [← key op]
  cases decodeOp op <;> simp [Except.toOption]

/-- A word decodes exactly when it is legal (30_encoding.md R61, R62). -/
theorem decode_ok_iff (w : Word) : (∃ i, decode w = .ok i) ↔ wordLegal w = true := by
  unfold decode wordLegal
  cases hz : rsvdZero w with
  | true => simpa [opField] using decodeOp_ok_iff (w.extractLsb' 0 4)
  | false => simp

end Sys2Proof.Machine
end

