-- ==== Sys2Proof/Tests/Slice0.lean ====
section
/-! SUPPORT. The model's own tests. Expected values come from spec/95_test_vectors.md (the section is named) or are worked out
by hand from the rule named; after them, for each obligation with hypotheses, a state and operands that meet them. -/

namespace Sys2Proof.Tests

open Sys2Proof.Machine

/-! ## Well-formedness: what each check refuses -/

theorem test_reserved_bit_refused : rsvdZero 0x00000011#32 = false ∧ rsvdZero 0x80000001#32 = false := by decide
theorem test_reserved_op_refused : opLegal 0x0#4 = false ∧ opLegal 0x5#4 = false ∧ opLegal 0xF#4 = false := by decide
theorem test_illegal_words_refused :
    wordLegal 0x00000000#32 = false ∧ wordLegal 0x00000005#32 = false ∧ wordLegal 0xFFFFFFF1#32 = false := by decide
theorem test_dict_cap_refused :
    dictCapLegal (some 65535) = false ∧ dictCapLegal (some (2 ^ 32 + 1)) = false ∧ dictCapLegal (some 65536) = true ∧
      dictCapLegal (some (2 ^ 32)) = true ∧ dictCapLegal none = true := by decide

/-! ## Decoding, from the words of 30_encoding.md R61 written bit by bit (bits 31:4 zero, then the four OP bits) -/

theorem test_decode_compress_regular : (decode (0#28 ++ 0b0001#4)).toOption = some .compressRegular := by decide
theorem test_decode_decompress_regular : (decode (0#28 ++ 0b0010#4)).toOption = some .decompressRegular := by decide
theorem test_decode_compress_improved : (decode (0#28 ++ 0b0011#4)).toOption = some .compressImproved := by decide
theorem test_decode_decompress_improved : (decode (0#28 ++ 0b0100#4)).toOption = some .decompressImproved := by decide
theorem test_decode_refuses :
    (decode (0#28 ++ 0b0000#4)).toOption = none ∧ (decode (0#28 ++ 0b0101#4)).toOption = none ∧
      (decode (1#28 ++ 0b0001#4)).toOption = none ∧ (decode (0x8000000#28 ++ 0b0100#4)).toOption = none := by decide

/-! ## BitChannel (95_test_vectors.md 1.6, 2.1) -/

theorem test_bytes_to_bits :
    bytesToBits [0xA5] = [true, false, true, false, false, true, false, true] ∧ bytesToBits [] = [] := by decide
theorem test_bits_to_bytes :
    bitsToBytes [true, false, true] = [0xA0] ∧ bitsToBytes (List.replicate 36 false) = [0, 0, 0, 0, 0] ∧
      bitsToBytes [] = [] := by decide
theorem test_write_fixed_width :
    writeFixedWidth [] 5 3 = [true, false, true] ∧ writeFixedWidth [] 0x1FF 8 = List.replicate 8 true ∧
      writeFixedWidth [] 16 4 = List.replicate 4 false ∧ writeFixedWidth [] 7 0 = [] := by decide
theorem test_read_fixed_width :
    readFixedWidth [true, false, true, true] 1 3 = some 3 ∧ readFixedWidth [true, false, true, true] 2 3 = none ∧
      readFixedWidth [true, false, true, true] 4 0 = some 0 := by decide
theorem test_write_header :
    bitsToBytes (writeHeader [] 16 (2 ^ 32 - 1)) = [0x0F, 0xFF, 0xFF, 0xFF, 0xF0] ∧
      bitsToBytes (writeHeader [] 9 1) = [0x90, 0x00, 0x00, 0x00, 0x10] := by decide +kernel
theorem test_read_header :
    readHeader (bytesToBits [0x80, 0, 0, 0, 0]) = some (8, 0) ∧
      readHeader (bytesToBits [0x00, 0, 0, 0, 0]) = some (16, 0) ∧
      readHeader (bytesToBits [0x90, 0, 0, 0]) = none := by decide +kernel
theorem test_decode_fixed_width_array :
    (decodeFixedWidthArray (bytesToBits [0x80, 0, 0, 0, 0x24, 0x14, 0x20]) 36 8 2).toOption = some [0x41, 0x42] ∧
      (decodeFixedWidthArray (bytesToBits [0x80, 0, 0, 0, 0x24, 0x14, 0x20]) 36 8 3).toOption = none := by
  decide +kernel

/-! ## LzwCore (95_test_vectors.md 2.2; 41_lzw_core.md R87, R90) -/

theorem test_encode_symbols :
    (encodeSymbols (admitImproved none) [0x41, 0x42, 0x41, 0x42, 0x41, 0x42, 0x41]).toOption.map
      (fun r => (r.1, r.2.nextCode)) = some ([65, 66, 256, 258], 259) := by decide +kernel
theorem test_decode_codes_kwkwk :
    (decodeCodes (admitImproved none) [97, 256, 97] 4).toOption.map (fun r => (r.1, r.2.nextCode)) =
      some ([0x61, 0x61, 0x61, 0x61], 258) := by decide +kernel

/-- The error of a decoding, as its code and its index. -/
def errorOf {α : Type} : Except Raise α → Option (ResultCode × Nat)
  | .ok _ => none
  | .error r => some (r.code, r.info)

/-- 41_lzw_core.md R90, R91: corrupt first code, corrupt later code, overflow before full. -/
theorem test_decode_codes_errors :
    errorOf (decodeCodes admitRegular [256] 9) = some (.corruptCode, 0) ∧
      errorOf (decodeCodes admitRegular [65, 257] 9) = some (.corruptCode, 1) ∧
      errorOf (decodeCodes admitRegular [65, 256] 2) = some (.outOverflow, 1) ∧
      errorOf (decodeCodes (admitImproved (some 256)) [65, 65] 9) = some (.dictFull, 1) ∧
      errorOf (decodeCodes (admitImproved (some 256)) [65, 65] 1) = some (.outOverflow, 1) ∧
      errorOf (decodeCodes (admitImproved (some 256)) [65, 257] 1) = some (.corruptCode, 1) := by decide +kernel

/-- 43_improved.md R109: 9 bits for code 0 and 255, 10 for code 256 and 767, 11 for code 768. -/
theorem test_grow_widths :
    (growAfter 0 (Grow.start 9)).width = 9 ∧ (growAfter 255 (Grow.start 9)).width = 9 ∧
      (growAfter 256 (Grow.start 9)).width = 10 ∧ (growAfter 767 (Grow.start 9)).width = 10 ∧
      (growAfter 768 (Grow.start 9)).width = 11 := by decide +kernel

/-! ## One step of each command

A running command: `bytes` at 0x1000, an output buffer of `cap` bytes at 0x2000, the engine next. -/

/-- The state of a running command. -/
def running (i : Instr) (bytes : List Byte) (cap : Word) : State :=
  State.withFetchWord
    { State.reset with
      inBase := 0x1000#32, inLen := BitVec.ofNat 32 bytes.length, outBase := 0x2000#32, outCap := cap
      mem := Memory.writeAll [] 0x1000 bytes }
    32 (encode i).toNat

/-- What a test looks at: RESULT, ERR_INFO, the counts and widths, and the output bytes. -/
def shows (o : Host.Outcome State Fault Refusal) : Option (ResultCode × List Nat × List Byte) :=
  match o with
  | .next s =>
    some
      (s.result,
        [s.errInfo.toNat, s.outLen.toNat, s.hdrWidth.toNat, s.hdrCount.toNat, s.lastWidth.toNat, s.dictNext.toNat],
        (List.range s.outLen.toNat).map fun j => s.mem.read (0x2000 + j))
  | .fault _ => none
  | .refused _ => none

/-- 42_regular.md R102: "AB". -/
theorem test_compress_regular_ab :
    shows (step (running .compressRegular [0x41, 0x42] 16#32)) =
      some (.ok, [0, 7, 8, 2, 8, 257], [0x80, 0x00, 0x00, 0x00, 0x24, 0x14, 0x20]) := by decide +kernel
/-- 42_regular.md R102: the empty input in four bytes of output. -/
theorem test_compress_regular_overflow :
    shows (step (running .compressRegular [] 4#32)) = some (.outOverflow, [5, 0, 0, 0, 0, 0], []) := by decide +kernel
/-- 42_regular.md R103: "AB" back. -/
theorem test_decompress_regular_ab :
    shows (step (running .decompressRegular [0x80, 0x00, 0x00, 0x00, 0x24, 0x14, 0x20] 2#32)) =
      some (.ok, [0, 2, 8, 2, 8, 257], [0x41, 0x42]) := by decide +kernel
/-- 42_regular.md R103: a count of 3 over two codes. -/
theorem test_decompress_regular_truncated :
    shows (step (running .decompressRegular [0x80, 0x00, 0x00, 0x00, 0x34, 0x14, 0x20] 16#32)) =
      some (.truncatedStream, [2, 0, 0, 0, 0, 0], []) := by decide +kernel
/-- 95_test_vectors.md 1.8: "aaaa". -/
theorem test_compress_improved_aaaa :
    shows (step (running .compressImproved [0x61, 0x61, 0x61, 0x61] 16#32)) =
      some (.ok, [0, 8, 9, 3, 9, 258], [0x90, 0x00, 0x00, 0x00, 0x33, 0x0C, 0x00, 0xC2]) := by decide +kernel
/-- 43_improved.md R112: the empty input. -/
theorem test_compress_improved_empty :
    shows (step (running .compressImproved [] 5#32)) =
      some (.ok, [0, 5, 9, 0, 0, 256], [0x90, 0x00, 0x00, 0x00, 0x00]) := by decide +kernel
/-- 43_improved.md R113: "aaaa" back, its middle code not yet registered. -/
theorem test_decompress_improved_aaaa :
    shows (step (running .decompressImproved [0x90, 0x00, 0x00, 0x00, 0x33, 0x0C, 0x00, 0xC2] 4#32)) =
      some (.ok, [0, 4, 9, 3, 9, 258], [0x61, 0x61, 0x61, 0x61]) := by decide +kernel
/-- 43_improved.md R113: four bytes are no header. -/
theorem test_decompress_improved_malformed :
    shows (step (running .decompressImproved [0x90, 0x00, 0x00, 0x00] 4#32)) =
      some (.malformedHeader, [4, 0, 0, 0, 0, 0], []) := by decide +kernel

/-! ## The command port -/

/-- 44_command_interface.md R119: STATUS reads "done, ILLEGAL_COMMAND", ERR_INFO the word. -/
theorem test_illegal_command :
    let s := writeOffset 0x00#8 0x00000012#32 State.reset
    readOffset 0x04#8 s = 0x00000602#32 ∧ readOffset 0x34#8 s = 0x00000012#32 ∧ readOffset 0x00#8 s = 0x00000012#32 := by
  decide
/-- 44_command_interface.md R120: one byte past 2^32. -/
theorem test_bad_buffer :
    readOffset 0x04#8 (writeOffset 0x00#8 1#32 { State.reset with inBase := 0xFFFFFFFF#32, inLen := 2#32 }) =
      0x00000702#32 := by decide
/-- 44_command_interface.md R125: a write to IN_LEN while busy sets IGNORED_WRITE alone. -/
theorem test_ignored_write :
    let s := writeOffset 0x10#8 7#32 (running .compressRegular [0x41] 8#32)
    readOffset 0x04#8 s = 0x00000005#32 ∧ readOffset 0x10#8 s = 1#32 := by decide
/-- 20_memory.md R55: a store into a running command's input. -/
theorem test_buffer_hazard :
    let s := running .compressRegular [0x41] 8#32
    step { s with schedule := [.host], host := { program := [.store 0x0FFF#32 [1, 2]], memLoaded := true, line := 0, lastRead := 0#32 } } =
      .fault (.bufferHazard 0x1000) := by rfl

/-- 30_encoding.md R74: a MEM line's bytes are stored before the program runs, though the line stands after END. -/
theorem test_mem_before_program :
    let s := { State.reset with host := { State.reset.host with program := [.stop, .mem 0x1000#32 [0x41, 0x42]] } }
    (match step s with
      | .next t => (t.mem, t.host.memLoaded, t.host.line)
      | _ => ([], false, 9)) = ([(0x1000, 0x41), (0x1001, 0x42)], true, 0) := by decide

/-- 00_scope.md R11: v[hi:lo]. -/
theorem test_bit_field :
    BitField.value ⟨11, 8⟩ 0xFFFFF5FF#32 = 5 ∧ BitField.value ⟨1, 1⟩ 0x2#32 = 1 ∧ BitField.value ⟨1, 1⟩ 0x5#32 = 0 := by decide

/-! ## Witnesses: what meets the hypotheses of each obligation that has some -/

/-- The host is about to perform one line. -/
def hostAt (op : HostOp) (s : State) : State :=
  { s with schedule := [.host], host := { program := [op], memLoaded := true, line := 0, lastRead := 0#32 } }

/-- The host is about to run a program. -/
def hostBefore (p : List HostOp) (s : State) : State :=
  { s with schedule := [.host], host := { program := p, memLoaded := false, line := 0, lastRead := 0#32 } }

/-- A running command of one input byte and eight output bytes. -/
def busyState : State := running .compressRegular [0x41] 8#32

/-- IllegalWordCompletesAtOnce: the words at both ends, with RSVD set, idle. -/
theorem witness_illegal_word :
    State.reset.busy = false ∧ (0x00000000#32).toNat = 0 ∧ 5 ≤ (0x00000005#32).toNat ∧ 5 ≤ (0xFFFFFFFF#32).toNat ∧
      5 ≤ (0x00000010#32).toNat := by decide

/-- An idle block with its four buffer registers set. -/
def idleWith (inBase inLen outBase outCap : Word) : State :=
  { State.reset with inBase := inBase, inLen := inLen, outBase := outBase, outCap := outCap }

/-- BadBufferCompletesAtOnce: one byte too many at the end of memory, in either range; an overlap of one byte. -/
theorem witness_bad_buffer :
    (let s := idleWith 0xFFFFFFFF#32 2#32 0#32 0#32;
      s.busy = false ∧ s.inBase.toNat + s.inLen.toNat > 2 ^ 32) ∧
    (let s := idleWith 0#32 0#32 0xFFFFFFFE#32 3#32;
      s.busy = false ∧ s.outBase.toNat + s.outCap.toNat > 2 ^ 32) ∧
    (let s := idleWith 0x1000#32 4#32 0x1003#32 1#32;
      s.busy = false ∧ s.inLen.toNat > 0 ∧ s.outCap.toNat > 0 ∧ s.inBase.toNat < s.outBase.toNat + s.outCap.toNat ∧
        s.outBase.toNat < s.inBase.toNat + s.inLen.toNat) := by decide

/-- LegalCommandIsAccepted, and BadBufferCompletesAtOnce's empty buffers: adjacent buffers either way round, one of them ending
at 2^32; an empty buffer inside the other. -/
theorem witness_legal_command :
    (let s := idleWith 0xFFFFFFF0#32 16#32 0xFFFFFFE0#32 16#32;
      s.busy = false ∧ s.inBase.toNat + s.inLen.toNat ≤ 2 ^ 32 ∧ s.outBase.toNat + s.outCap.toNat ≤ 2 ^ 32 ∧
        s.outBase.toNat + s.outCap.toNat ≤ s.inBase.toNat) ∧
    (let s := idleWith 0xFFFFFFE0#32 16#32 0xFFFFFFF0#32 16#32;
      s.busy = false ∧ s.inBase.toNat + s.inLen.toNat ≤ 2 ^ 32 ∧ s.outBase.toNat + s.outCap.toNat ≤ 2 ^ 32 ∧
        s.inBase.toNat + s.inLen.toNat ≤ s.outBase.toNat) ∧
    (let s := idleWith 0x1000#32 16#32 0x1008#32 0#32;
      s.busy = false ∧ s.inBase.toNat + s.inLen.toNat ≤ 2 ^ 32 ∧ s.outBase.toNat + s.outCap.toNat ≤ 2 ^ 32 ∧
        s.outCap.toNat = 0) ∧
    (let s := idleWith 0x1008#32 0#32 0x1000#32 16#32;
      s.busy = false ∧ s.inBase.toNat + s.inLen.toNat ≤ 2 ^ 32 ∧ s.outBase.toNat + s.outCap.toNat ≤ 2 ^ 32 ∧
        s.inLen.toNat = 0) := by decide

/-- BusyLocksFiveRegisters: a running command, the five offsets, and the first read-only one. -/
theorem witness_busy_locks :
    busyState.busy = true ∧ (∀ off ∈ [0x00#8, 0x0C#8, 0x10#8, 0x14#8, 0x18#8], off.toNat < 0x1C) ∧
      0x1C ≤ (0x1C#8).toNat ∧ 0x1C ≤ (0xFF#8).toNat := by decide

/-- IdleWriteSetsBufferRegister. -/
theorem witness_idle : State.reset.busy = false := by decide

/-- The invariant's premises (StatusReadsItsFields, ReadsHaveNoSideEffect, RunningEngineHoldsCommand, RunningCommandEnds): a
running command in the invariant. -/
theorem witness_busy_inv : busyState.Inv ∧ busyState.busy = true := by decide +kernel

/-- StatusReadsItsFields and ReservedOffsetsAndBits: bits at each end of the fields, offsets at both ends of the hole. -/
theorem witness_status_bits :
    0 < 32 ∧ 31 < 32 ∧ (8 ≤ 8 ∧ 8 ≤ 11) ∧ (8 ≤ 11 ∧ 11 ≤ 11) ∧ 0x38 ≤ (0x38#8).toNat ∧ 0x38 ≤ (0xFC#8).toNat ∧
      (0x6#32).extractLsb' 1 2 = (0xFFFFFFFF#32).extractLsb' 1 2 ∧ (0x1#32).getLsbD 0 = (0x3#32).getLsbD 0 ∧
      (0x00000011#32).extractLsb' 4 28 ≠ 0#28 ∧ State.reset.busy = false := by decide

/-- DictCapRegisterIsConstant: the least and the greatest cap that fit, and the two that do not; a step that goes on. -/
theorem witness_dict_cap :
    let p := fun c => ({ State.reset with platform := { dictCap := c, holes := [] } } : State)
    ((p (some 65536)).platform.dictCap = some 65536 ∧ 65536 ≤ 2 ^ 32 - 1) ∧
      (p (some (2 ^ 32 - 1))).platform.dictCap = some (2 ^ 32 - 1) ∧ (p none).platform.dictCap = none ∧
      (p (some (2 ^ 32))).platform.dictCap = some (2 ^ 32) ∧ step (p none) = .next (beginProgram (p none)) := by
  refine ⟨⟨rfl, by decide⟩, rfl, rfl, rfl, rfl⟩

/-- RegisterMapReads and ReadsHaveNoSideEffect: the ends of the reserved offsets; the host's turn, a 32-bit read at the last offset
of the window. -/
theorem witness_read :
    0x38 ≤ (0x38#8).toNat ∧ 0x38 ≤ (0xFF#8).toNat ∧ (hostAt (.rd 0xFC#8 .bits32) busyState).turn = .host ∧
      (hostAt (.rd 0xFC#8 .bits32) busyState).host.program[0]? = some (.rd 0xFC#8 .bits32) ∧
      (0xFC#8).toNat % 4 = 0 := by decide

/-- NarrowOrMisalignedAccessFaults: a narrow write, and misaligned reads of each form. -/
theorem witness_slave_error :
    (hostAt (.wr 0x04#8 .bits16 0#32) State.reset).turn = .host ∧ BusWidth.bits16 ≠ .bits32 ∧
      (hostAt (.wr 0x04#8 .bits16 0#32) State.reset).host.program[0]? = some (.wr 0x04#8 .bits16 0#32) ∧
      (hostAt (.rd 0x05#8 .bits32) State.reset).host.program[0]? = some (.rd 0x05#8 .bits32) ∧ (0x05#8).toNat % 4 ≠ 0 ∧
      (hostAt (.poll 0x06#8 ⟨0, 0⟩ 0#32) State.reset).host.program[0]? = some (.poll 0x06#8 ⟨0, 0⟩ 0#32) ∧
      (hostAt (.ifne 0xFF#8 ⟨0, 0⟩ 0#32 1) State.reset).host.program[0]? = some (.ifne 0xFF#8 ⟨0, 0⟩ 0#32 1) ∧
      (0x06#8).toNat % 4 ≠ 0 ∧ (0xFF#8).toNat % 4 ≠ 0 := by decide

/-- BufferAccessWhileBusyFaults: stores that meet the input's and the output's ends; one that fits between; loads; MEM
lines of a program that is about to run. -/
theorem witness_buffer_access :
    (hostAt (.store 0x0FFF#32 [1, 2]) busyState).turn = .host ∧ (0x0FFF#32).toNat + 2 ≤ 2 ^ 32 ∧
      (busyState.busy = true ∧ busyState.inInput ((0x0FFF#32).toNat + 1) = true) ∧
      (busyState.engine.inBase.toNat = 0x1000 ∧ busyState.engine.inLen.toNat = 1 ∧
        busyState.engine.outBase.toNat = 0x2000 ∧ busyState.engine.outCap.toNat = 8) ∧
      busyState.inOutput 0x2000 = true ∧ busyState.inOutput 0x2007 = true ∧
      (busyState.inInput 0x1001 = false ∧ busyState.inOutput 0x1FFF = false ∧ busyState.inOutput 0x2008 = false) ∧
      (hostAt (.load 0x2007#32) busyState).host.program[0]? = some (.load 0x2007#32) ∧
      (hostAt (.load 0x2008#32) busyState).host.program[0]? = some (.load 0x2008#32) ∧
      (hostBefore [.label 1, .mem 0x0FFF#32 [1, 2]] busyState).turn = .host ∧
      (hostBefore [.label 1, .mem 0x0FFF#32 [1]] busyState).host.memLoaded = false ∧
      HostOp.mem 0x0FFF#32 [1, 2] ∈ (hostBefore [.label 1, .mem 0x0FFF#32 [1, 2]] busyState).host.program := by decide

/-- InterruptIsLevelOfDone: a completion with the enable set, and words that clear and keep. -/
theorem witness_irq :
    ({ State.reset with done := true, doneIe := true } : State).irq = true ∧ (0x4#32).getLsbD 1 = false ∧
      (0x2#32).getLsbD 1 = true ∧ (0x0#32).getLsbD 0 = false ∧ (0x1#32).getLsbD 0 = true ∧
      ∃ t, exec .compressRegular busyState = .next t := ⟨by decide, by decide, by decide, by decide, by decide, _, rfl⟩

/-- ResetInputRestoresRegisters: the reset input, with a command running and with none. -/
theorem witness_reset_input :
    ({ busyState with schedule := [.reset] } : State).turn = .reset ∧ busyState.busy = true ∧
      busyState.inOutput 0x1FFF = false ∧ ({ State.reset with schedule := [.reset] } : State).turn = .reset ∧
      State.reset.busy = false := by decide

/-- StepRunsLatchedCommand: the engine's turn with a command and without. -/
theorem witness_engine_turn :
    busyState.turn = .engine ∧ busyState.busy = true ∧ (decodeOp busyState.engine.op).toOption = some .compressRegular ∧
      ({ State.reset with schedule := [.engine] } : State).turn = .engine ∧ State.reset.busy = false ∧
      busyState.schedule = [] := by decide

/-- StepKeepsInvariant, OnlyCompletionOrResetEndsCommand: a running command's step, from the invariant. -/
theorem witness_step : busyState.Inv ∧ busyState.busy = true ∧ ∃ t, step busyState = .next t ∧ t.busy = false :=
  ⟨witness_busy_inv.1, by decide, _, rfl, rfl⟩

/-- HiddenStateNeverShows: two states that differ in hidden state only. -/
theorem witness_hidden :
    let t := { busyState with
      engine := { busyState.engine with scratch := { busyState.engine.scratch with pos := 36, w := [0x41] } } }
    busyState.visible = t.visible ∧ busyState ≠ t := ⟨rfl, by decide⟩

/-! ### The four commands -/

/-- What each command's meaning asks of a state: canonical memory, checked buffers, a readable input. -/
theorem ready_of {s : State} (h1 : s.mem.wf = true)
    (h2 : s.engine.inBase.toNat + s.engine.inLen.toNat ≤ 2 ^ 32 ∧ s.engine.outBase.toNat + s.engine.outCap.toNat ≤ 2 ^ 32 ∧
      (s.engine.inLen.toNat = 0 ∨ s.engine.outCap.toNat = 0 ∨
        s.engine.outBase.toNat + s.engine.outCap.toNat ≤ s.engine.inBase.toNat ∨
        s.engine.inBase.toNat + s.engine.inLen.toNat ≤ s.engine.outBase.toNat))
    (h3 : ∀ i < s.inLength, s.platform.memOk (s.inAddr i) .read = true) :
    s.mem.wf = true ∧ s.latchedOk ∧ s.inputReadable := ⟨h1, h2, h3⟩

/-- A machine whose bus refuses the reads of address 0x1001 and the writes of address 0x2001. -/
def holed (s : State) : State :=
  { s with platform := { s.platform with holes := [⟨0x1001, 1, .read⟩, ⟨0x2001, 1, .write⟩] } }

/-- Every Meaning statement's first clause: the second input byte is the first refused one. -/
theorem witness_refused_read :
    (holed (running .compressRegular [1, 2, 3] 8#32)).firstRefusedRead 1 ∧
      (holed (running .compressRegular [1, 2, 3] 8#32)).mem.wf = true ∧
      (holed (running .compressRegular [1, 2, 3] 8#32)).latchedOk := by
  refine ⟨⟨by decide, by decide, by decide⟩, by decide, ?_⟩
  unfold State.latchedOk; decide

/-- CompressRegularMeaning, CompressImprovedMeaning: a readable input whose output is writable and fits exactly. -/
theorem witness_compress :
    let s := running .compressRegular [0x41, 0x42] 7#32
    (s.mem.wf = true ∧ s.latchedOk ∧ s.inputReadable) ∧ (bitsToBytes (regularBits [65, 66])).length ≤ s.outCapacity ∧
      (bitsToBytes (improvedBits [65, 66])).length ≤ s.outCapacity + 1 ∧ s.outputWritable 7 := by
  refine ⟨ready_of (by decide) (by decide) (by decide), by decide +kernel, by decide +kernel, ?_⟩
  unfold State.outputWritable; decide

/-- Every Meaning statement's write clause: a readable input and a second output byte whose write is refused. -/
theorem witness_refused_write :
    let s := holed { State.reset with
      engine := { State.reset.engine with
        phase := .run, op := 1#4, inBase := 0x1002#32, inLen := 2#32, outBase := 0x2000#32, outCap := 16#32 } }
    (s.mem.wf = true ∧ s.latchedOk ∧ s.inputReadable) ∧ s.firstRefusedWrite 1 := by
  refine ⟨ready_of (by decide) (by decide) (by decide), ?_⟩
  unfold State.firstRefusedWrite; decide

/-- CompressRegularMeaning: an output one byte too long. -/
theorem witness_compress_overflow :
    (bitsToBytes (regularBits [65, 66])).length > (running .compressRegular [0x41, 0x42] 6#32).outCapacity := by
  decide +kernel

/-- CompressImprovedMeaning, ImprovedCapacityLaw: an encoding that succeeds. Its error clause: the next theorem. -/
theorem witness_encode_ok : ∃ codes d, encodeSymbols (admitImproved none) [0x41, 0x42] = .ok (codes, d) ∧ codes ≠ [] := by
  obtain ⟨codes, d, h⟩ := encodeLoop_total (policy := admitImproved none) (xs := [0x41, 0x42]) (d := Dict.seed) (w := [])
    (n := 0) (by simp [admitImproved])
  refine ⟨codes, d, h, fun hc => ?_⟩
  have := (encodeLoop_facts h encodeReady_seed (by simp)).2.2.1.mp hc
  simp at this

/-- DecompressRegularMeaning, DecompressImprovedMeaning: a readable input, on checked buffers. -/
theorem witness_decompress_ready :
    let s := running .decompressRegular [0x80, 0x00, 0x00, 0x00, 0x24, 0x14, 0x20] 2#32
    (s.mem.wf = true ∧ s.latchedOk ∧ s.inputReadable) ∧ s.outputWritable 2 := by
  refine ⟨ready_of (by decide) (by decide) (by decide), ?_⟩
  unfold State.outputWritable; decide

/-- DecompressRegularMeaning, DecompressImprovedMeaning: readable streams of 4 bytes; of 5 with no code; with codes that do
not all fit; with codes that do. -/
theorem witness_decompress :
    let S := fun (bs : List Byte) => bytesToBits bs
    let N := fun (bs : List Byte) => bitsToNat (((S bs).drop 4).take 32)
    ((running .decompressRegular [0x80, 0, 0, 0] 8#32).mem.wf = true ∧
        (running .decompressRegular [0x80, 0, 0, 0] 8#32).inLength < 5) ∧
      (5 ≤ (running .decompressRegular [0x80, 0, 0, 0, 0] 8#32).inLength ∧ N [0x80, 0, 0, 0, 0] = 0) ∧
      (0 < N [0x80, 0, 0, 0, 0x34, 0x14, 0x20] ∧ 36 + N [0x80, 0, 0, 0, 0x34, 0x14, 0x20] * 8 > 8 * 7) ∧
      (0 < N [0x80, 0, 0, 0, 0x24, 0x14, 0x20] ∧ 36 + N [0x80, 0, 0, 0, 0x24, 0x14, 0x20] * 8 ≤ 8 * 7) ∧
      (2 < N [0x90, 0, 0, 0, 0x33, 0x0C, 0x00] ∧ growPos 9 2 ≤ 8 * 7 ∧ growPos 9 3 > 8 * 7) ∧
      growPos 9 3 ≤ 8 * 8 := by
  decide +kernel

/-- The outcomes of decoding a stream's codes: an error in either variant, and a success. -/
theorem witness_decode_codes :
    errorOf (decodeCodes admitRegular [65, 257] 8) = some (.corruptCode, 1) ∧
      errorOf (decodeCodes (admitImproved none) [65, 66] 1) = some (.outOverflow, 1) ∧
      (decodeCodes admitRegular [65, 66] 8).toOption.map (·.1) = some [0x41, 0x42] ∧
      (decodeCodes (admitImproved none) [65, 66] 8).toOption.map (·.1) = some [0x41, 0x42] := by decide +kernel

/-- CommandFrame, WritesStayInOutputBuffer, ResultsEachCommandGives, WidthRegistersInRange, RegularStreamSize,
ImprovedStreamSize: each command ends in a next state, with OK. -/
theorem witness_ok :
    (∃ t, exec .compressRegular (running .compressRegular [0x41] 8#32) = .next t ∧ t.result = .ok) ∧
      (∃ t, exec .decompressRegular (running .decompressRegular [0x80, 0, 0, 0, 0] 8#32) = .next t ∧ t.result = .ok) ∧
      (∃ t, exec .compressImproved (running .compressImproved [0x41] 8#32) = .next t ∧ t.result = .ok) ∧
      ∃ t, exec .decompressImproved (running .decompressImproved [0x90, 0, 0, 0, 0] 8#32) = .next t ∧ t.result = .ok :=
  ⟨⟨_, exec_eq_run _ _, by decide +kernel⟩, ⟨_, exec_eq_run _ _, by decide +kernel⟩,
    ⟨_, exec_eq_run _ _, by decide +kernel⟩, _, exec_eq_run _ _, by decide +kernel⟩

/-- WritesStayInOutputBuffer: addresses just below and just past the buffer. -/
theorem witness_outside :
    0x1FFF < busyState.outAddr 0 ∧ busyState.outAddr busyState.outCapacity ≤ 0x2008 ∧ busyState.mem.wf = true := by decide

/-- CommandIsDeterminedByItsInputs: two states with the same operands and input bytes and different memories. -/
theorem witness_determined :
    let t := { busyState with mem := busyState.mem.write 0x5000 1 }
    busyState.mem.wf = true ∧ t.mem.wf = true ∧ busyState.engine.inBase = t.engine.inBase ∧
      busyState.engine.inLen = t.engine.inLen ∧ busyState.engine.outBase = t.engine.outBase ∧
      busyState.engine.outCap = t.engine.outCap ∧ busyState.platform = t.platform ∧
      busyState.inputBytes = t.inputBytes ∧ busyState ≠ t ∧ (∃ s', exec .compressRegular busyState = .next s') ∧
      ∃ t', exec .compressRegular t = .next t' := by
  refine ⟨by decide, by decide, rfl, rfl, rfl, rfl, rfl, by decide, by decide, ⟨_, exec_eq_run _ _⟩, _, exec_eq_run _ _⟩

/-- CompletionAfterWriteIsNotLost. -/
theorem witness_write_then_complete :
    busyState.busy = true ∧ ∃ t, exec .compressRegular (writeOffset 0x00#8 1#32 busyState) = .next t :=
  ⟨by decide, _, exec_eq_run _ _⟩

/-! ### The bit layer and the codecs -/

/-- StreamBitOrder, HeaderRoundTrip, HeaderWidthStartsSchedule: the ends of their ranges. -/
theorem witness_ranges :
    0 < 8 * [(0xA5 : Byte)].length ∧ 7 < 8 * [(0xA5 : Byte)].length ∧ (1 ≤ 1 ∧ 16 ≤ 16) ∧ (2 ^ 32 - 1 < 2 ^ 32) ∧
      readHeader (List.replicate 36 false) = some (16, 0) ∧
      (9 ≤ 9 ∧ 256 + 255 < 2 ^ 9 ∧ 2 ^ 9 ≤ 256 + 256) ∧ (256 + 65279 < 2 ^ 16 ∧ 2 ^ 16 ≤ 256 + 65280) ∧ 1 ≤ 8 ∧ 8 ≤ 8 := by
  decide +kernel

/-- BitsBeyondCodesIgnored: a stream of each variant, the same one with padding bits set and a byte more, and a short one. -/
theorem witness_beyond :
    (readHeader (bytesToBits [0x80, 0, 0, 0, 0x14, 0x10]) = some (8, 1) ∧ 36 + 1 * 8 ≤ 8 * 6 ∧
        (bytesToBits [0x80, 0, 0, 0, 0x14, 0x1F, 0xFF]).take 44 = (bytesToBits [0x80, 0, 0, 0, 0x14, 0x10]).take 44) ∧
      (readHeader (bytesToBits [0x90, 0, 0, 0, 0x12, 0x08]) = some (9, 1) ∧ growPos 9 1 = 45 ∧ growPos 9 1 ≤ 8 * 6 ∧
        (bytesToBits [0x90, 0, 0, 0, 0x12, 0x0F, 0xFF]).take 45 = (bytesToBits [0x90, 0, 0, 0, 0x12, 0x08]).take 45) ∧
      readHeader (bytesToBits [0x80, 0, 0, 0, 0x14]) = some (8, 1) ∧ 8 * 5 < 36 + 1 * 8 := by
  decide +kernel

/-- DictionaryDiscipline, EncoderLaws, CodesSpellTheInput, EncodeDecodeRoundTrip, ImprovedCodesFitTheirWidths: an encoding of a
non-empty input, under a policy that never answers Skip; a decoding that succeeds. -/
theorem witness_encoding :
    (∃ codes d, encodeSymbols (admitImproved none) [0x41, 0x42] = .ok (codes, d)) ∧ ([0x41, 0x42] : List Symbol) ≠ [] ∧
      (∀ n, admitImproved none n ≠ .skip) ∧ ([0x41, 0x42] : List Symbol).length ≤ 2 ∧
      ∃ out d, decodeCodes (admitImproved none) [] 0 = .ok (out, d) := by
  obtain ⟨codes, d, h, _⟩ := witness_encode_ok
  exact ⟨⟨codes, d, h⟩, by decide, by simp [admitImproved], by decide, _, _, rfl⟩

/-- DictionaryDiscipline's growth: an encoding and a decoding with one symbol or code more than another that succeeds. -/
theorem witness_growth :
    (∃ codes d, encodeSymbols (admitImproved none) [0x41] = .ok (codes, d)) ∧
      (∃ codes d, encodeSymbols (admitImproved none) ([0x41] ++ [0x42]) = .ok (codes, d)) ∧
      (∃ out d, decodeCodes (admitImproved none) [0x41] 2 = .ok (out, d)) ∧
      ∃ out d, decodeCodes (admitImproved none) ([0x41] ++ [0x42]) 2 = .ok (out, d) := by
  obtain ⟨codes, d, h, _⟩ := witness_encode_ok
  exact ⟨encodeLoop_total (by simp [admitImproved]), ⟨codes, d, h⟩, ⟨_, _, rfl⟩, _, _, rfl⟩

/-- EncoderLaws' step: a last code; a symbol that extends its sequence, one that does not; a failure. -/
theorem witness_encode_step :
    ((encodeSymbols (admitImproved none) [0x41, 0x42, 0x41]).toOption.map fun r => r.1) = some ([65, 66] ++ [65]) ∧
      ((encodeSymbols (admitImproved none) [0x41, 0x42, 0x41]).toOption.map fun r =>
        (r.2.entries[256]?, decide (([0x41] : Sequence) ++ [0x43] ∈ r.2.entries))) =
          some (some ([0x41] ++ [0x42]), false) ∧
      errorOf (encodeSymbols (admitImproved (some 256)) [0x41, 0x42]) = some (.dictFull, 0) := by decide +kernel

/-- FirstCodeMustBeLiteral's step: two decodings, the next code below, at and above nextCode; an output that fits and one that
does not; a failure. -/
theorem witness_decode_step :
    ((decodeCodes admitRegular [65] 3).toOption.map fun r => r.1) = some [0x41] ∧
      ((decodeCodes admitRegular ([65] ++ [66]) 3).toOption.map fun r => (r.1, r.2.nextCode, r.2.entries[256]?)) =
        some ([0x41, 0x42], 257, some [0x41, 0x42]) ∧
      (256 < 257 ∧ 257 = 257 ∧ 258 > 257) ∧ 2 + [(0x41 : Symbol)].length ≤ 3 ∧ 2 + [(0x41 : Symbol), 0x42].length > 3 ∧
      errorOf (decodeCodes admitRegular [65, 257] 3) = some (.corruptCode, 1) := by decide +kernel

/-- FirstCodeMustBeLiteral: a Regular and an Improved stream whose one code is 256. -/
theorem witness_first_code :
    let bs : List Byte := [0x90, 0, 0, 0, 0x18, 0x00]
    (∀ i < (running .decompressRegular bs 8#32).inLength,
        (running .decompressRegular bs 8#32).platform.memOk ((running .decompressRegular bs 8#32).inAddr i) .read = true) ∧
      5 ≤ (running .decompressRegular bs 8#32).inLength ∧ 0 < bitsToNat (((bytesToBits bs).drop 4).take 32) ∧
      256 ≤ bitsToNat (((bytesToBits bs).drop 36).take 9) ∧ 36 + 1 * 9 ≤ 8 * 6 ∧ growPos 9 1 ≤ 8 * 6 ∧ 256 ≤ 256 := by
  decide +kernel

/-- RegularWidthIsLeast, RegularStreamSize: codes at the ends of the widths 8 and 16. -/
theorem witness_codes :
    [255] ≠ ([] : List Nat) ∧ (∀ k ∈ [255], k < 2 ^ 8) ∧ (∀ k ∈ [65535], k ≤ 65535) ∧ (∀ k ∈ [255], k < 256) ∧
      regularWidth [255] = 8 ∧ regularWidth [256] = 9 ∧ regularWidth [65535] = 16 := by decide +kernel

/-- RegularCommandsRoundTrip, ImprovedCommandsRoundTrip: the decompression of the stream a compression wrote. -/
theorem witness_round_trip (i j : Instr) (h : i = .compressRegular ∧ j = .decompressRegular ∨
    i = .compressImproved ∧ j = .decompressImproved) :
    ∃ s t u : State, s.mem.wf = true ∧ u.mem.wf = true ∧ exec i s = .next t ∧ t.result = .ok ∧
      u.platform.dictCap = s.platform.dictCap ∧
      u.inputBytes = ((List.range t.outLen.toNat).map fun j => t.mem.read (s.outAddr j)) ∧
      u.inputReadable ∧ s.inLength ≤ u.outCapacity ∧ u.outputWritable s.inLength := by
  rcases h with ⟨rfl, rfl⟩ | ⟨rfl, rfl⟩
  · refine ⟨running .compressRegular [0x41] 8#32, _, running .decompressRegular [0x80, 0, 0, 0, 0x14, 0x10] 1#32,
      by decide, by decide, exec_eq_run _ _, by decide +kernel, rfl, by decide +kernel, ?_, by decide, ?_⟩
    · unfold State.inputReadable; decide
    · unfold State.outputWritable; decide
  · refine ⟨running .compressImproved [0x41] 8#32, _, running .decompressImproved [0x90, 0, 0, 0, 0x12, 0x08] 1#32,
      by decide, by decide, exec_eq_run _ _, by decide +kernel, rfl, by decide +kernel, ?_, by decide, ?_⟩
    · unfold State.inputReadable; decide
    · unfold State.outputWritable; decide

/-- ImprovedCapacityLaw, both clauses, and CompressImprovedMeaning's DICT_FULL: a short input fits the least DICT_CAP, and a
run of 2^33 equal bytes has more codes than it leaves room for. -/
theorem witness_capacity :
    (∃ codes d, encodeSymbols (admitImproved none) [0x41, 0x42] = .ok (codes, d) ∧ codes.length ≤ 65536 - 255) ∧
      ∃ xs codes d, encodeSymbols (admitImproved none) xs = .ok (codes, d) ∧ xs ≠ [] ∧ 65536 - 255 < codes.length := by
  constructor
  · obtain ⟨codes, d, h, _⟩ := witness_encode_ok
    refine ⟨codes, d, h, ?_⟩
    have := (encodeLoop_facts h encodeReady_seed (by simp)).1
    simp at this; omega
  · obtain ⟨n, hn⟩ : ∃ n : Nat, n = 2 ^ 33 := ⟨_, rfl⟩
    obtain ⟨codes, d, h⟩ := encodeLoop_total (policy := admitImproved none) (xs := List.replicate n (0 : Symbol))
      (d := Dict.seed) (w := []) (n := 0) (by simp [admitImproved])
    have hs := encodeLoop_spread h encodeReady_seed seed_short
    rw [List.length_replicate, List.length_nil] at hs
    refine ⟨_, codes, d, h, fun hc => ?_, ?_⟩
    · have := congrArg List.length hc
      rw [List.length_replicate, List.length_nil] at this
      omega
    · by_contra hc
      have : codes.length * (0 + codes.length) ≤ 65281 * (0 + 65281) := Nat.mul_le_mul (by omega) (by omega)
      omega

/-- EmptyInputGivesHeaderAlone: an empty input, four and five bytes of output. -/
theorem witness_empty :
    (running .compressRegular [] 4#32).engine.inLen = 0#32 ∧ (running .compressRegular [] 4#32).outCapacity < 5 ∧
      (running .compressRegular [] 5#32).engine.inLen = 0#32 ∧ 5 ≤ (running .compressRegular [] 5#32).outCapacity ∧
      (running .compressRegular [] 5#32).mem.wf = true ∧
      ∀ j < 5, (running .compressRegular [] 5#32).platform.memOk
        ((running .compressRegular [] 5#32).outAddr j) .write = true := by decide

/-- HostProgramLines: each line at the head of a program, on the host's turn; an IFNE whose field
differs, with its label on two later lines and on none. -/
theorem witness_host_lines :
    (hostAt (.wrReg .inBase 1#32) State.reset).turn = .host ∧
      (hostAt (.wrReg .inBase 1#32) State.reset).host.program[0]? = some (.wrReg .inBase 1#32) ∧
      (hostAt (.rdReg .errInfo) State.reset).host.program[0]? = some (.rdReg .errInfo) ∧
      (hostAt (.poll (Reg.offset .status) ⟨1, 1⟩ 1#32) State.reset).host.program[0]? =
        some (.poll (Reg.offset .status) ⟨1, 1⟩ 1#32) ∧
      (let p := [HostOp.ifne (Reg.offset .status) ⟨11, 8⟩ 1#32 7, .stop, .label 7, .label 7];
        p[2]? = some (.label 7) ∧ (∀ m < 2, p[m]? ≠ some (.label 7)) ∧ HostOp.label 8 ∉ p) ∧
      ((readOffset (Reg.offset .status) State.reset).toNat / 2 ^ 8 % 2 ^ (11 + 1 - 8) ≠ (1#32).toNat ∧
        (readOffset (Reg.offset .status) State.reset).toNat / 2 ^ 8 % 2 ^ (11 + 1 - 8) = (0#32).toNat) ∧
      (hostAt (.mem 0xFFFFFFFF#32 [1]) State.reset).host.program[0]? = some (.mem 0xFFFFFFFF#32 [1]) ∧
      (hostAt (.store 0xFFFFFFFF#32 [1]) State.reset).host.program[0]? = some (.store 0xFFFFFFFF#32 [1]) ∧
      (hostBefore [.stop, .mem 0xFFFFFFFF#32 [1]] State.reset).turn = .host ∧
      HostOp.mem 0xFFFFFFFF#32 [1] ∈ (hostBefore [.stop, .mem 0xFFFFFFFF#32 [1]] State.reset).host.program ∧
      2 ^ 32 < (0xFFFFFFFF#32).toNat + 2 ∧ (hostAt .stop State.reset).host.memLoaded = true ∧ State.reset.busy = false ∧
      (0xFFFFFFFF#32).toNat + 1 ≤ 2 ^ 32 ∧ (hostAt .stop State.reset).host.program[0]? = some .stop ∧
      State.reset.host.program[0]? = none ∧ (hostAt (.label 7) State.reset).host.program[0]? = some (.label 7) := by
  decide

end Sys2Proof.Tests
end

section
/-!
SUPPORT. The register window read and written by name, and the statements about its reserved bits, INT_EN and DICT_CAP_RD
(10_state.md R25, R35, R37).
-/

namespace Sys2Proof.Machine

/-! ## The window by register name -/

@[simp] theorem readOffset_offset (r : Reg) (s : State) : readOffset r.offset s = readReg r s := by
  rw [readOffset, regAt_eq_some.mpr rfl]

@[simp] theorem writeOffset_offset (r : Reg) (v : Word) (s : State) : writeOffset r.offset v s = writeReg r v s := by
  rw [writeOffset, regAt_eq_some.mpr rfl]

theorem readOffset_reserved {off : BitVec 8} (h : 0x38 ≤ off.toNat) (s : State) : readOffset off s = 0#32 := by
  rw [readOffset, regAt_reserved h]

theorem writeOffset_reserved {off : BitVec 8} (h : 0x38 ≤ off.toNat) (v : Word) (s : State) : writeOffset off v s = s := by
  rw [writeOffset, regAt_reserved h]

/-! ## The bits of the words that are read -/

/-- STATUS bit by bit (10_state.md R24). -/
theorem statusWord_getLsbD (s : State) {j : Nat} (hj : j < 32) :
    (statusWord s).getLsbD j =
      if j = 0 then s.busy else if j = 1 then s.done else if j = 2 then s.ignoredWrite
      else if 8 ≤ j ∧ j ≤ 11 then s.result.toBits.getLsbD (j - 8) else false := by
  simp only [statusWord, BitVec.getLsbD_append, BitVec.getLsbD_ofBool, BitVec.getLsbD_zero]
  interval_cases j <;> simp

theorem statusWord_reserved (s : State) {lo n : Nat} (h : 3 ≤ lo ∧ lo + n ≤ 8 ∨ 12 ≤ lo ∧ lo + n ≤ 32) :
    (statusWord s).extractLsb' lo n = 0#n := by
  refine BitVec.eq_of_getLsbD_eq fun i hi => ?_
  obtain ⟨not_busy, not_done, not_ignored, not_result⟩ :
      ¬ lo + i = 0 ∧ ¬ lo + i = 1 ∧ ¬ lo + i = 2 ∧ ¬ (8 ≤ lo + i ∧ lo + i ≤ 11) := by omega
  rw [BitVec.getLsbD_extractLsb', statusWord_getLsbD s (by omega), if_neg not_busy, if_neg not_done, if_neg not_ignored,
    if_neg not_result, Bool.and_false, BitVec.getLsbD_zero]

theorem intEnWord_eq (s : State) : intEnWord s = if s.doneIe then 1#32 else 0#32 := by
  unfold intEnWord
  cases s.doneIe <;> rfl

theorem intEnWord_reserved (s : State) : (intEnWord s).extractLsb' 1 31 = 0#31 := by
  rw [intEnWord_eq]
  cases s.doneIe <;> rfl

theorem extractLsb'_setWidth_above {w n len : Nat} (x : BitVec w) : (x.setWidth n).extractLsb' w len = 0#len := by
  refine BitVec.eq_of_getLsbD_eq fun i hi => ?_
  simp

/-! ## Writes -/

theorem writeStatus_congr {v v' : Word} (h : v.extractLsb' 1 2 = v'.extractLsb' 1 2) (s : State) :
    writeStatus v s = writeStatus v' s := by
  have bit1 : v.getLsbD 1 = v'.getLsbD 1 := by simpa using congrArg (·.getLsbD 0) h
  have bit2 : v.getLsbD 2 = v'.getLsbD 2 := by simpa using congrArg (·.getLsbD 1) h
  rw [writeStatus, bit1, bit2, writeStatus]

theorem writeIntEn_congr {v v' : Word} (h : v.getLsbD 0 = v'.getLsbD 0) (s : State) :
    writeIntEn v s = writeIntEn v' s := by
  rw [writeIntEn, h, writeIntEn]

@[simp] theorem startCommand_cmd (v : Word) (s : State) : (startCommand v s).cmd = v := by
  obtain ⟨e, -, h⟩ | ⟨i, -, -, h⟩ | ⟨i, -, -, h⟩ := startCommand_cases v s <;> simp [h]

theorem decode_reservedBits {v : Word} (h : v.extractLsb' 4 28 ≠ 0#28) : decode v = .error .reservedBits := by
  simp [decode, rsvdZero, h]

theorem startCommand_illegal {v : Word} {e : DecodeError} (h : decode v = .error e) (s : State) :
    startCommand v s = setErrorRegs .illegalCommand v (latchCmd v s) := by
  simp [startCommand, h]

theorem writeOffset_cmd_idle {s : State} (h : s.busy = false) (v : Word) :
    writeOffset 0x00#8 v s = startCommand v s :=
  (writeOffset_offset .cmd v s).trans (if_neg (by simp [h]))

/-! ## No step changes the platform -/

@[simp] theorem startCommand_platform (v : Word) (s : State) : (startCommand v s).platform = s.platform := by
  obtain ⟨e, -, h⟩ | ⟨i, -, -, h⟩ | ⟨i, -, -, h⟩ := startCommand_cases v s <;> simp [h]

@[simp] theorem writeOffset_platform (off : BitVec 8) (v : Word) (s : State) : (writeOffset off v s).platform = s.platform := by
  obtain h | ⟨-, h⟩ | h | h | ⟨-, h | h | h | h | h⟩ := writeOffset_cases off v s <;>
    simp [h]

theorem hostStep_platform {s t : State} (h : hostStep s = .next t) : t.platform = s.platform := by
  obtain rfl | rfl | ⟨off, v, -, rfl⟩ | ⟨v, rfl⟩ | ⟨v, rfl⟩ | ⟨n, v, rfl⟩ | ⟨a, bs, -, rfl⟩ | ⟨-, -, rfl⟩ :=
    hostStep_cases h <;> simp

theorem exec_platform {i : Instr} {s t : State} (h : exec i s = .next t) : t.platform = s.platform := by
  obtain ⟨c, m, -, -, rfl⟩ | ⟨r, rfl⟩ := exec_cases h <;> simp

/-- DICT_CAP and MEM_OK are fixed for one machine (00_scope.md R9): no step changes them, the reset input's included. -/
theorem step_platform {s t : State} (h : step s = .next t) : t.platform = s.platform := by
  obtain ⟨-, h⟩ | ⟨-, rfl⟩ | ⟨-, -, rfl⟩ | ⟨i, -, -, -, h⟩ := step_cases h
  · exact (hostStep_platform h).trans (popSlot_platform s)
  · simp
  · simp
  · exact (exec_platform h).trans (popSlot_platform s)

/-! ## DICT_CAP_RD -/

theorem readOffset_dictCapRd (s : State) : readOffset 0x30#8 s = dictCapWord s.platform := readOffset_offset .dictCapRd s

theorem dictCapWord_toNat {p : Platform} {c : Nat} (hp : p.dictCap = some c) (hc : c ≤ 2 ^ 32 - 1) :
    (dictCapWord p).toNat = c := by
  rw [dictCapWord, hp]
  simp only [if_pos hc, BitVec.toNat_ofNat]
  omega

theorem dictCapWord_eq_zero {p : Platform} (h : p.dictCap = none ∨ p.dictCap = some (2 ^ 32)) : dictCapWord p = 0#32 := by
  obtain h | h := h <;> simp [dictCapWord, h]

/-! ## The statements -/

/-- Settles O10: each clause is INT_EN's own read or write. -/
theorem interruptEnableRegister : Obligations.InterruptEnableRegister := by
  intro s v
  exact ⟨(readOffset_offset .intEn s).trans (intEnWord_eq s), rfl, writeOffset_offset .intEn v s⟩

/-- Settles O13: the register shows the platform's DICT_CAP, and every step keeps the platform. -/
theorem dictCapRegisterIsConstant : Obligations.DictCapRegisterIsConstant := by
  intro s
  refine ⟨fun c hp hc => ?_, fun h => ?_, fun v => writeOffset_offset .dictCapRd v s, fun t ht => ?_⟩
  · rw [readOffset_dictCapRd, dictCapWord_toNat hp hc]
  · rw [readOffset_dictCapRd, dictCapWord_eq_zero h]
  · rw [readOffset_dictCapRd, readOffset_dictCapRd, step_platform ht]

/-- Settles O11: the reserved offsets hold no register; of the defined registers' reserved bits only CMD's are kept. -/
theorem reservedOffsetsAndBits : Obligations.ReservedOffsetsAndBits := by
  intro s v v'
  refine ⟨fun off h => ⟨readOffset_reserved h s, writeOffset_reserved h v s⟩, statusWord_reserved s (by omega),
    statusWord_reserved s (by omega), intEnWord_reserved s, extractLsb'_setWidth_above s.hdrWidth,
    extractLsb'_setWidth_above s.lastWidth, fun h => writeStatus_congr h s, fun h => writeIntEn_congr h s,
    writeOffset_offset .hdrWidth v s, writeOffset_offset .lastWidth v s, fun hb => ?_⟩
  rw [writeOffset_cmd_idle hb]
  refine ⟨startCommand_cmd v s, fun hr => ?_⟩
  rw [startCommand_illegal (decode_reservedBits hr), setErrorRegs_result]

end Sys2Proof.Machine
end

section
/-!
SUPPORT. Host memory as the block and the host meet it, and the statements about it: accesses that the register window answers with
an error, the output buffer as the bound of a command's writes, and the order of stream bits (20_memory.md R45, R47, R48).
-/

namespace Sys2Proof.Machine

/-! ## Narrow and misaligned register accesses -/

theorem accessOk_eq_false {off : BitVec 8} {width : BusWidth} (h : width ≠ .bits32 ∨ off.toNat % 4 ≠ 0) :
    accessOk off width = false := by
  rw [Bool.eq_false_iff, ne_eq, accessOk_iff]
  tauto

section
variable {off : BitVec 8} {width : BusWidth} (s : State)

theorem hostWrite_refused (h : accessOk off width = false) (v : Word) : hostWrite off width v s = .fault (.slaveError off) := by
  simp [hostWrite, h]

theorem hostRead_refused (h : accessOk off width = false) : hostRead off width s = .fault (.slaveError off) := by
  simp [hostRead, h]

theorem hostPoll_refused (h : accessOk off .bits32 = false) (f : BitField) (v : Word) :
    hostPoll off f v s = .fault (.slaveError off) := by
  simp [hostPoll, h]

theorem hostIfne_refused (h : accessOk off .bits32 = false) (f : BitField) (v : Word) (l : Nat) :
    hostIfne off f v l s = .fault (.slaveError off) := by
  simp [hostIfne, h]

end

/-- Settles O15: each of the four forms of access checks the width and the offset first. -/
theorem narrowOrMisalignedAccessFaults : Obligations.NarrowOrMisalignedAccessFaults := by
  intro s off width ht hm hbad line
  have refused := accessOk_eq_false hbad
  rintro (rd | ⟨v, wr⟩ | ⟨rfl, f, v, poll | ⟨l, ifne⟩⟩)
  · exact (step_host_line ht hm rd).trans (hostRead_refused _ refused)
  · exact (step_host_line ht hm wr).trans (hostWrite_refused _ refused v)
  · exact (step_host_line ht hm poll).trans (hostPoll_refused _ refused f v)
  · exact (step_host_line ht hm ifne).trans (hostIfne_refused _ refused f v l)

/-! ## The results each codec raises -/

theorem compressRegularBytes_error {cap : Nat} {xs : List Symbol} {r : Raise}
    (h : compressRegularBytes cap xs = .error r) : r.code = .outOverflow := by
  obtain ⟨codes, d, encoded⟩ : ∃ codes d, encodeSymbols admitRegular xs = .ok (codes, d) :=
    encodeLoop_total admitRegular_not_full
  simp only [compressRegularBytes, encoded] at h
  split at h
  · cases h; rfl
  · cases h

theorem compressImprovedBytes_error {dc : Option Nat} {cap : Nat} {xs : List Symbol} {r : Raise}
    (h : compressImprovedBytes dc cap xs = .error r) : r.code = .dictFull ∨ r.code = .outOverflow := by
  simp only [compressImprovedBytes] at h
  split at h
  · next encoded => cases h; exact .inl (encodeLoop_error encoded)
  · split at h
    · cases h; exact .inr rfl
    · cases h

theorem decompressRegularBytes_error {cap : Nat} {ys : List Byte} {r : Raise}
    (h : decompressRegularBytes cap ys = .error r) :
    r.code = .malformedHeader ∨ r.code = .truncatedStream ∨ r.code = .corruptCode ∨ r.code = .outOverflow := by
  simp only [decompressRegularBytes] at h
  split at h
  · cases h; exact .inl rfl
  · split at h
    · cases h
    · split at h
      · cases h; exact .inr (.inl rfl)
      · split at h
        · next decoded =>
          cases h
          have := decodeCodes_error decoded
          have := decodeCodes_not_full admitRegular_not_full decoded
          tauto
        · cases h

theorem decompressImprovedBytes_error {dc : Option Nat} {cap : Nat} {ys : List Byte} {r : Raise}
    (h : decompressImprovedBytes dc cap ys = .error r) :
    r.code = .malformedHeader ∨ r.code = .truncatedStream ∨ r.code = .corruptCode ∨ r.code = .outOverflow ∨
      r.code = .dictFull := by
  simp only [decompressImprovedBytes] at h
  split at h
  · cases h; exact .inl rfl
  · split at h
    · cases h
    · split at h
      · cases h; exact .inr (.inl rfl)
      · split at h
        · next decoded => cases h; exact .inr (.inr (decodeCodes_error decoded))
        · cases h

theorem codecOf_error_ne_ok {i : Instr} {s : State} {xs : List Byte} {r : Raise} (h : codecOf i s xs = .error r) :
    r.code ≠ .ok := by
  intro hok
  cases i with
  | compressRegular => simpa [hok] using compressRegularBytes_error h
  | decompressRegular => simpa [hok] using decompressRegularBytes_error h
  | compressImproved => simpa [hok] using compressImprovedBytes_error h
  | decompressImproved => simpa [hok] using decompressImprovedBytes_error h

/-! ## What a command writes -/

/-- A command that ends with OK has written its codec's output (60_exceptions.md R134): no raised result is OK. -/
theorem exec_result_ok {i : Instr} {s t : State} (h : exec i s = .next t) (hok : t.result = .ok) :
    ∃ c m, codecOf i s s.inputBytes = .ok c ∧ writeOutput s c.out = .ok m ∧ t = completeOk c m s := by
  obtain ⟨c, m, computed, written, ht⟩ | ⟨r, raised, ht⟩ := exec_split (i := i) (s := s) <;>
    obtain rfl : t = _ := Host.Outcome.next.inj (h.symm.trans ht)
  · exact ⟨c, m, computed, written, rfl⟩
  · rw [raiseResult_result] at hok
    obtain bus | raised := raised
    · rw [bus] at hok; cases hok
    · exact absurd hok (codecOf_error_ne_ok raised)

theorem read_writeOutput_outside {s : State} {out : List Byte} {m : Memory} (h : writeOutput s out = .ok m) {a : Nat}
    (ha : a < s.outAddr 0 ∨ s.outAddr out.length ≤ a) : m.read a = s.mem.read a := by
  obtain ⟨rfl, -⟩ := memWriteAll_eq_ok h
  exact read_writeAll_outside _ _ _ ha

theorem read_writeOutput_inside {s : State} {out : List Byte} {m : Memory} (hw : s.mem.wf = true)
    (h : writeOutput s out = .ok m) {j : Nat} (hj : j < out.length) : m.read (s.outAddr j) = out[j] := by
  obtain ⟨rfl, rfl | fits⟩ := memWriteAll_eq_ok h
  · cases hj
  · exact read_writeAll_inside hw fits hj

/-- Memory outside the latched output buffer is what it was, whatever a command's result (20_memory.md R45). -/
theorem exec_read_outside {i : Instr} {s t : State} (h : exec i s = .next t) {a : Nat}
    (ha : a < s.outAddr 0 ∨ s.outAddr s.outCapacity ≤ a) : t.mem.read a = s.mem.read a := by
  obtain ⟨c, m, computed, written, rfl⟩ | ⟨r, rfl⟩ := exec_cases h
  · have fits := codecOf_length computed
    rw [completeOk_mem]
    exact read_writeOutput_outside written (by simp only [State.outAddr] at *; omega)
  · rw [raiseResult_mem]
    exact read_forget_outside _ _ _ _ ha

theorem completeOk_outLen_toNat {i : Instr} {s : State} {xs : List Byte} {c : Completion} (h : codecOf i s xs = .ok c)
    (m : Memory) : (completeOk c m s).outLen.toNat = c.out.length :=
  toNat_ofNat_lt ((codecOf_length h).trans_lt (outCap_lt s))

/-- Settles O34: an error forgets only the output buffer's bytes; OK writes the output at its start and nothing after it. -/
theorem writesStayInOutputBuffer : Obligations.WritesStayInOutputBuffer := by
  intro i s t hw h
  refine ⟨fun a ha => exec_read_outside h ha, fun hok => ?_⟩
  obtain ⟨c, m, computed, written, rfl⟩ := exec_result_ok h hok
  have outLen_eq := completeOk_outLen_toNat computed m
  refine ⟨fun a ha => read_writeOutput_outside written (.inr ?_), ?_, c, computed, outLen_eq.symm, fun j hj => ?_⟩
  · rwa [outLen_eq] at ha
  · rw [outLen_eq]
    exact codecOf_length computed
  · exact read_writeOutput_inside hw written hj

/-! ## The order of stream bytes and bits -/

theorem inputBytes_getElem? {s : State} {i : Nat} (h : i < s.inLength) :
    s.inputBytes[i]? = some (s.mem.read (s.inAddr i)) := by
  simp [State.inputBytes, h]

/-- The bits of a serialized integer, the first one the most significant (20_memory.md R47). -/
theorem natBits_eq_map (w v : Nat) : natBits w v = (List.range w).map fun j => v.testBit (w - 1 - j) := by
  induction w with
  | zero => rfl
  | succ w ih =>
    rw [natBits, ih, List.range_succ_eq_map, List.map_cons, List.map_map]
    congr 1
    refine List.map_congr_left fun j _ => ?_
    simp only [Function.comp_apply]
    congr 1
    omega

theorem byteBits_getElem? (b : Byte) {j : Nat} (h : j < 8) : (byteBits b)[j]? = some (b.getLsbD (7 - j)) := by
  simp [byteBits, natBits_eq_map, h, BitVec.testBit_toNat]

/-- Stream bit j is bit 7 - (j mod 8) of byte j div 8 (20_memory.md R47). -/
theorem bytesToBits_getElem? (B : List Byte) {j : Nat} (h : j < 8 * B.length) :
    (bytesToBits B)[j]? = (B[j / 8]?).map fun b => b.getLsbD (7 - j % 8) := by
  induction B generalizing j with
  | nil => cases h
  | cons b bs ih =>
    rw [bytesToBits]
    obtain hj | hj := Nat.lt_or_ge j 8
    · rw [List.getElem?_append_left (by simpa using hj), byteBits_getElem? b hj, Nat.div_eq_of_lt hj, Nat.mod_eq_of_lt hj]
      rfl
    · obtain ⟨k, rfl⟩ := Nat.exists_eq_add_of_le' hj
      rw [List.length_cons] at h
      rw [List.getElem?_append_right (by simp), length_byteBits, Nat.add_sub_cancel, ih (by omega),
        Nat.add_div_right k (by omega), Nat.add_mod_right, List.getElem?_cons_succ]

/-- Settles O39: the input's bytes by address, a byte's bits, and an integer's bits. -/
theorem streamBitOrder : Obligations.StreamBitOrder := by
  refine ⟨fun s i h => inputBytes_getElem? h, fun B j h => bytesToBits_getElem? B h, fun S v w => ?_⟩
  rw [writeFixedWidth, natBits_mod, natBits_eq_map]

end Sys2Proof.Machine
end

section
/-!
SUPPORT. The command word and the stream format, and the statements about them: which word selects which command, what an illegal word
does, the padding of the last byte, and the bits past the codes (30_encoding.md R61, R62, R68, R72).
-/

namespace Sys2Proof.Machine

/-! ## The command word -/

theorem decodeOp_eq_ok {op : BitVec 4} {i : Instr} : decodeOp op = .ok i ↔ op = opField (encode i) := by
  cases i <;> revert op <;> decide

/-- A word is a command's exactly when its reserved bits are zero and its OP is the command's (30_encoding.md R61). -/
theorem decode_eq_ok {w : Word} {i : Instr} :
    decode w = .ok i ↔ w.extractLsb' 4 28 = 0#28 ∧ w.extractLsb' 0 4 = opField (encode i) := by
  by_cases reserved : w.extractLsb' 4 28 = 0#28
  · simp only [decode, rsvdZero, reserved, beq_self_eq_true, if_true, true_and]
    exact decodeOp_eq_ok
  · simp [decode_reservedBits reserved, reserved]

theorem opField_encode_toNat (i : Instr) : 1 ≤ (opField (encode i)).toNat ∧ (opField (encode i)).toNat ≤ 4 := by
  cases i <;> decide

theorem decode_illegal {v : Word} (h : v.toNat = 0 ∨ 5 ≤ v.toNat) : ∃ e, decode v = .error e := by
  cases hd : decode v with
  | error e => exact ⟨e, rfl⟩
  | ok i =>
    obtain ⟨reserved, op⟩ := decode_eq_ok.mp hd
    have range := opField_encode_toNat i
    rw [← op] at range
    have high := congrArg BitVec.toNat reserved
    have := v.isLt
    simp only [BitVec.extractLsb'_toNat, BitVec.toNat_ofNat, Nat.shiftRight_eq_div_pow] at range high
    omega

/-- Settles O2: each row is `decode_eq_ok` at its command. -/
theorem wordSelectsItsRowExactly : Obligations.WordSelectsItsRowExactly := fun _ =>
  ⟨decode_eq_ok, decode_eq_ok, decode_eq_ok, decode_eq_ok⟩

/-- Settles O4: a word that decodes to no command goes to the error registers in its own write. -/
theorem illegalWordCompletesAtOnce : Obligations.IllegalWordCompletesAtOnce := by
  intro s v idle illegal
  obtain ⟨e, he⟩ := decode_illegal illegal
  rw [writeOffset_cmd_idle idle, startCommand_illegal he]
  exact ⟨rfl, Bool.true_and _⟩

/-! ## Padding -/

theorem bytesToBits_packBytes {n : Nat} {S : Bits} (h : S.length ≤ 8 * n) :
    bytesToBits (packBytes n S) = S ++ List.replicate (8 * n - S.length) false := by
  induction n generalizing S with
  | zero =>
    obtain rfl : S = [] := List.length_eq_zero_iff.mp (by omega)
    rfl
  | succ n ih =>
    rw [packBytes, bytesToBits, byteBits_byteOfBits, ih (by rw [List.length_drop]; omega), List.length_drop]
    obtain short | long := Nat.le_total S.length 8
    · rw [List.take_of_length_le short, List.drop_of_length_le short, List.nil_append, List.append_assoc,
        List.replicate_append_replicate]
      congr 2
      omega
    · rw [Nat.sub_eq_zero_of_le long, List.replicate_zero, List.append_nil, ← List.append_assoc, List.take_append_drop]
      congr 2
      omega

/-- Settles O40: ceil(L/8) bytes hold L bits. -/
theorem packingPadsWithZeros : Obligations.PackingPadsWithZeros := fun S =>
  ⟨length_bitsToBytes S, bytesToBits_packBytes (by omega)⟩

/-! ## Reading bits that two strings share -/

theorem take_drop_congr {S T : Bits} {L o w : Nat} (agree : T.take L = S.take L) (h : o + w ≤ L) :
    (T.drop o).take w = (S.drop o).take w := by
  rw [List.take_drop, List.take_drop, ← Nat.min_eq_left h, ← List.take_take, ← List.take_take, agree]

section
variable {S T : Bits} {L : Nat} (hS : L ≤ S.length) (hT : L ≤ T.length) (agree : T.take L = S.take L)
include hS hT agree

theorem readHeader_congr (h : 36 ≤ L) : readHeader T = readHeader S := by
  have width : T.take 4 = S.take 4 := take_drop_congr (o := 0) agree (by omega)
  rw [readHeader_some (h.trans hT), readHeader_some (h.trans hS), width, take_drop_congr agree (by omega)]

theorem decodeFixedWidthArray_congr {o W n : Nat} (h : o + n * W ≤ L) :
    decodeFixedWidthArray T o W n = decodeFixedWidthArray S o W n := by
  have codes : readCodes T W o n = readCodes S W o n := by
    rw [readCodes_eq T W o n (h.trans hT), readCodes_eq S W o n (h.trans hS)]
    refine congrArg some (List.map_congr_left fun i hi => ?_)
    have : (i + 1) * W ≤ n * W := Nat.mul_le_mul_right W (List.mem_range.mp hi)
    rw [take_drop_congr agree (by rw [Nat.add_mul] at this; omega)]
  rw [decodeFixedWidthArray, decodeFixedWidthArray, if_neg (by omega), if_neg (by omega), codes,
    readCodes_eq S W o n (h.trans hS)]

theorem readGrowing_congr {W n : Nat} (h : growPos W n ≤ L) :
    readGrowing T n 36 (Grow.start W) 0 0 = readGrowing S n 36 (Grow.start W) 0 0 := by
  have read (R : Bits) (hR : L ≤ R.length) := readGrowing_eq R W n 0 0 (by rw [Nat.zero_add]; exact h.trans hR)
  refine (read T hT).trans (Eq.trans ?_ (read S hS).symm)
  refine congrArg (fun codes => Except.ok (codes, _)) (List.map_congr_left fun j hj => ?_)
  have next : growPos W (0 + j + 1) ≤ growPos W n := growPos_mono W (by have := List.mem_range.mp hj; omega)
  rw [growPos_succ] at next
  rw [take_drop_congr agree (next.trans h)]

end

/-! ## When the codes do not fit -/

theorem decodeFixedWidthArray_error_iff {S : Bits} {o W n : Nat} :
    (∃ t, decodeFixedWidthArray S o W n = .error t) ↔ S.length < o + n * W := by
  obtain short | fits := Nat.lt_or_ge S.length (o + n * W)
  · simp [decodeFixedWidthArray, short]
  · simp [decodeFixedWidthArray, readCodes_eq S W o n fits, Nat.not_lt.mpr fits]

theorem readGrowing_error_iff {S : Bits} {W n i last : Nat} (h : growPos W i ≤ S.length) :
    (∃ t, readGrowing S n (growPos W i) (growAfter i (Grow.start W)) i last = .error t) ↔ S.length < growPos W (i + n) := by
  induction n generalizing i last with
  | zero => simpa [readGrowing] using h
  | succ n ih =>
    rw [readGrowing, ← growPos_succ, ← growAfter_succ, show i + (n + 1) = i + 1 + n by omega]
    obtain short | fits := Nat.lt_or_ge S.length (growPos W (i + 1))
    · have short_later := short.trans_le (growPos_mono W (Nat.le_add_right (i + 1) n))
      rw [growPos_succ] at short
      rw [(readFixedWidth_isNone S _ _).mpr short]
      exact iff_of_true ⟨i, rfl⟩ short_later
    · rw [← ih (last := (growAfter i (Grow.start W)).width) fits]
      rw [growPos_succ] at fits
      rw [readFixedWidth_some fits]
      cases readGrowing S n (growPos W (i + 1)) (growAfter (i + 1) (Grow.start W)) (i + 1)
        (growAfter i (Grow.start W)).width <;> simp

theorem readGrowing_start_error_iff {S : Bits} {W n : Nat} (h : 36 ≤ S.length) :
    (∃ t, readGrowing S n 36 (Grow.start W) 0 0 = .error t) ↔ S.length < growPos W n :=
  (readGrowing_error_iff (i := 0) h).trans (by rw [Nat.zero_add])

theorem decodeCodes_not_truncated {policy : Nat → Admission} {codes : List Nat} {cap : Nat} {r : Raise}
    (h : decodeCodes policy codes cap = .error r) (t : Nat) : r ≠ { code := .truncatedStream, info := t } := by
  rintro rfl
  simpa using decodeCodes_error h

section
variable {ys : List Byte} {W N : Nat} (header : readHeader (bytesToBits ys) = some (W, N))
include header

/-- TRUNCATED_STREAM is phase 1's failure and no other (42_regular.md R103). -/
theorem decompressRegularBytes_truncated_iff (cap : Nat) :
    (∃ t, decompressRegularBytes cap ys = .error { code := .truncatedStream, info := t }) ↔
      (bytesToBits ys).length < 36 + N * W := by
  obtain ⟨-, -, -, has_header⟩ := readHeader_range header
  obtain rfl | nonempty := eq_or_ne N 0
  · simpa [decompressRegularBytes, header] using has_header
  · rw [← decodeFixedWidthArray_error_iff]
    simp only [decompressRegularBytes, header, if_neg nonempty]
    cases decodeFixedWidthArray (bytesToBits ys) 36 W N with
    | error t => simp
    | ok codes =>
      cases decoded : decodeCodes admitRegular codes cap with
      | error r => simp [decoded, decodeCodes_not_truncated decoded]
      | ok d => simp [decoded]

/-- TRUNCATED_STREAM is phase 1's failure and no other (43_improved.md R113). -/
theorem decompressImprovedBytes_truncated_iff (dc : Option Nat) (cap : Nat) :
    (∃ t, decompressImprovedBytes dc cap ys = .error { code := .truncatedStream, info := t }) ↔
      (bytesToBits ys).length < growPos W N := by
  obtain ⟨-, -, -, has_header⟩ := readHeader_range header
  rw [← readGrowing_start_error_iff has_header]
  obtain rfl | nonempty := eq_or_ne N 0
  · simp [decompressImprovedBytes, header, readGrowing]
  · simp only [decompressImprovedBytes, header, if_neg nonempty]
    cases readGrowing (bytesToBits ys) N 36 (Grow.start W) 0 0 with
    | error t => simp
    | ok read =>
      cases decoded : decodeCodes (admitImproved dc) read.1 cap with
      | error r => simp [decoded, decodeCodes_not_truncated decoded]
      | ok d => simp [decoded]

theorem decompressRegularBytes_congr {zs : List Byte} (cap : Nat) (header' : readHeader (bytesToBits zs) = some (W, N))
    (read : decodeFixedWidthArray (bytesToBits zs) 36 W N = decodeFixedWidthArray (bytesToBits ys) 36 W N) :
    decompressRegularBytes cap zs = decompressRegularBytes cap ys := by
  simp only [decompressRegularBytes, header, header', read]

theorem decompressImprovedBytes_congr {zs : List Byte} (dc : Option Nat) (cap : Nat)
    (header' : readHeader (bytesToBits zs) = some (W, N))
    (read : readGrowing (bytesToBits zs) N 36 (Grow.start W) 0 0 = readGrowing (bytesToBits ys) N 36 (Grow.start W) 0 0) :
    decompressImprovedBytes dc cap zs = decompressImprovedBytes dc cap ys := by
  simp only [decompressImprovedBytes, header, header', read]

end

/-- Settles O42: the header and the codes are all that a decompressor reads, and they lie in the L bits. -/
theorem bitsBeyondCodesIgnored : Obligations.BitsBeyondCodesIgnored := by
  intro cap dc ys W N header
  simp only [← length_bytesToBits]
  refine ⟨⟨decompressRegularBytes_truncated_iff header cap, fun zs hy hz agree => ?_⟩,
    decompressImprovedBytes_truncated_iff header dc cap, fun zs hy hz agree => ?_⟩
  · exact decompressRegularBytes_congr header cap ((readHeader_congr hy hz agree (by omega)).trans header)
      (decodeFixedWidthArray_congr hy hz agree le_rfl)
  · have := growPos_mono W (Nat.zero_le N)
    exact decompressImprovedBytes_congr header dc cap ((readHeader_congr hy hz agree this).trans header)
      (readGrowing_congr hy hz agree le_rfl)

end Sys2Proof.Machine
end

section
/-!
SUPPORT. The header, and the statement about it: when reading it fails, what its two fields mean, and that reading gives back what was
written (40_bitchannel.md R81, R82).
-/

namespace Sys2Proof.Machine

theorem readHeader_eq_none_iff {S : Bits} : readHeader S = none ↔ S.length < 36 := by
  refine ⟨fun failed => ?_, readHeader_none⟩
  by_contra long
  simp [readHeader_some (Nat.not_lt.mp long)] at failed

/-- The field is the width modulo 16, so 16 is stored as 0 and read back as 16 (30_encoding.md R65). -/
theorem fieldWidth_mod {w : Nat} (positive : 1 ≤ w) (le : w ≤ 16) : fieldWidth (w % 16) = w := by
  unfold fieldWidth
  split <;> omega

theorem writeHeader_nil (w c : Nat) : writeHeader [] w c = natBits 4 (w % 16) ++ natBits 32 c := by
  simp only [writeHeader, writeFixedWidth, Config.hdrWidthBits, Config.hdrCountBits, natBits_mod, List.nil_append]

/-- Reading a header that was written gives its fields' values modulo their sizes, whatever follows it. -/
theorem readHeader_writeHeader (w c : Nat) (T : Bits) :
    readHeader (writeHeader [] w c ++ T) = some (fieldWidth (w % 16), c % 2 ^ 32) := by
  have width : (writeHeader [] w c ++ T).take 4 = natBits 4 (w % 16) := by
    rw [writeHeader_nil, List.append_assoc, List.take_left' (length_natBits ..)]
  have count : ((writeHeader [] w c ++ T).drop 4).take 32 = natBits 32 c := by
    rw [writeHeader_nil, List.append_assoc, List.drop_left' (length_natBits ..), List.take_left' (length_natBits ..)]
  simp [readHeader_some, width, count, bitsToNat_natBits]

/-- Settles O41: a written count is below its field's size, and the width's modulus is undone by `fieldWidth`. -/
theorem headerRoundTrip : Obligations.HeaderRoundTrip := by
  refine ⟨fun S => readHeader_eq_none_iff, fun S long => readHeader_some long, fun S w n read => ?_,
    fun w c T positive le count => ?_⟩
  · obtain ⟨positive, le, count, -⟩ := readHeader_range read
    exact ⟨positive, le, count⟩
  · rw [readHeader_writeHeader, fieldWidth_mod positive le, Nat.mod_eq_of_lt count]

end Sys2Proof.Machine
end

section
/-!
SUPPORT. The encoder symbol by symbol: the runs of the encode loop, and the statement about them (41_lzw_core.md R85, R87, R88).
-/

namespace Sys2Proof.Machine

/-! ## Output in front of a loop's result -/

/-- A loop's result with earlier output in front of it. -/
def prepend {α : Type} (front : List α) (r : Except Raise (List α × Dict)) : Except Raise (List α × Dict) :=
  r.map (Prod.map (front ++ ·) id)

section
variable {α : Type} (front : List α)

@[simp] theorem prepend_ok (rest : List α) (e : Dict) : prepend front (.ok (rest, e)) = .ok (front ++ rest, e) := rfl

@[simp] theorem prepend_error (r : Raise) : prepend front (.error r) = .error r := rfl

@[simp] theorem prepend_nil (r : Except Raise (List α × Dict)) : prepend [] r = r := by
  cases r <;> rfl

@[simp] theorem prepend_prepend (back : List α) (r : Except Raise (List α × Dict)) :
    prepend front (prepend back r) = prepend (front ++ back) r := by
  cases r with
  | error r => rfl
  | ok r =>
    obtain ⟨rest, e⟩ := r
    simp only [prepend_ok, List.append_assoc]

theorem prepend_eq_ok {r : Except Raise (List α × Dict)} {all : List α} {e : Dict} :
    prepend front r = .ok (all, e) ↔ ∃ rest, r = .ok (rest, e) ∧ all = front ++ rest := by
  cases r with
  | error r => simp
  | ok r =>
    obtain ⟨rest, e'⟩ := r
    simp [eq_comm, and_comm]

theorem prepend_eq_error {r : Except Raise (List α × Dict)} {raised : Raise} :
    prepend front r = .error raised ↔ r = .error raised := by
  cases r with
  | error r => simp
  | ok r => simp [prepend, Except.map]

end

/-! ## The codes of a dictionary -/

theorem seqOf_seed_symbol (c : Symbol) : Dict.seed.seqOf c.toNat = some [c] :=
  (seqOf_seed c.isLt).trans (by simp)

theorem seed_nodup : Dict.seed.entries.Nodup := by
  refine List.Nodup.map_on (fun a ha b hb same => ?_) List.nodup_range
  have same_symbol := congrArg BitVec.toNat (List.singleton_injective same)
  rwa [toNat_ofNat_lt (List.mem_range.mp ha), toNat_ofNat_lt (List.mem_range.mp hb)] at same_symbol

/-- Where every sequence has one code, an entry is emitted as the code it stands at. -/
theorem emit_eq_of_getElem? {d : Dict} {q : Sequence} {k : Nat} (distinct : d.entries.Nodup)
    (stands : d.entries[k]? = some q) : d.emit q = k := by
  have entry := List.mem_of_getElem? stands
  exact (List.getElem?_inj (emit_lt entry) distinct).mp ((seqOf_emit entry).trans stands.symm)

/-- What the encode loop keeps from the first symbol on: a pending sequence, in a dictionary that starts with the seed and has one
code per sequence (41_lzw_core.md R85, R87). -/
structure EncodePending (d : Dict) (w : Sequence) : Prop extends EncodeReady d w where
  seeded : Dict.seed.entries <+: d.entries
  distinct : d.entries.Nodup
  nonempty : w ≠ []

theorem encodePending_seed (c : Symbol) : EncodePending Dict.seed [c] :=
  { encodeReady_seed with
    pending := .inr (single_mem_seed c), seeded := List.prefix_refl _, distinct := seed_nodup, nonempty := List.cons_ne_nil c [] }

namespace EncodePending
variable {d : Dict} {w : Sequence} (h : EncodePending d w)
include h

theorem mem : w ∈ d.entries := h.pending.resolve_left h.nonempty

theorem extend {c : Symbol} (known : w ++ [c] ∈ d.entries) : EncodePending d (w ++ [c]) :=
  { h with pending := .inr known, nonempty := by simp }

theorem restart {c : Symbol} {a : Admission} {d' : Dict} (new : w ++ [c] ∉ d.entries)
    (registered : d.register a (w ++ [c]) = some d') : EncodePending d' [c] where
  toEncodeReady := h.toEncodeReady.restart c registered
  seeded := h.seeded.trans (prefix_register registered).1
  nonempty := List.cons_ne_nil c []
  distinct := by
    obtain ⟨-, rfl⟩ | ⟨-, rfl⟩ := register_cases registered
    · rw [entries_insert, ← List.concat_eq_append]
      exact h.distinct.concat new
    · exact h.distinct

/-- A symbol's code is its value, at every moment (41_lzw_core.md R85). -/
theorem emit_single (c : Symbol) : d.emit [c] = c.toNat := by
  refine emit_eq_of_getElem? h.distinct ?_
  obtain ⟨grown, eq⟩ := h.seeded
  rw [← eq, List.getElem?_append_left (length_seed ▸ c.isLt)]
  exact seqOf_seed_symbol c

end EncodePending

/-! ## Runs of the encode loop -/

section
variable {policy : Nat → Admission} {c : Symbol} {xs : List Symbol} {d d' : Dict} {w : Sequence} {n : Nat}

theorem encodeSymbols_cons : encodeSymbols policy (c :: xs) = encodeLoop policy xs Dict.seed [c] 0 := by
  rw [encodeSymbols, encodeLoop, List.nil_append, if_pos ((codeOf_isSome _ _).mpr (single_mem_seed c))]

theorem encodeLoop_nil (nonempty : w ≠ []) : encodeLoop policy [] d w n = .ok ([d.emit w], d) := by
  rw [encodeLoop, if_neg nonempty]

theorem encodeLoop_extend (known : w ++ [c] ∈ d.entries) :
    encodeLoop policy (c :: xs) d w n = encodeLoop policy xs d (w ++ [c]) n := by
  rw [encodeLoop, if_pos ((codeOf_isSome _ _).mpr known)]

theorem encodeLoop_full (new : w ++ [c] ∉ d.entries) (full : d.register (policy d.nextCode) (w ++ [c]) = none) :
    encodeLoop policy (c :: xs) d w n = .error { code := .dictFull, info := n } := by
  rw [encodeLoop, if_neg (new ∘ (codeOf_isSome _ _).mp), full]

theorem encodeLoop_register (new : w ++ [c] ∉ d.entries)
    (registered : d.register (policy d.nextCode) (w ++ [c]) = some d') :
    encodeLoop policy (c :: xs) d w n = prepend [d.emit w] (encodeLoop policy xs d' [c] (n + 1)) := by
  simp only [encodeLoop, if_neg (new ∘ (codeOf_isSome _ _).mp), registered]
  cases encodeLoop policy xs d' [c] (n + 1) <;> rfl

end

/-- The encoder takes some symbols from a dictionary and a pending sequence to another such pair and emits some codes, the final
flush not among them (41_lzw_core.md R87). -/
inductive EncodeRun (policy : Nat → Admission) : Dict → Sequence → List Symbol → List Nat → Dict → Sequence → Prop where
  | done {d w} : EncodeRun policy d w [] [] d w
  | extend {d w c xs emitted e v} : w ++ [c] ∈ d.entries → EncodeRun policy d (w ++ [c]) xs emitted e v →
      EncodeRun policy d w (c :: xs) emitted e v
  | emit {d d' w c xs emitted e v} : w ++ [c] ∉ d.entries → d.register (policy d.nextCode) (w ++ [c]) = some d' →
      EncodeRun policy d' [c] xs emitted e v → EncodeRun policy d w (c :: xs) (d.emit w :: emitted) e v

section
variable {policy : Nat → Admission} {xs : List Symbol} {d e : Dict} {w v : Sequence}

theorem exists_encodeRun {n : Nat} {codes : List Nat} (h : encodeLoop policy xs d w n = .ok (codes, e))
    (ready : EncodePending d w) : ∃ emitted v, EncodeRun policy d w xs emitted e v ∧ codes = emitted ++ [e.emit v] := by
  induction xs generalizing d w n codes with
  | nil =>
    rw [encodeLoop_nil ready.nonempty] at h
    cases h
    exact ⟨[], w, .done, rfl⟩
  | cons c xs ih =>
    by_cases known : w ++ [c] ∈ d.entries
    · rw [encodeLoop_extend known] at h
      obtain ⟨emitted, v, run, rfl⟩ := ih h (ready.extend known)
      exact ⟨emitted, v, .extend known run, rfl⟩
    · cases registered : d.register (policy d.nextCode) (w ++ [c]) with
      | none =>
        rw [encodeLoop_full known registered] at h
        cases h
      | some d' =>
        rw [encodeLoop_register known registered, prepend_eq_ok] at h
        obtain ⟨later, rest, rfl⟩ := h
        obtain ⟨emitted, v, run, rfl⟩ := ih rest (ready.restart known registered)
        exact ⟨d.emit w :: emitted, v, .emit known registered run, rfl⟩

namespace EncodeRun
variable {emitted : List Nat} (run : EncodeRun policy d w xs emitted e v)
include run

theorem ready (h : EncodePending d w) : EncodePending e v := by
  induction run with
  | done => exact h
  | extend known _ ih => exact ih (h.extend known)
  | emit new registered _ ih => exact ih (h.restart new registered)

/-- Further symbols are encoded from where a run ends (41_lzw_core.md R87). -/
theorem encodeLoop_append (ys : List Symbol) (n : Nat) :
    encodeLoop policy (xs ++ ys) d w n = prepend emitted (encodeLoop policy ys e v (n + emitted.length)) := by
  induction run generalizing n with
  | done => exact (prepend_nil _).symm
  | extend known _ ih => rw [List.cons_append, encodeLoop_extend known, ih]
  | emit new registered _ ih =>
    rw [List.cons_append, encodeLoop_register new registered, ih, prepend_prepend, List.length_cons, Nat.add_right_comm n 1]
    rfl

/-- Under a policy that never skips, every emitted code registers an entry (41_lzw_core.md R88). -/
theorem nextCode_eq (never_skips : ∀ n, policy n ≠ .skip) : e.nextCode = d.nextCode + emitted.length := by
  induction run with
  | done => rfl
  | extend _ _ ih => exact ih
  | emit _ registered _ ih =>
    obtain ⟨-, rfl⟩ | ⟨skip, -⟩ := register_cases registered
    · rw [ih, nextCode_insert, List.length_cons, Nat.add_right_comm, Nat.add_assoc]
    · exact absurd skip (never_skips _)

end EncodeRun

end

/-! ## One more symbol -/

section
variable {policy : Nat → Admission} {xs : List Symbol} {d : Dict} {w : Sequence} {r : Raise}

theorem encodeLoop_append_error {n : Nat} (h : encodeLoop policy xs d w n = .error r) (ys : List Symbol) :
    encodeLoop policy (xs ++ ys) d w n = .error r := by
  induction xs generalizing d w n with
  | nil => cases h
  | cons c xs ih =>
    rw [List.cons_append]
    by_cases known : w ++ [c] ∈ d.entries
    · rw [encodeLoop_extend known] at h ⊢
      exact ih h
    · cases registered : d.register (policy d.nextCode) (w ++ [c]) with
      | none =>
        rw [encodeLoop_full known registered] at h ⊢
        exact h
      | some d' =>
        rw [encodeLoop_register known registered, prepend_eq_error] at h ⊢
        exact ih h

/-- A symbol that makes an entry of the pending sequence leaves its longer code to the final flush (41_lzw_core.md R87). -/
theorem EncodePending.encodeLoop_known {c : Symbol} {k : Nat} (h : EncodePending d w)
    (stands : d.entries[k]? = some (w ++ [c])) (n : Nat) :
    encodeLoop policy [c] d w n = .ok ([k], d) := by
  have known := List.mem_of_getElem? stands
  rw [encodeLoop_extend known, encodeLoop_nil (h.extend known).nonempty, emit_eq_of_getElem? h.distinct stands]

/-- Another symbol leaves the pending sequence's code emitted, and restarts (41_lzw_core.md R87). -/
theorem EncodePending.encodeLoop_new {c : Symbol} {d' : Dict} (h : EncodePending d w) (new : w ++ [c] ∉ d.entries)
    (registered : d.register (policy d.nextCode) (w ++ [c]) = some d') (n : Nat) :
    encodeLoop policy [c] d w n = .ok ([d.emit w, c.toNat], d') := by
  have restarted := h.restart new registered
  rw [encodeLoop_register new registered, encodeLoop_nil restarted.nonempty, restarted.emit_single]
  rfl

/-- Where an encoding stands: its last code is that of the pending sequence, and further symbols are encoded from there, with that
code not yet emitted (41_lzw_core.md R87). -/
theorem encodeSymbols_pending {codes : List Nat} {k : Nat} (h : encodeSymbols policy xs = .ok (codes ++ [k], d)) :
    ∃ w, EncodePending d w ∧ k = d.emit w ∧
      ∀ ys, encodeSymbols policy (xs ++ ys) = prepend codes (encodeLoop policy ys d w codes.length) := by
  cases xs with
  | nil => simp [encodeSymbols, encodeLoop] at h
  | cons c xs =>
    rw [encodeSymbols_cons] at h
    obtain ⟨emitted, w, run, eq⟩ := exists_encodeRun h (encodePending_seed c)
    obtain ⟨rfl, last⟩ := List.append_inj' eq rfl
    refine ⟨w, run.ready (encodePending_seed c), List.singleton_injective last, fun ys => ?_⟩
    rw [List.cons_append, encodeSymbols_cons, run.encodeLoop_append, Nat.zero_add]

/-- The fourth law of 41_lzw_core.md R88: the final flush alone registers nothing. -/
theorem encodeSymbols_nextCode {codes : List Nat} (h : encodeSymbols policy xs = .ok (codes, d))
    (never_skips : ∀ n, policy n ≠ .skip) (nonempty : xs ≠ []) : d.nextCode = 256 + codes.length - 1 := by
  obtain ⟨c, xs, rfl⟩ := List.exists_cons_of_ne_nil nonempty
  rw [encodeSymbols_cons] at h
  obtain ⟨emitted, w, run, rfl⟩ := exists_encodeRun h (encodePending_seed c)
  rw [run.nextCode_eq never_skips, nextCode_seed, List.length_append, List.length_singleton]
  rfl

end

/-- Settles O44: the encoder after some symbols is a run of the loop, and one more symbol is one more step of it. -/
theorem encoderLaws : Obligations.EncoderLaws := by
  refine ⟨fun policy => ⟨rfl, fun c => ?_⟩, fun policy xs ys r failed => encodeLoop_append_error failed ys,
    fun policy xs codes k d encoded => ?_, fun policy xs codes d encoded => ?_⟩
  · rw [encodeSymbols_cons, encodeLoop_nil (List.cons_ne_nil c []), (encodePending_seed c).emit_single]
  · obtain ⟨w, pending, rfl, step⟩ := encodeSymbols_pending encoded
    refine ⟨w, pending.nonempty, seqOf_emit pending.mem, fun c => ⟨fun k' stands => ?_, fun new => ?_⟩⟩
    · rw [step, pending.encodeLoop_known stands, prepend_ok]
    · rw [step]
      cases answer : policy d.nextCode with
      | insert =>
        rw [pending.encodeLoop_new (d' := d.insert (w ++ [c])) new (by rw [answer]; rfl)]
        rfl
      | skip =>
        rw [pending.encodeLoop_new (d' := d) new (by rw [answer]; rfl)]
        rfl
      | full => rw [encodeLoop_full new (by rw [answer]; rfl), prepend_error]
  · obtain ⟨count, bound, empty, -⟩ := encodeLoop_facts encoded encodeReady_seed le_rfl
    exact ⟨by simpa using empty, by simpa using count, by simpa using bound, encodeSymbols_nextCode encoded⟩

end Sys2Proof.Machine
end

section
/-!
SUPPORT. The decoder code by code: the runs of the decode loop, and the statement about them (41_lzw_core.md R90, R91, R94).
-/

namespace Sys2Proof.Machine

/-! ## Runs of the decode loop -/

/-- The decoder takes some codes from a dictionary and a previous entry to another such pair and gives some symbols, whatever the
output's capacity (41_lzw_core.md R90). -/
inductive DecodeRun (policy : Nat → Admission) : Dict → Sequence → List Nat → List Symbol → Dict → Sequence → Prop where
  | done {d w} : DecodeRun policy d w [] [] d w
  | entry {d d' w k entry ks out e v} : decodeEntry d w k = some entry →
      d.register (policy d.nextCode) (w ++ entry.take 1) = some d' → DecodeRun policy d' entry ks out e v →
      DecodeRun policy d w (k :: ks) (entry ++ out) e v

section
variable {policy : Nat → Admission} {ks : List Nat} {d e : Dict} {w v : Sequence} {out : List Symbol} {cap len : Nat}

section
variable {k : Nat} (i : Nat)

theorem decodeLoop_corrupt (corrupt : decodeEntry d w k = none) :
    decodeLoop policy cap (k :: ks) i d w len = .error { code := .corruptCode, info := i } := by
  simp only [decodeLoop, corrupt]

variable {entry : Sequence} (found : decodeEntry d w k = some entry)
include found

theorem decodeLoop_overflow (too_long : len + entry.length > cap) :
    decodeLoop policy cap (k :: ks) i d w len = .error { code := .outOverflow, info := i } := by
  simp only [decodeLoop, found, if_pos too_long]

variable (fits : len + entry.length ≤ cap)
include fits

theorem decodeLoop_full (full : d.register (policy d.nextCode) (w ++ entry.take 1) = none) :
    decodeLoop policy cap (k :: ks) i d w len = .error { code := .dictFull, info := i } := by
  simp only [decodeLoop, found, if_neg (Nat.not_lt.mpr fits), full]

theorem decodeLoop_entry {d' : Dict} (registered : d.register (policy d.nextCode) (w ++ entry.take 1) = some d') :
    decodeLoop policy cap (k :: ks) i d w len =
      prepend entry (decodeLoop policy cap ks (i + 1) d' entry (len + entry.length)) := by
  simp only [decodeLoop, found, if_neg (Nat.not_lt.mpr fits), registered]
  cases decodeLoop policy cap ks (i + 1) d' entry (len + entry.length) <;> rfl

theorem decodeLoop_last_entry {d' : Dict} (registered : d.register (policy d.nextCode) (w ++ entry.take 1) = some d') :
    decodeLoop policy cap [k] i d w len = .ok (entry, d') := by
  rw [decodeLoop_entry i found fits registered, decodeLoop, prepend_ok, List.append_nil]

end

/-- A code ends the decoding, or it has an entry that fits and a registration (41_lzw_core.md R90). -/
theorem decodeLoop_stops_or_goes_on (policy : Nat → Admission) (cap k i : Nat) (d : Dict) (w : Sequence) (len : Nat) :
    (∃ r, ∀ ks, decodeLoop policy cap (k :: ks) i d w len = .error r) ∨
      ∃ entry d', decodeEntry d w k = some entry ∧ len + entry.length ≤ cap ∧
        d.register (policy d.nextCode) (w ++ entry.take 1) = some d' := by
  cases found : decodeEntry d w k with
  | none => exact .inl ⟨_, fun _ => decodeLoop_corrupt i found⟩
  | some entry =>
    obtain too_long | fits := Nat.lt_or_ge cap (len + entry.length)
    · exact .inl ⟨_, fun _ => decodeLoop_overflow i found too_long⟩
    · cases registered : d.register (policy d.nextCode) (w ++ entry.take 1) with
      | none => exact .inl ⟨_, fun _ => decodeLoop_full i found fits registered⟩
      | some d' => exact .inr ⟨entry, d', rfl, fits, registered⟩

theorem exists_decodeRun {i : Nat} (h : decodeLoop policy cap ks i d w len = .ok (out, e)) :
    ∃ v, DecodeRun policy d w ks out e v := by
  induction ks generalizing i d w len out with
  | nil =>
    cases h
    exact ⟨w, .done⟩
  | cons k ks ih =>
    obtain ⟨r, stops⟩ | ⟨entry, d', found, fits, registered⟩ := decodeLoop_stops_or_goes_on policy cap k i d w len
    · rw [stops] at h
      cases h
    · rw [decodeLoop_entry i found fits registered, prepend_eq_ok] at h
      obtain ⟨later, rest, rfl⟩ := h
      obtain ⟨v, run⟩ := ih rest
      exact ⟨v, .entry found registered run⟩

theorem decodeLoop_append_error {i : Nat} {r : Raise} (h : decodeLoop policy cap ks i d w len = .error r) (more : List Nat) :
    decodeLoop policy cap (ks ++ more) i d w len = .error r := by
  induction ks generalizing i d w len with
  | nil => cases h
  | cons k ks ih =>
    rw [List.cons_append]
    obtain ⟨r', stops⟩ | ⟨entry, d', found, fits, registered⟩ := decodeLoop_stops_or_goes_on policy cap k i d w len
    · rw [stops] at h ⊢
      exact h
    · rw [decodeLoop_entry i found fits registered, prepend_eq_error] at h ⊢
      exact ih h

namespace DecodeRun
variable (run : DecodeRun policy d w ks out e v)
include run

theorem ready (h : DecodeReady d w) : DecodeReady e v := by
  induction run with
  | done => exact h
  | entry found registered _ ih => exact ih (h.next found registered)

/-- Further codes are decoded from where a run ends, if its output fits (41_lzw_core.md R90, R94). -/
theorem decodeLoop_append (more : List Nat) (i : Nat) (fits : len + out.length ≤ cap) :
    decodeLoop policy cap (ks ++ more) i d w len =
      prepend out (decodeLoop policy cap more (i + ks.length) e v (len + out.length)) := by
  induction run generalizing i len with
  | done => exact (prepend_nil _).symm
  | entry found registered _ ih =>
    rw [List.length_append, ← Nat.add_assoc] at fits
    rw [List.cons_append, decodeLoop_entry i found (by omega) registered, ih (i + 1) fits, prepend_prepend,
      List.length_append, List.length_cons, Nat.add_right_comm i 1, Nat.add_assoc len]
    rfl

end DecodeRun

end

/-! ## decodeCodes -/

section
variable {policy : Nat → Admission} {ks : List Nat} {cap : Nat} {out : List Symbol} {d : Dict}

theorem exists_symbol_of_lt {k : Nat} (h : k < 256) : ∃ c : Symbol, k = c.toNat :=
  ⟨BitVec.ofNat 8 k, (toNat_ofNat_lt h).symm⟩

/-- A first code that is no literal is corrupt (41_lzw_core.md R91). -/
theorem decodeCodes_first_not_literal {codes : List Nat} {k : Nat} (first : codes.head? = some k) (h : 256 ≤ k) :
    decodeCodes policy codes cap = .error { code := .corruptCode, info := 0 } := by
  obtain ⟨ks, rfl⟩ := List.head?_eq_some_iff.mp first
  exact if_neg (Nat.not_lt.mpr h)

/-- A literal first code gives its symbol, and the loop goes on from it (41_lzw_core.md R90). -/
theorem decodeCodes_literal (c : Symbol) :
    decodeCodes policy (c.toNat :: ks) cap =
      if 1 > cap then .error { code := .outOverflow, info := 0 }
      else prepend [c] (decodeLoop policy cap ks 1 Dict.seed [c] 1) := by
  have literal : c.toNat < Config.firstFreeCode := c.isLt
  simp only [decodeCodes, if_pos literal, seqOf_seed_symbol, List.length_singleton]
  cases decodeLoop policy cap ks 1 Dict.seed [c] 1 <;> rfl

/-- A decoding that does not fail starts with a literal and is a run of the loop. -/
theorem decodeCodes_cons_ok {k : Nat} (h : decodeCodes policy (k :: ks) cap = .ok (out, d)) :
    ∃ (c : Symbol) (later : List Symbol) (v : Sequence),
      k = c.toNat ∧ out = c :: later ∧ DecodeRun policy Dict.seed [c] ks later d v := by
  obtain literal | corrupt := Nat.lt_or_ge k 256
  · obtain ⟨c, rfl⟩ := exists_symbol_of_lt literal
    rw [decodeCodes_literal] at h
    split at h
    · cases h
    · obtain ⟨later, decoded, rfl⟩ := (prepend_eq_ok _).mp h
      obtain ⟨v, run⟩ := exists_decodeRun decoded
      exact ⟨c, later, v, rfl, rfl, run⟩
  · rw [decodeCodes_first_not_literal rfl corrupt] at h
    cases h

namespace DecodeRun
variable {c : Symbol} {v : Sequence} (run : DecodeRun policy Dict.seed [c] ks out d v) (fits : (c :: out).length ≤ cap)
include run fits

theorem decodeCodes_append (more : List Nat) :
    decodeCodes policy (c.toNat :: ks ++ more) cap =
      prepend (c :: out) (decodeLoop policy cap more (ks.length + 1) d v (c :: out).length) := by
  rw [List.length_cons] at fits
  rw [List.cons_append, decodeCodes_literal, if_neg (by omega), run.decodeLoop_append more 1 (by omega), prepend_prepend,
    Nat.add_comm 1, Nat.add_comm 1]
  rfl

theorem decodeCodes_eq : decodeCodes policy (c.toNat :: ks) cap = .ok (c :: out, d) := by
  have eq := run.decodeCodes_append fits []
  rwa [List.append_nil, decodeLoop, prepend_ok, List.append_nil] at eq

end DecodeRun

end

/-! ## One more code -/

section
variable {policy : Nat → Admission} {ks : List Nat} {cap : Nat} {d : Dict} {w : Sequence} {r : Raise}

theorem decodeCodes_append_error (h : decodeCodes policy ks cap = .error r) (more : List Nat) :
    decodeCodes policy (ks ++ more) cap = .error r := by
  cases ks with
  | nil => cases h
  | cons k ks =>
    obtain literal | corrupt := Nat.lt_or_ge k 256
    · obtain ⟨c, rfl⟩ := exists_symbol_of_lt literal
      rw [List.cons_append, decodeCodes_literal]
      rw [decodeCodes_literal] at h
      split at h
      · next too_long => rw [if_pos too_long]; exact h
      · next fits =>
        rw [if_neg fits, prepend_eq_error]
        exact decodeLoop_append_error ((prepend_eq_error _).mp h) more
    · rw [decodeCodes_first_not_literal rfl corrupt] at h ⊢
      exact h

theorem decodeEntry_eq_some {k : Nat} {entry : Sequence}
    (h : k < d.nextCode ∧ d.entries[k]? = some entry ∨ k = d.nextCode ∧ entry = w ++ w.take 1) :
    decodeEntry d w k = some entry := by
  obtain ⟨known, stands⟩ | ⟨rfl, rfl⟩ := h
  · exact (if_pos known).trans stands
  · exact (if_neg (lt_irrefl _)).trans (if_pos rfl)

/-- A run's last entry ends its output and is the previous entry of what follows (41_lzw_core.md R90). -/
theorem DecodeRun.of_append_singleton {j : Nat} {out : List Symbol} {e : Dict} {v : Sequence}
    (run : DecodeRun policy d w (ks ++ [j]) out e v) :
    ∃ out₀ e₀ v₀, DecodeRun policy d w ks out₀ e₀ v₀ ∧ out = out₀ ++ v := by
  induction ks generalizing d w out with
  | nil =>
    cases run with
    | entry _ _ run =>
      cases run
      exact ⟨[], d, w, .done, by simp⟩
  | cons k ks ih =>
    cases run with
    | entry found registered run =>
      obtain ⟨out₀, e₀, v₀, run₀, rfl⟩ := ih run
      exact ⟨_, e₀, v₀, .entry found registered run₀, (List.append_assoc ..).symm⟩

/-- Where a decoding stands after one more code: that code's entry `w` ends the output and is the previous entry of what follows
(41_lzw_core.md R90). -/
theorem decodeCodes_append_singleton {j : Nat} {out₀ out : List Symbol} {d₀ : Dict}
    (before : decodeCodes policy ks cap = .ok (out₀, d₀)) (h : decodeCodes policy (ks ++ [j]) cap = .ok (out, d)) :
    ∃ w, DecodeReady d w ∧ out = out₀ ++ w ∧ ∀ more, decodeCodes policy (ks ++ j :: more) cap =
      prepend out (decodeLoop policy cap more (ks.length + 1) d w out.length) := by
  have fits := decodeCodes_length h
  cases ks with
  | nil =>
    cases before
    obtain ⟨c, later, w, rfl, rfl, run⟩ := decodeCodes_cons_ok h
    cases run with
    | done => exact ⟨[c], decodeReady_seed c, rfl, fun more => DecodeRun.done.decodeCodes_append fits more⟩
  | cons k ks =>
    rw [List.cons_append] at h
    obtain ⟨c, later, w, rfl, rfl, run⟩ := decodeCodes_cons_ok h
    obtain ⟨later₀, e₀, v₀, run₀, rfl⟩ := run.of_append_singleton
    have before' := run₀.decodeCodes_eq (cap := cap) (by simp at fits ⊢; omega)
    cases before.symm.trans before'
    refine ⟨w, run.ready (decodeReady_seed c), rfl, fun more => ?_⟩
    rw [List.append_cons, List.cons_append, run.decodeCodes_append fits, List.length_append]
    rfl

/-- A capacity that holds the output changes nothing (41_lzw_core.md R94). -/
theorem decodeCodes_capacity {cap' : Nat} {out : List Symbol} (h : decodeCodes policy ks cap = .ok (out, d))
    (fits : out.length ≤ cap') : decodeCodes policy ks cap' = .ok (out, d) := by
  cases ks with
  | nil => exact h
  | cons k ks =>
    obtain ⟨c, later, v, rfl, rfl, run⟩ := decodeCodes_cons_ok h
    exact run.decodeCodes_eq fits

end

/-! ## A first code that is no literal, in the two decompress commands -/

section
variable {ys : List Byte} {W N : Nat} (header : readHeader (bytesToBits ys) = some (W, N)) (nonempty : 0 < N)
  (corrupt : 256 ≤ bitsToNat (((bytesToBits ys).drop 36).take W))
include header nonempty corrupt

theorem decompressRegularBytes_first_not_literal (cap : Nat) (fits : 36 + N * W ≤ (bytesToBits ys).length) :
    decompressRegularBytes cap ys = .error { code := .corruptCode, info := 0 } := by
  simp only [decompressRegularBytes, header, if_neg nonempty.ne', decodeFixedWidthArray, Config.hdrBits,
    if_neg (Nat.not_lt.mpr fits), readCodes_eq _ W 36 N fits]
  rw [decodeCodes_first_not_literal _ corrupt]
  simp [List.head?_range, nonempty.ne']

theorem decompressImprovedBytes_first_not_literal (dc : Option Nat) (cap : Nat)
    (fits : growPos W N ≤ (bytesToBits ys).length) :
    decompressImprovedBytes dc cap ys = .error { code := .corruptCode, info := 0 } := by
  have read := readGrowing_eq (bytesToBits ys) W N 0 0 (by rwa [Nat.zero_add])
  rw [show growPos W 0 = 36 from rfl, show growAfter 0 (Grow.start W) = Grow.start W from rfl] at read
  simp only [decompressImprovedBytes, header, if_neg nonempty.ne', Config.hdrBits, read]
  rw [decodeCodes_first_not_literal _ corrupt]
  simp [List.head?_range, nonempty.ne', growPos, growAfter, Grow.start]

end

/-- Settles O46: a decoding that has not failed is a run of the loop, one more code is one more step of it, and the two commands
read their first code at bit 36. -/
theorem firstCodeMustBeLiteral : Obligations.FirstCodeMustBeLiteral := by
  refine ⟨fun policy k ks cap corrupt => decodeCodes_first_not_literal rfl corrupt,
    fun policy cap => ⟨rfl, fun c => decodeCodes_literal c⟩,
    fun policy ks more cap r failed => decodeCodes_append_error failed more,
    fun policy ks j k cap out₀ out d₀ d before h => ?_,
    fun policy ks cap cap' out d h => ⟨decodeCodes_length h, decodeCodes_capacity h⟩,
    fun s readable long => ?_⟩
  · obtain ⟨w, ready, eq, step⟩ := decodeCodes_append_singleton before h
    refine ⟨w, ready.pending, eq, ?_⟩
    rw [step]
    refine ⟨fun above => ?_, fun below => ?_, fun entry found => ?_⟩
    · rw [decodeLoop_corrupt _ ((decodeEntry_none ready).mpr above), prepend_error]
    · rw [← ready.dense] at below
      exact ⟨_, List.getElem?_eq_getElem below⟩
    · have entry_of_k := decodeEntry_eq_some found
      obtain too_long | fits := Nat.lt_or_ge cap (out.length + entry.length)
      · rw [decodeLoop_overflow _ entry_of_k too_long, prepend_error, if_pos too_long]
      · rw [if_neg (Nat.not_lt.mpr fits)]
        cases answer : policy d.nextCode with
        | insert =>
          rw [decodeLoop_last_entry (d' := d.insert (w ++ entry.take 1)) _ entry_of_k fits (by rw [answer]; rfl)]
          rfl
        | skip =>
          rw [decodeLoop_last_entry (d' := d) _ entry_of_k fits (by rw [answer]; rfl)]
          rfl
        | full => rw [decodeLoop_full _ entry_of_k fits (by rw [answer]; rfl), prepend_error]
  · intro S F W N nonempty corrupt
    have bits : 8 * s.inLength = (bytesToBits s.inputBytes).length := by simp [State.inputBytes]
    have header : readHeader (bytesToBits s.inputBytes) = some (W, N) := readHeader_some (by omega)
    rw [bits]
    refine ⟨fun fits => ?_, fun fits => ?_⟩
    · have raised := decompressRegularBytes_first_not_literal header nonempty corrupt s.outCapacity fits
      exact exec_raise (i := .decompressRegular) readable raised (by decide)
    · have raised := decompressImprovedBytes_first_not_literal header nonempty corrupt s.platform.dictCap s.outCapacity fits
      exact exec_raise (i := .decompressImproved) readable raised (by decide)

end Sys2Proof.Machine
end

section
/-!
SUPPORT. The decoder follows the encoder, and the statement that decoding gives back what was encoded (41_lzw_core.md R92, R95).
-/

namespace Sys2Proof.Machine

section
variable {policy : Nat → Admission} {xs : List Symbol} {d d' e : Dict} {p w v : Sequence} {emitted : List Nat}

/-- A decoder one registration behind the encoder reads the pending sequence from its code: the code is known, or it is the one
about to be registered (41_lzw_core.md R90, R92). -/
theorem decodeEntry_emit (behind : DecodeReady d' p) (ready : EncodePending d w)
    (registered : d'.register (policy d'.nextCode) (p ++ w.take 1) = some d) : decodeEntry d' p (d.emit w) = some w := by
  have stands : d.entries[d.emit w]? = some w := seqOf_emit ready.mem
  generalize d.emit w = k at stands
  have of_known (known : d'.entries[k]? = some w) : decodeEntry d' p k = some w := by
    obtain ⟨below, -⟩ := List.getElem?_eq_some_iff.mp known
    rw [decodeEntry, if_pos (by rwa [← behind.dense])]
    exact known
  obtain ⟨-, rfl⟩ | ⟨-, rfl⟩ := register_cases registered
  · rw [entries_insert, List.getElem?_append] at stands
    split at stands
    · exact of_known stands
    · next above =>
      simp only [List.getElem?_singleton, Option.ite_none_right_eq_some, Option.some.injEq] at stands
      obtain ⟨at_next, own⟩ := stands
      have same_first : p.take 1 = w.take 1 := by
        conv_rhs => rw [← own]
        exact (List.take_append_of_le_length (List.length_pos_iff.mpr behind.pending)).symm
      rw [decodeEntry, if_neg (by rwa [← behind.dense]), if_pos (by rw [← behind.dense]; omega), same_first, own]
  · exact of_known stands

/-- The round trip, run by run: the decoder one registration behind gives the pending sequence and the symbols back from the codes
and the final flush, and ends with the encoder's dictionary (41_lzw_core.md R92, R95). -/
theorem EncodeRun.decodeRun (run : EncodeRun policy d w xs emitted e v) (ready : EncodePending d w)
    (behind : DecodeReady d' p) (registered : d'.register (policy d'.nextCode) (p ++ w.take 1) = some d) :
    DecodeRun policy d' p (emitted ++ [e.emit v]) (w ++ xs) e v := by
  induction run generalizing d' p with
  | done => exact .entry (decodeEntry_emit behind ready registered) registered .done
  | @extend d w c xs _ _ _ known _ ih =>
    rw [List.append_cons w c xs]
    refine ih (ready.extend known) behind ?_
    rwa [List.take_append_of_le_length (List.length_pos_iff.mpr ready.nonempty)]
  | emit new registered' _ ih =>
    have found := decodeEntry_emit behind ready registered
    exact .entry found registered (ih (ready.restart new registered') (behind.next found registered) registered')

end

/-- Settles O47: the first code is the first symbol, and from there the decoder follows the encoder one registration behind. -/
theorem encodeDecodeRoundTrip : Obligations.EncodeDecodeRoundTrip := by
  intro policy xs codes d cap encoded fits
  cases xs with
  | nil =>
    cases encoded
    exact ⟨Dict.seed, rfl, rfl⟩
  | cons c xs =>
    rw [encodeSymbols_cons] at encoded
    obtain ⟨emitted, v, run, rfl⟩ := exists_encodeRun encoded (encodePending_seed c)
    refine ⟨d, ?_, rfl⟩
    cases run with
    | done =>
      rw [(encodePending_seed c).emit_single]
      exact DecodeRun.done.decodeCodes_eq fits
    | extend known => exact absurd (seed_short _ known) (by simp)
    | emit new registered run =>
      rw [(encodePending_seed c).emit_single]
      have follows := run.decodeRun ((encodePending_seed c).restart new registered) (decodeReady_seed c) registered
      exact follows.decodeCodes_eq fits

end Sys2Proof.Machine
end

section
/-!
SUPPORT. The Regular variant: its width, its frozen dictionary, the size of its stream and its two commands, and the statements
about them (42_regular.md R98..R103).
-/

namespace Sys2Proof.Machine

/-! ## The width -/

section
variable (codes : List Nat)

theorem regularWidth_eq_foldl :
    regularWidth codes = if codes = [] then 8 else max 8 (bitlen (codes.foldl max 0)) := by
  rw [foldl_max_maxCode, Nat.zero_max, regularWidth]

theorem le_regularWidth : 8 ≤ regularWidth codes := by
  unfold regularWidth
  split
  · exact le_rfl
  · exact le_max_left ..

variable {codes}

theorem lt_two_pow_regularWidth {k : Nat} (h : k ∈ codes) : k < 2 ^ regularWidth codes := by
  rw [regularWidth, if_neg (List.ne_nil_of_mem h)]
  calc k ≤ maxCode codes := le_maxCode h
    _ < 2 ^ bitlen (maxCode codes) := bitlen_lt _
    _ ≤ _ := Nat.pow_le_pow_right Nat.two_pos (le_max_right ..)

/-- No smaller width of at least 8 holds every code (42_regular.md R100). -/
theorem regularWidth_le {w : Nat} (byte : 8 ≤ w) (holds : ∀ k ∈ codes, k < 2 ^ w) : regularWidth codes ≤ w := by
  unfold regularWidth
  split
  · exact byte
  · next nonempty => exact max_le byte (bitlen_le (holds _ (maxCode_mem nonempty)))

theorem regularWidth_le_sixteen (h : ∀ k ∈ codes, k ≤ 65535) : regularWidth codes ≤ 16 :=
  regularWidth_le (by decide) fun k hk => Nat.lt_succ_of_le (h k hk)

theorem regularWidth_literals (h : ∀ k ∈ codes, k < 256) : regularWidth codes = 8 :=
  (regularWidth_le le_rfl h).antisymm (le_regularWidth codes)

end

/-- Settles O50: the width of the largest code holds every code, and any width that holds every code holds the largest. -/
theorem regularWidthIsLeast : Obligations.RegularWidthIsLeast :=
  ⟨rfl, fun codes nonempty =>
    ⟨(regularWidth_eq_foldl codes).trans (if_neg nonempty), fun _ => lt_two_pow_regularWidth, fun _ => regularWidth_le,
      regularWidth_le_sixteen⟩⟩

/-! ## The dictionary -/

/-- A registration counts up to 65536 and no further (42_regular.md R98, R99). -/
theorem nextCode_register_regular {d d' : Dict} {q : Sequence} (registered : d.register (admitRegular d.nextCode) q = some d')
    (h : d.nextCode ≤ 65536) : d'.nextCode = min (d.nextCode + 1) 65536 := by
  unfold admitRegular at registered
  split at registered <;> cases registered
  · next room => exact (Nat.min_eq_left (Nat.succ_le_succ room)).symm
  · next frozen => rw [Config.regMaxCode] at frozen; omega

theorem EncodeRun.nextCode_regular {d e : Dict} {w v : Sequence} {xs : List Symbol} {emitted : List Nat}
    (run : EncodeRun admitRegular d w xs emitted e v) (h : d.nextCode ≤ 65536) :
    e.nextCode = min (d.nextCode + emitted.length) 65536 := by
  induction run with
  | done => exact (Nat.min_eq_left h).symm
  | extend _ _ ih => exact ih h
  | emit _ registered _ ih =>
    have counted := nextCode_register_regular registered h
    rw [ih (by omega), counted, List.length_cons]
    omega

theorem DecodeRun.nextCode_regular_le {d e : Dict} {w v : Sequence} {ks : List Nat} {out : List Symbol}
    (run : DecodeRun admitRegular d w ks out e v) (h : d.nextCode ≤ 65536) : e.nextCode ≤ 65536 := by
  induction run with
  | done => exact h
  | entry _ registered _ ih => exact ih (nextCode_register_regular registered h ▸ min_le_right ..)

theorem decodeCodes_regular_nextCode_le {ks : List Nat} {cap : Nat} {out : List Symbol} {d : Dict}
    (h : decodeCodes admitRegular ks cap = .ok (out, d)) : d.nextCode ≤ 65536 := by
  cases ks with
  | nil => cases h; decide
  | cons k ks =>
    obtain ⟨c, later, v, -, -, run⟩ := decodeCodes_cons_ok h
    exact run.nextCode_regular_le (by decide)

/-- A Regular encoding always succeeds (42_regular.md R99). -/
theorem exists_encodeSymbols_regular (xs : List Symbol) : ∃ codes d, encodeSymbols admitRegular xs = .ok (codes, d) :=
  encodeLoop_total admitRegular_not_full

/-- An encoder's codes are exactly 0 .. nextCode - 1 (41_lzw_core.md R85). -/
theorem encodeSymbols_dense {policy : Nat → Admission} {xs : List Symbol} {codes : List Nat} {d : Dict}
    (h : encodeSymbols policy xs = .ok (codes, d)) : d.entries.length = d.nextCode := by
  cases xs with
  | nil => cases h; exact length_seed
  | cons c xs =>
    rw [encodeSymbols_cons] at h
    obtain ⟨emitted, v, run, -⟩ := exists_encodeRun h (encodePending_seed c)
    exact (run.ready (encodePending_seed c)).dense

section
variable {xs : List Symbol} {codes : List Nat} {d : Dict} (encoded : encodeSymbols admitRegular xs = .ok (codes, d))
include encoded

theorem encodeSymbols_regular_nextCode (nonempty : xs ≠ []) : d.nextCode = min (256 + codes.length - 1) 65536 := by
  obtain ⟨c, xs, rfl⟩ := List.exists_cons_of_ne_nil nonempty
  rw [encodeSymbols_cons] at encoded
  obtain ⟨emitted, v, run, rfl⟩ := exists_encodeRun encoded (encodePending_seed c)
  rw [run.nextCode_regular (by decide), nextCode_seed, List.length_append, List.length_singleton]
  rfl

theorem encodeSymbols_regular_nextCode_le : d.nextCode ≤ 65536 := by
  obtain rfl | nonempty := eq_or_ne xs []
  · cases encoded; decide
  · exact encodeSymbols_regular_nextCode encoded nonempty ▸ min_le_right ..

theorem encodeSymbols_regular_code_le : ∀ k ∈ codes, k ≤ 65535 := by
  obtain ⟨-, -, -, -, below, -⟩ := encodeLoop_facts encoded encodeReady_seed le_rfl
  have := encodeSymbols_regular_nextCode_le encoded
  exact fun k hk => Nat.le_of_lt_succ ((below k hk).trans_le this)

theorem encodeSymbols_regular_width_le : regularWidth codes ≤ 16 :=
  regularWidth_le_sixteen (encodeSymbols_regular_code_le encoded)

end

/-- Settles O49: each code but the final flush's registers an entry, until nextCode is 65536. -/
theorem regularDictionaryFreezes : Obligations.RegularDictionaryFreezes := by
  intro xs
  obtain ⟨codes, d, encoded⟩ := exists_encodeSymbols_regular xs
  exact ⟨codes, d, encoded, encodeSymbols_regular_code_le encoded, encodeSymbols_regular_nextCode encoded,
    encodeSymbols_dense encoded⟩

/-! ## COMPRESS_REGULAR -/

theorem saturate32_lt (n : Nat) : saturate32 n < 2 ^ 32 := (min_le_right ..).trans_lt (by decide)

theorem saturate32_of_lt {n : Nat} (h : n < 2 ^ 32) : saturate32 n = n := Nat.min_eq_left (Nat.le_sub_one_of_lt h)

theorem foldl_writeFixedWidth (codes : List Nat) (S : Bits) (W : Nat) :
    codes.foldl (fun S k => writeFixedWidth S k W) S = S ++ writeCodes W codes := by
  induction codes generalizing S with
  | nil => exact (List.append_nil S).symm
  | cons k ks ih =>
    rw [List.foldl_cons, ih, writeCodes, writeFixedWidth, writeFixedWidth, List.nil_append, List.append_assoc]

/-- The stream written code by code (42_regular.md R102). -/
theorem foldl_eq_regularBits (codes : List Nat) :
    codes.foldl (fun S k => writeFixedWidth S k (regularWidth codes)) (writeHeader [] (regularWidth codes) codes.length) =
      regularBits codes :=
  foldl_writeFixedWidth ..

/-- A stream of N codes at width W has 36 + N·W bits (42_regular.md R101). -/
theorem length_regularBits (codes : List Nat) : (regularBits codes).length = 36 + codes.length * regularWidth codes := by
  rw [regularBits, List.length_append, length_writeHeader, length_writeCodes, List.length_nil, Nat.zero_add]

/-- What COMPRESS_REGULAR completes with for some codes and a final dictionary (42_regular.md R102). -/
def regularCompletion (codes : List Nat) (d : Dict) : Completion where
  out := bitsToBytes (regularBits codes)
  hdrWidth := regularWidth codes
  hdrCount := codes.length
  lastWidth := if codes.length ≥ 1 then regularWidth codes else 0
  dictNext := d.nextCode

section
variable {xs : List Symbol} {codes : List Nat} {d : Dict} {cap : Nat}
  (encoded : encodeSymbols admitRegular xs = .ok (codes, d))
include encoded

theorem compressRegularBytes_overflow (long : (bitsToBytes (regularBits codes)).length > cap) :
    compressRegularBytes cap xs =
      .error { code := .outOverflow, info := saturate32 (bitsToBytes (regularBits codes)).length } := by
  simp only [compressRegularBytes, encoded, if_pos long]

theorem compressRegularBytes_fits (fits : (bitsToBytes (regularBits codes)).length ≤ cap) :
    compressRegularBytes cap xs = .ok (regularCompletion codes d) := by
  simp only [compressRegularBytes, encoded, if_neg (Nat.not_lt.mpr fits), regularCompletion]

end

theorem compressRegularBytes_eq_ok {xs : List Symbol} {cap : Nat} {c : Completion}
    (h : compressRegularBytes cap xs = .ok c) :
    ∃ codes d, encodeSymbols admitRegular xs = .ok (codes, d) ∧ c = regularCompletion codes d := by
  obtain ⟨codes, d, encoded⟩ := exists_encodeSymbols_regular xs
  refine ⟨codes, d, encoded, ?_⟩
  obtain long | fits := Nat.lt_or_ge cap (bitsToBytes (regularBits codes)).length
  · rw [compressRegularBytes_overflow encoded long] at h
    cases h
  · rw [compressRegularBytes_fits encoded fits] at h
    exact (Except.ok.inj h).symm

@[simp] theorem length_inputBytes (s : State) : s.inputBytes.length = s.inLength := by
  simp [State.inputBytes]

/-- A count of codes fits HDR_COUNT: there are no more of them than input bytes (41_lzw_core.md R88). -/
theorem encodeSymbols_inputBytes_count_lt {policy : Nat → Admission} {s : State} {codes : List Nat} {d : Dict}
    (encoded : encodeSymbols policy s.inputBytes = .ok (codes, d)) : codes.length < 2 ^ 32 := by
  obtain ⟨count, -⟩ := encodeLoop_facts encoded encodeReady_seed le_rfl
  exact (by simpa using count : codes.length ≤ s.inLength).trans_lt (inLen_lt s)

/-- Settles O51: the registers hold the completion's numbers exactly, and its output packs the header and the codes. -/
theorem regularStreamSize : Obligations.RegularStreamSize := by
  refine ⟨fun s t h hok => ?_, fun codes => ⟨length_regularBits codes, regularWidth_literals⟩⟩
  obtain ⟨c, m, computed, -, rfl⟩ := exec_result_ok h hok
  obtain ⟨codes, d, encoded, rfl⟩ := compressRegularBytes_eq_ok computed
  have width := encodeSymbols_regular_width_le encoded
  have count : (completeOk (regularCompletion codes d) m s).hdrCount.toNat = codes.length :=
    toNat_ofNat_lt (encodeSymbols_inputBytes_count_lt encoded)
  have hdrWidth : (completeOk (regularCompletion codes d) m s).hdrWidth.toNat = regularWidth codes :=
    toNat_ofNat_lt (width.trans_lt (by decide))
  rw [completeOk_outLen_toNat computed, count, hdrWidth, ← length_regularBits]
  exact length_bitsToBytes _

/-- Settles O28: the codec's answers in their order, each completed as the four commands' shared laws say. -/
theorem compressRegularMeaning : Obligations.CompressRegularMeaning := by
  intro s canonical latched
  refine ⟨fun j refused => exec_bus_read latched refused, fun readable => ?_⟩
  obtain ⟨codes, d, encoded⟩ := exists_encodeSymbols_regular s.inputBytes
  refine ⟨codes, d, encoded, ?_⟩
  simp only [← regularWidth_eq_foldl, foldl_eq_regularBits]
  refine ⟨fun long => ?_, fun fits => ?_⟩
  · exact exec_raise (i := .compressRegular) readable (compressRegularBytes_overflow encoded long) (saturate32_lt _)
  · have computed : codecOf .compressRegular s s.inputBytes = .ok (regularCompletion codes d) :=
      compressRegularBytes_fits encoded fits
    have width := encodeSymbols_regular_width_le encoded
    have next := encodeSymbols_regular_nextCode_le encoded
    refine ⟨fun j hj refused => exec_bus_write latched readable computed hj refused, fun writable => ?_⟩
    exact exec_ok canonical latched readable computed writable rfl rfl rfl (saturate32_of_lt (next.trans_lt (by decide)))
      (by omega) (encodeSymbols_inputBytes_count_lt encoded) (by split <;> omega)

/-! ## DECOMPRESS_REGULAR -/

/-- Codes that all fit, each at its place (40_bitchannel.md R83). -/
theorem decodeFixedWidthArray_fits {S : Bits} {o W n : Nat} (fits : o + n * W ≤ S.length) :
    decodeFixedWidthArray S o W n = .ok ((List.range n).map fun i => bitsToNat ((S.drop (o + i * W)).take W)) := by
  simp only [decodeFixedWidthArray, if_neg (Nat.not_lt.mpr fits), readCodes_eq S W o n fits]

section
variable {ys : List Byte} (cap : Nat)

theorem decompressRegularBytes_malformed (short : (bytesToBits ys).length < 36) :
    decompressRegularBytes cap ys = .error { code := .malformedHeader, info := ys.length } := by
  simp only [decompressRegularBytes, readHeader_none short]

variable {W N : Nat}

theorem decompressRegularBytes_empty (header : readHeader (bytesToBits ys) = some (W, 0)) :
    decompressRegularBytes cap ys = .ok { out := [], hdrWidth := W, hdrCount := 0, lastWidth := 0, dictNext := 256 } := by
  simp only [decompressRegularBytes, header, if_true, Config.firstFreeCode]

variable (header : readHeader (bytesToBits ys) = some (W, N)) (positive : 0 < N)
include header positive

theorem decompressRegularBytes_truncated (short : 36 + N * W > (bytesToBits ys).length) :
    decompressRegularBytes cap ys =
      .error { code := .truncatedStream, info := ((bytesToBits ys).length - 36) / W } := by
  simp only [decompressRegularBytes, header, if_neg positive.ne', decodeFixedWidthArray, Config.hdrBits, if_pos short]

variable {cap} {codes : List Nat} (read : decodeFixedWidthArray (bytesToBits ys) 36 W N = .ok codes)
include read

theorem decompressRegularBytes_raise {r : Raise} (decoded : decodeCodes admitRegular codes cap = .error r) :
    decompressRegularBytes cap ys = .error r := by
  simp only [decompressRegularBytes, header, if_neg positive.ne', Config.hdrBits, read, decoded]

theorem decompressRegularBytes_ok {out : List Symbol} {d : Dict} (decoded : decodeCodes admitRegular codes cap = .ok (out, d)) :
    decompressRegularBytes cap ys =
      .ok { out := out, hdrWidth := W, hdrCount := N, lastWidth := W, dictNext := d.nextCode } := by
  simp only [decompressRegularBytes, header, if_neg positive.ne', Config.hdrBits, read, decoded]

end

/-- Settles O29: the header, the codes and the decoder answer in their order, each completed as the four commands' shared laws
say. -/
theorem decompressRegularMeaning : Obligations.DecompressRegularMeaning := by
  intro s canonical latched
  refine ⟨fun j refused => exec_bus_read latched refused, fun readable => ?_⟩
  have bits : (bytesToBits s.inputBytes).length = 8 * s.inLength := by rw [length_bytesToBits, length_inputBytes]
  intro S F W N codes
  have header (long : 5 ≤ s.inLength) : readHeader S = some (W, N) := readHeader_some (by rw [bits]; omega)
  refine ⟨fun short => ?_, fun long no_codes => ?_, fun long positive short => ?_, fun long positive fits => ?_⟩
  · have malformed := decompressRegularBytes_malformed s.outCapacity (ys := s.inputBytes) (by omega)
    rw [length_inputBytes] at malformed
    exact exec_raise (i := .decompressRegular) readable malformed (inLen_lt s)
  · obtain ⟨-, width, -⟩ := readHeader_range (header long)
    have computed := decompressRegularBytes_empty s.outCapacity (no_codes ▸ header long)
    exact exec_ok (i := .decompressRegular) canonical latched readable computed (fun j hj => absurd hj (Nat.not_lt_zero j))
      rfl rfl rfl rfl (by omega) (by decide) (by decide)
  · obtain ⟨-, -, count, -⟩ := readHeader_range (header long)
    have truncated := decompressRegularBytes_truncated s.outCapacity (header long) positive (bits ▸ short)
    rw [bits] at truncated
    have index : (8 * s.inLength - 36) / W < N := Nat.div_lt_of_lt_mul (by rw [Nat.mul_comm W]; omega)
    exact exec_raise (i := .decompressRegular) readable truncated (index.trans count)
  · obtain ⟨-, width, count, -⟩ := readHeader_range (header long)
    have read : decodeFixedWidthArray S 36 W N = .ok codes := decodeFixedWidthArray_fits (bits ▸ fits)
    have codes_length : codes.length = N := by rw [List.length_map, List.length_range]
    refine ⟨fun r decoded => ⟨decodeCodes_not_full admitRegular_not_full decoded, ?_⟩, fun out d decoded => ?_⟩
    · have index := decodeCodes_error_index decoded
      exact exec_raise readable (decompressRegularBytes_raise (header long) positive read decoded) (by omega)
    · have computed : codecOf .decompressRegular s s.inputBytes = _ :=
        decompressRegularBytes_ok (header long) positive read decoded
      have next := decodeCodes_regular_nextCode_le decoded
      refine ⟨fun j hj refused => exec_bus_write latched readable computed hj refused, fun writable => ?_⟩
      exact exec_ok canonical latched readable computed writable rfl rfl rfl (saturate32_of_lt (next.trans_lt (by decide)))
        (by omega) count (by omega)

end Sys2Proof.Machine
end

section
/-!
SUPPORT. The Improved variant: its capacity, its grow schedule and its two commands, and the statements about them
(43_improved.md R105..R113).
-/

namespace Sys2Proof.Machine

/-! ## The capacity -/

section
variable {cap : Nat} {d : Dict} (q : Sequence)

theorem register_admitImproved_of_lt (room : d.nextCode < cap) :
    d.register (admitImproved (some cap) d.nextCode) q = some (d.insert q) := by
  simp only [admitImproved, if_pos room, Dict.register]

theorem register_admitImproved_of_le (full : cap ≤ d.nextCode) :
    d.register (admitImproved (some cap) d.nextCode) q = none := by
  simp only [admitImproved, if_neg (Nat.not_lt.mpr full), Dict.register]

end

theorem admitImproved_none_ne_full (n : Nat) : admitImproved none n ≠ .full := nofun

theorem admitImproved_ne_skip (dictCap : Option Nat) (n : Nat) : admitImproved dictCap n ≠ .skip := by
  unfold admitImproved
  split
  · nofun
  · split <;> nofun

section
variable {cap : Nat} {d e : Dict} {w v : Sequence} {xs : List Symbol} {emitted : List Nat}

theorem EncodeRun.encodeLoop_eq {policy : Nat → Admission} (run : EncodeRun policy d w xs emitted e v)
    (ready : EncodePending d w) (n : Nat) : encodeLoop policy xs d w n = .ok (emitted ++ [e.emit v], e) := by
  have eq := run.encodeLoop_append [] n
  rwa [List.append_nil, encodeLoop_nil (run.ready ready).nonempty, prepend_ok] at eq

/-- A run of the unbounded encoder that stays within a capacity is one under that capacity (43_improved.md R106). -/
theorem EncodeRun.bounded (run : EncodeRun (admitImproved none) d w xs emitted e v) (room : e.nextCode ≤ cap) :
    EncodeRun (admitImproved (some cap)) d w xs emitted e v := by
  induction run with
  | done => exact .done
  | extend known _ ih => exact .extend known (ih room)
  | emit new registered run ih =>
    have grown := run.nextCode_eq (admitImproved_ne_skip none)
    cases registered
    rw [nextCode_insert] at grown
    exact .emit new (register_admitImproved_of_lt _ (by omega)) (ih room)

/-- A run of the unbounded encoder that passes a capacity ends with DICT_FULL under it, at the code whose registration comes after
`cap - d.nextCode` others (43_improved.md R106). -/
theorem EncodeRun.encodeLoop_dictFull (run : EncodeRun (admitImproved none) d w xs emitted e v) (start : d.nextCode ≤ cap)
    (passed : cap < e.nextCode) (n : Nat) :
    encodeLoop (admitImproved (some cap)) xs d w n = .error { code := .dictFull, info := n + (cap - d.nextCode) } := by
  induction run generalizing n with
  | done => omega
  | extend known _ ih => rw [encodeLoop_extend known, ih start passed]
  | @emit d _ _ _ _ _ _ _ new registered _ ih =>
    cases registered
    obtain room | full := Nat.lt_or_ge d.nextCode cap
    · rw [encodeLoop_register new (register_admitImproved_of_lt _ room), ih room passed, prepend_error, nextCode_insert]
      congr 2
      omega
    · rw [encodeLoop_full new (register_admitImproved_of_le _ full), Nat.sub_eq_zero_of_le full, Nat.add_zero]

/-- As `EncodeRun.encodeLoop_dictFull`, for the decoder (43_improved.md R106). -/
theorem DecodeRun.decodeLoop_dictFull {ks : List Nat} {out : List Symbol} {outCap len : Nat}
    (run : DecodeRun (admitImproved none) d w ks out e v) (start : d.nextCode ≤ cap) (passed : cap < e.nextCode)
    (fits : len + out.length ≤ outCap) (i : Nat) :
    decodeLoop (admitImproved (some cap)) outCap ks i d w len =
      .error { code := .dictFull, info := i + (cap - d.nextCode) } := by
  induction run generalizing i len with
  | done => omega
  | @entry d _ _ _ _ _ _ _ _ found registered _ ih =>
    cases registered
    rw [List.length_append] at fits
    obtain room | full := Nat.lt_or_ge d.nextCode cap
    · rw [decodeLoop_entry i found (by omega) (register_admitImproved_of_lt _ room), ih room passed (by omega), prepend_error,
        nextCode_insert]
      congr 2
      omega
    · rw [decodeLoop_full i found (by omega) (register_admitImproved_of_le _ full), Nat.sub_eq_zero_of_le full,
        Nat.add_zero]

end

section
variable {cap : Nat} {xs : List Symbol} {codes : List Nat} {d : Dict}

section
variable (encoded : encodeSymbols (admitImproved none) xs = .ok (codes, d))
include encoded

theorem encodeSymbols_bounded (room : d.nextCode ≤ cap) :
    encodeSymbols (admitImproved (some cap)) xs = .ok (codes, d) := by
  cases xs with
  | nil => exact encoded
  | cons c xs =>
    rw [encodeSymbols_cons] at encoded ⊢
    obtain ⟨emitted, v, run, rfl⟩ := exists_encodeRun encoded (encodePending_seed c)
    exact (run.bounded room).encodeLoop_eq (encodePending_seed c) 0

theorem encodeSymbols_dictFull (start : 256 ≤ cap) (passed : cap < d.nextCode) :
    encodeSymbols (admitImproved (some cap)) xs = .error { code := .dictFull, info := cap - 256 } := by
  cases xs with
  | nil => cases encoded; exact absurd passed (Nat.not_lt.mpr start)
  | cons c xs =>
    rw [encodeSymbols_cons] at encoded ⊢
    obtain ⟨emitted, v, run, -⟩ := exists_encodeRun encoded (encodePending_seed c)
    rw [run.encodeLoop_dictFull start passed, nextCode_seed, Nat.zero_add]

end

/-- The decoder's DICT_FULL comes one code later than the encoder's: its first code registers nothing (43_improved.md R106). -/
theorem decodeCodes_dictFull {outCap : Nat} (decoded : decodeCodes (admitImproved none) codes outCap = .ok (xs, d))
    (start : 256 ≤ cap) (passed : cap < d.nextCode) :
    decodeCodes (admitImproved (some cap)) codes outCap = .error { code := .dictFull, info := cap - 255 } := by
  have fits := decodeCodes_length decoded
  cases codes with
  | nil => cases decoded; exact absurd passed (Nat.not_lt.mpr start)
  | cons k ks =>
    obtain ⟨c, later, v, rfl, rfl, run⟩ := decodeCodes_cons_ok decoded
    rw [List.length_cons] at fits
    rw [decodeCodes_literal, if_neg (by omega), run.decodeLoop_dictFull start passed (by omega), prepend_error, nextCode_seed,
      show 1 + (cap - 256) = cap - 255 by omega]

end

/-- Settles O56: an encoding of N codes ends at nextCode 256 + N - 1, and both loops under a finite DICT_CAP follow the unbounded
ones until nextCode would pass it. -/
theorem improvedCapacityLaw : Obligations.ImprovedCapacityLaw := by
  intro xs cap nonempty fits
  obtain ⟨codes, d, encoded⟩ : ∃ codes d, encodeSymbols (admitImproved none) xs = .ok (codes, d) :=
    encodeLoop_total admitImproved_none_ne_full
  have next := encodeSymbols_nextCode encoded (admitImproved_ne_skip none) nonempty
  obtain ⟨-, -, no_codes, -⟩ := encodeLoop_facts encoded encodeReady_seed le_rfl
  have positive : 0 < codes.length := List.length_pos_iff.mpr fun empty => nonempty (no_codes.mp empty).1
  obtain ⟨e, decoded, same_next⟩ := encodeDecodeRoundTrip (admitImproved none) xs codes d cap encoded fits
  refine ⟨codes, d, encoded, by omega, ⟨e, decoded, same_next⟩, fun dictCap large => ⟨fun room => ?_, fun passed => ?_⟩⟩
  · have encoded' := encodeSymbols_bounded (cap := dictCap) encoded (by omega)
    exact ⟨encoded', encodeDecodeRoundTrip _ xs codes d cap encoded' fits⟩
  · exact ⟨encodeSymbols_dictFull encoded (by omega) (by omega), decodeCodes_dictFull decoded (by omega) (by omega)⟩

/-! ## The grow schedule -/

/-- A schedule that starts at 9 or more has the counter's width, once that has reached the starting width (43_improved.md R109,
R114). -/
theorem growAfter_width_eq_bitlen {W0 i : Nat} (wide : 9 ≤ W0) (reached : 2 ^ (W0 - 1) ≤ 256 + i) :
    (growAfter i (Grow.start W0)).width = bitlen (256 + i) := by
  obtain ⟨grow_at, grown, below, above⟩ := growAfter_schedule W0 i wide
  generalize growAfter i (Grow.start W0) = g at *
  have lower : 2 ^ (g.width - 1) ≤ 256 + i := by
    obtain eq | lt := grown.eq_or_lt
    · rwa [← eq]
    · exact above lt
  obtain ⟨w, width⟩ : ∃ w, g.width = w + 1 := ⟨g.width - 1, by omega⟩
  rw [width] at grow_at lower ⊢
  exact (bitlen_eq lower (grow_at ▸ below)).symm

/-- A schedule that starts at 8 or less never grows: its counter is past 2^W0 from the first step on (43_improved.md R114). -/
theorem growAfter_start_narrow {W0 : Nat} (narrow : W0 ≤ 8) (i : Nat) :
    growAfter i (Grow.start W0) = { width := W0, simulatedNext := 256 + i, growAt := 2 ^ W0 } := by
  induction i with
  | zero => rfl
  | succ i ih =>
    have small : 2 ^ W0 ≤ 2 ^ 8 := Nat.pow_le_pow_right Nat.two_pos narrow
    have never : 256 + i + 1 ≠ 2 ^ W0 := by omega
    rw [growAfter_succ, ih, growStep, if_neg never]
    rfl

theorem growAfter_width_nine (i : Nat) : (growAfter i (Grow.start 9)).width = bitlen (i + 256) := by
  rw [growAfter_width_eq_bitlen le_rfl (Nat.le_add_right 256 i), Nat.add_comm]

/-- No code of a stream is wider than 33 bits (43_improved.md R111). -/
theorem growAfter_width_le {W0 i : Nat} (le : W0 ≤ 16) (count : i < 2 ^ 32) : (growAfter i (Grow.start W0)).width ≤ 33 := by
  obtain narrow | wide := Nat.lt_or_ge W0 9
  · rw [growAfter_start_narrow (Nat.le_of_lt_succ narrow)]
    exact le.trans (by decide)
  · obtain ⟨-, -, -, above⟩ := growAfter_schedule W0 i wide
    by_contra wider
    have reached := above (by omega)
    have large : 2 ^ 33 ≤ 2 ^ ((growAfter i (Grow.start W0)).width - 1) := Nat.pow_le_pow_right Nat.two_pos (by omega)
    omega

/-- Settles O53: the counter counts the codes, and from 9 on the width is the counter's bit length. -/
theorem growScheduleClosedForm : Obligations.GrowScheduleClosedForm := fun i =>
  ⟨growAfter_simulatedNext i (Grow.start 9), growAfter_width_nine i⟩

/-! ## The stream -/

section
variable (codes : List Nat)

theorem foldl_writeFixedWidth_zipIdx (S : Bits) (i last : Nat) :
    (codes.zipIdx i).foldl (fun S p => writeFixedWidth S p.1 (bitlen (p.2 + 256))) S =
      S ++ (writeGrowing codes (growAfter i (Grow.start 9)) last).1 := by
  induction codes generalizing S i last with
  | nil => exact (List.append_nil S).symm
  | cons k ks ih =>
    rw [List.zipIdx_cons, List.foldl_cons, ih _ _ (bitlen (i + 256)), writeGrowing, ← growAfter_succ, growAfter_width_nine,
      writeFixedWidth, writeFixedWidth, List.nil_append, List.append_assoc]

/-- The stream written code by code, code i at bitlen(i + 256) bits (43_improved.md R109, R112). -/
theorem foldl_eq_improvedBits :
    codes.zipIdx.foldl (fun S p => writeFixedWidth S p.1 (bitlen (p.2 + 256))) (writeHeader [] 9 codes.length) =
      improvedBits codes :=
  foldl_writeFixedWidth_zipIdx codes _ 0 0

theorem writeGrowing_last (W i last : Nat) :
    (writeGrowing codes (growAfter i (Grow.start W)) last).2 =
      if codes = [] then last else (growAfter (i + codes.length - 1) (Grow.start W)).width := by
  induction codes generalizing i last with
  | nil => rfl
  | cons k ks ih =>
    rw [writeGrowing, ← growAfter_succ, ih, if_neg (List.cons_ne_nil k ks), List.length_cons, ← Nat.add_assoc,
      Nat.add_right_comm i 1]
    split
    · next single => rw [single, List.length_nil]; rfl
    · rfl

/-- LAST_WIDTH of a stream the block writes (43_improved.md R109, R112). -/
theorem improvedLastWidth_eq :
    improvedLastWidth codes = if codes.length ≥ 1 then bitlen (codes.length - 1 + 256) else 0 := by
  refine (writeGrowing_last codes 9 0 0).trans ?_
  rw [growAfter_width_nine, Nat.zero_add, ← ite_not]
  simp only [← List.length_pos_iff, ge_iff_le, Nat.succ_le_iff]

theorem improvedLastWidth_le (count : codes.length < 2 ^ 32) : improvedLastWidth codes ≤ 33 := by
  rw [improvedLastWidth_eq]
  split
  · exact bitlen_le (by omega)
  · omega

end

/-! ## COMPRESS_IMPROVED -/

/-- The index that DICT_FULL carries is that of a symbol's code (41_lzw_core.md R87). -/
theorem encodeLoop_error_index {policy : Nat → Admission} {xs : List Symbol} {d : Dict} {w : Sequence} {n : Nat} {r : Raise}
    (h : encodeLoop policy xs d w n = .error r) : r.info < n + xs.length := by
  induction xs generalizing d w n with
  | nil => cases h
  | cons c xs ih =>
    rw [List.length_cons]
    by_cases known : w ++ [c] ∈ d.entries
    · rw [encodeLoop_extend known] at h
      exact Nat.lt_succ_of_lt (ih h)
    · cases registered : d.register (policy d.nextCode) (w ++ [c]) with
      | none =>
        rw [encodeLoop_full known registered] at h
        cases h
        exact Nat.lt_add_of_pos_right (Nat.succ_pos _)
      | some d' =>
        rw [encodeLoop_register known registered, prepend_eq_error] at h
        have := ih h
        omega

/-- What COMPRESS_IMPROVED completes with for some codes and a final dictionary (43_improved.md R112). -/
def improvedCompletion (codes : List Nat) (d : Dict) : Completion where
  out := bitsToBytes (improvedBits codes)
  hdrWidth := 9
  hdrCount := codes.length
  lastWidth := improvedLastWidth codes
  dictNext := saturate32 d.nextCode

section
variable {xs : List Symbol} {dictCap : Option Nat} {cap : Nat}

theorem compressImprovedBytes_raise {r : Raise} (raised : encodeSymbols (admitImproved dictCap) xs = .error r) :
    compressImprovedBytes dictCap cap xs = .error r := by
  simp only [compressImprovedBytes, raised]

variable {codes : List Nat} {d : Dict} (encoded : encodeSymbols (admitImproved dictCap) xs = .ok (codes, d))
include encoded

theorem compressImprovedBytes_overflow (long : (bitsToBytes (improvedBits codes)).length > cap) :
    compressImprovedBytes dictCap cap xs =
      .error { code := .outOverflow, info := saturate32 (bitsToBytes (improvedBits codes)).length } := by
  simp only [compressImprovedBytes, encoded, if_pos long]

theorem compressImprovedBytes_fits (fits : (bitsToBytes (improvedBits codes)).length ≤ cap) :
    compressImprovedBytes dictCap cap xs = .ok (improvedCompletion codes d) := by
  simp only [compressImprovedBytes, encoded, if_neg (Nat.not_lt.mpr fits), improvedCompletion, Config.impStartWidth]

end

/-- Settles O30: the codec's answers in their order, each completed as the four commands' shared laws say. -/
theorem compressImprovedMeaning : Obligations.CompressImprovedMeaning := by
  intro s canonical latched
  refine ⟨fun j refused => exec_bus_read latched refused, fun readable => ⟨fun r raised => ?_, fun codes d encoded => ?_⟩⟩
  · have full := encodeLoop_error raised
    have index := encodeLoop_error_index raised
    have input := inLen_lt s
    rw [length_inputBytes] at index
    refine ⟨full, ?_⟩
    rw [← full]
    exact exec_raise (i := .compressImproved) readable (compressImprovedBytes_raise raised) (by omega)
  · simp only [foldl_eq_improvedBits, ← improvedLastWidth_eq]
    refine ⟨fun long => ?_, fun fits => ?_⟩
    · exact exec_raise (i := .compressImproved) readable (compressImprovedBytes_overflow encoded long) (saturate32_lt _)
    · have computed : codecOf .compressImproved s s.inputBytes = .ok (improvedCompletion codes d) :=
        compressImprovedBytes_fits encoded fits
      have count := encodeSymbols_inputBytes_count_lt encoded
      have width := improvedLastWidth_le codes count
      refine ⟨fun j hj refused => exec_bus_write latched readable computed hj refused, fun writable => ?_⟩
      exact exec_ok canonical latched readable computed writable rfl rfl rfl (saturate32_of_lt (saturate32_lt _))
        (by decide) count (by omega)

/-! ## DECOMPRESS_IMPROVED -/

section
variable {ys : List Byte} (dictCap : Option Nat) (cap : Nat)

theorem decompressImprovedBytes_malformed (short : (bytesToBits ys).length < 36) :
    decompressImprovedBytes dictCap cap ys = .error { code := .malformedHeader, info := ys.length } := by
  simp only [decompressImprovedBytes, readHeader_none short]

variable {W0 N : Nat}

theorem decompressImprovedBytes_empty (header : readHeader (bytesToBits ys) = some (W0, 0)) :
    decompressImprovedBytes dictCap cap ys =
      .ok { out := [], hdrWidth := W0, hdrCount := 0, lastWidth := 0, dictNext := 256 } := by
  simp only [decompressImprovedBytes, header, if_true, Config.firstFreeCode]

variable (header : readHeader (bytesToBits ys) = some (W0, N))
include header

/-- The first code that does not fit its grown width ends phase 1 at its index (43_improved.md R113). -/
theorem decompressImprovedBytes_truncated {i : Nat} (within : i < N) (fits : growPos W0 i ≤ (bytesToBits ys).length)
    (short : (bytesToBits ys).length < growPos W0 (i + 1)) :
    decompressImprovedBytes dictCap cap ys = .error { code := .truncatedStream, info := i } := by
  have read : readGrowing (bytesToBits ys) N 36 (Grow.start W0) 0 0 = .error i :=
    readGrowing_short _ W0 N 0 i 0 (Nat.zero_le i) (by omega) fits short
  simp only [decompressImprovedBytes, header, if_neg (Nat.ne_zero_of_lt within), Config.hdrBits, read]

variable {dictCap cap} {codes : List Nat} {last : Nat} (positive : 0 < N)
  (read : readGrowing (bytesToBits ys) N 36 (Grow.start W0) 0 0 = .ok (codes, last))
include positive read

theorem decompressImprovedBytes_raise {r : Raise} (decoded : decodeCodes (admitImproved dictCap) codes cap = .error r) :
    decompressImprovedBytes dictCap cap ys = .error r := by
  simp only [decompressImprovedBytes, header, if_neg positive.ne', Config.hdrBits, read, decoded]

theorem decompressImprovedBytes_ok {out : List Symbol} {d : Dict}
    (decoded : decodeCodes (admitImproved dictCap) codes cap = .ok (out, d)) :
    decompressImprovedBytes dictCap cap ys =
      .ok { out := out, hdrWidth := W0, hdrCount := N, lastWidth := last, dictNext := saturate32 d.nextCode } := by
  simp only [decompressImprovedBytes, header, if_neg positive.ne', Config.hdrBits, read, decoded]

end

/-- Codes that all fit, each at its place and its width (43_improved.md R113). -/
theorem readGrowing_fits {S : Bits} {W0 N : Nat} (positive : 0 < N) (fits : growPos W0 N ≤ S.length) :
    readGrowing S N 36 (Grow.start W0) 0 0 =
      .ok ((List.range N).map fun i => bitsToNat ((S.drop (growPos W0 i)).take (growAfter i (Grow.start W0)).width),
        (growAfter (N - 1) (Grow.start W0)).width) := by
  refine (readGrowing_eq S W0 N 0 0 (by rwa [Nat.zero_add])).trans ?_
  simp only [Nat.zero_add, if_neg positive.ne']

/-- Settles O31: the header, the codes and the decoder answer in their order, each completed as the four commands' shared laws
say. -/
theorem decompressImprovedMeaning : Obligations.DecompressImprovedMeaning := by
  intro s canonical latched
  refine ⟨fun j refused => exec_bus_read latched refused, fun readable => ?_⟩
  have bits : (bytesToBits s.inputBytes).length = 8 * s.inLength := by rw [length_bytesToBits, length_inputBytes]
  intro S F W0 N width codes
  have header (long : 5 ≤ s.inLength) : readHeader S = some (W0, N) := readHeader_some (by rw [bits]; omega)
  refine ⟨fun short => ?_, fun long no_codes => ?_, fun i within long fits short => ?_, fun long positive fits => ?_⟩
  · have malformed := decompressImprovedBytes_malformed s.platform.dictCap s.outCapacity (ys := s.inputBytes) (by omega)
    rw [length_inputBytes] at malformed
    exact exec_raise (i := .decompressImproved) readable malformed (inLen_lt s)
  · obtain ⟨-, le, -⟩ := readHeader_range (header long)
    have computed := decompressImprovedBytes_empty s.platform.dictCap s.outCapacity (no_codes ▸ header long)
    exact exec_ok (i := .decompressImproved) canonical latched readable computed (fun j hj => absurd hj (Nat.not_lt_zero j))
      rfl rfl rfl rfl (by omega) (by decide) (by decide)
  · obtain ⟨-, -, count, -⟩ := readHeader_range (header long)
    have truncated := decompressImprovedBytes_truncated s.platform.dictCap s.outCapacity (header long) within (bits ▸ fits)
      (bits ▸ short)
    exact exec_raise (i := .decompressImproved) readable truncated (within.trans count)
  · obtain ⟨-, le, count, -⟩ := readHeader_range (header long)
    have read : readGrowing S N 36 (Grow.start W0) 0 0 = .ok (codes, width (N - 1)) :=
      readGrowing_fits positive (bits ▸ fits)
    have codes_length : codes.length = N := by rw [List.length_map, List.length_range]
    refine ⟨fun r decoded => ?_, fun out d decoded => ?_⟩
    · have index := decodeCodes_error_index decoded
      exact exec_raise (i := .decompressImproved) readable (decompressImprovedBytes_raise (header long) positive read decoded)
        (by omega)
    · have computed : codecOf .decompressImproved s s.inputBytes = _ :=
        decompressImprovedBytes_ok (header long) positive read decoded
      have last : width (N - 1) ≤ 33 := growAfter_width_le le (by omega)
      refine ⟨fun j hj refused => exec_bus_write latched readable computed hj refused, fun writable => ?_⟩
      exact exec_ok canonical latched readable computed writable rfl rfl rfl (saturate32_of_lt (saturate32_lt _))
        (by omega) count (by omega)

end Sys2Proof.Machine
end

section
/-!
SUPPORT. The command interface, and the statements about it: the buffer check and the acceptance of a legal CMD write, the
registers that BUSY locks, and a command as a function of its inputs (44_command_interface.md R120, R121, R123, R125).
-/

namespace Sys2Proof.Machine

/-! ## The CMD write -/

theorem buffersBad_iff {a n b c : Word} :
    buffersBad a n b c = true ↔ a.toNat + n.toNat > 2 ^ 32 ∨ b.toNat + c.toNat > 2 ^ 32 ∨
      (n.toNat > 0 ∧ c.toNat > 0 ∧ a.toNat < b.toNat + c.toNat ∧ b.toNat < a.toNat + n.toNat) := by
  simp only [buffersBad, Bool.or_eq_true, Bool.and_eq_true, decide_eq_true_eq, or_assoc, and_assoc]

theorem buffersBad_eq_false_iff {a n b c : Word} :
    buffersBad a n b c = false ↔ a.toNat + n.toNat ≤ 2 ^ 32 ∧ b.toNat + c.toNat ≤ 2 ^ 32 ∧
      (n.toNat = 0 ∨ c.toNat = 0 ∨ b.toNat + c.toNat ≤ a.toNat ∨ a.toNat + n.toNat ≤ b.toNat) := by
  rw [← Bool.not_eq_true, buffersBad_iff]
  omega

theorem decode_encode (i : Instr) : decode (encode i) = .ok i := by
  cases i <;> rfl

section
variable {s : State} (idle : s.busy = false) (i : Instr)
include idle

theorem writeOffset_cmd_badBuffer (bad : buffersBad s.inBase s.inLen s.outBase s.outCap = true) :
    writeOffset 0x00#8 (encode i) s = setErrorRegs .badBuffer 0#32 (latchCmd (encode i) s) := by
  simp only [writeOffset_cmd_idle idle, startCommand, decode_encode, bad, if_true]

theorem writeOffset_cmd_accept (good : buffersBad s.inBase s.inLen s.outBase s.outCap = false) :
    writeOffset 0x00#8 (encode i) s = accept (encode i) (latchCmd (encode i) s) := by
  simp only [writeOffset_cmd_idle idle, startCommand, decode_encode, good, Bool.false_eq_true, if_false]

theorem writeOffset_cmd_busy (good : buffersBad s.inBase s.inLen s.outBase s.outCap = false) :
    (writeOffset 0x00#8 (encode i) s).busy = true := by
  rw [writeOffset_cmd_accept idle i good]
  rfl

end

/-- Settles O5: a bad buffer answers the write at once; an empty range neither wraps nor overlaps another. -/
theorem badBufferCompletesAtOnce : Obligations.BadBufferCompletesAtOnce := by
  refine ⟨fun s i idle bad => writeOffset_cmd_badBuffer idle i (buffersBad_iff.mpr bad), fun s i idle empty fits => ?_,
    fun s i idle empty fits => ?_⟩
  · exact writeOffset_cmd_busy idle i
      (buffersBad_eq_false_iff.mpr ⟨by simp [empty, s.inBase.isLt.le], fits, .inl (by simp [empty])⟩)
  · exact writeOffset_cmd_busy idle i
      (buffersBad_eq_false_iff.mpr ⟨fits, by simp [empty, s.outBase.isLt.le], .inr (.inl (by simp [empty]))⟩)

/-- A running command reads its latched operands alone: the four buffer registers stay as they are and change nothing else
(44_command_interface.md R121). -/
theorem runCommand_bufferRegs (codec : List Byte → Except Raise Completion) (s : State) (a n b c : Word) :
    runCommand codec { s with inBase := a, inLen := n, outBase := b, outCap := c } =
      { runCommand codec s with inBase := a, inLen := n, outBase := b, outCap := c } := by
  have outcome : commandOutcome codec { s with inBase := a, inLen := n, outBase := b, outCap := c } = commandOutcome codec s :=
    rfl
  simp only [runCommand, outcome]
  cases commandOutcome codec s with
  | ok completed => rfl
  | error r => rfl

/-- Settles O6: a good legal write latches all that the command will read, so the registers are free again. -/
theorem legalCommandIsAccepted : Obligations.LegalCommandIsAccepted := by
  refine ⟨fun s i idle in_fits out_fits disjoint => ?_, fun s t i a n b c h => ?_⟩
  · rw [writeOffset_cmd_accept idle i (buffersBad_eq_false_iff.mpr ⟨in_fits, out_fits, disjoint⟩)]
    exact ⟨rfl, rfl, decodeOp_eq_ok.mpr rfl⟩
  · rw [exec_eq_run] at h
    rw [exec_eq_run, ← Host.Outcome.next.inj h]
    exact congrArg _ (runCommand_bufferRegs (codecOf i s) s a n b c)

/-! ## The lock -/

theorem unlessBusy_of_busy {s : State} (busy : s.busy = true) (f : State → State) : unlessBusy f s = noteIgnoredWrite s :=
  if_pos busy

theorem writeOffset_locked {s : State} (busy : s.busy = true) {off : BitVec 8}
    (locked : off ∈ [0x00#8, 0x0C#8, 0x10#8, 0x14#8, 0x18#8]) (v : Word) :
    writeOffset off v s = noteIgnoredWrite s := by
  obtain ⟨f, hf⟩ : ∃ f, writeOffset off v s = unlessBusy f s := by
    fin_cases locked
    · exact ⟨_, writeOffset_offset .cmd v s⟩
    · exact ⟨_, writeOffset_offset .inBase v s⟩
    · exact ⟨_, writeOffset_offset .inLen v s⟩
    · exact ⟨_, writeOffset_offset .outBase v s⟩
    · exact ⟨_, writeOffset_offset .outCap v s⟩
  rw [hf, unlessBusy_of_busy busy]

/-- From 0x1C on a register is read-only or the offset is reserved (10_state.md R22, R37). -/
theorem writeOffset_readOnly {off : BitVec 8} (high : 0x1C ≤ off.toNat) (v : Word) (s : State) : writeOffset off v s = s := by
  unfold writeOffset
  cases hr : regAt off with
  | none => rfl
  | some r =>
    obtain rfl := regAt_eq_some.mp hr
    cases r with
    | cmd | status | intEn | inBase | inLen | outBase | outCap => exact absurd high (by decide)
    | outLen | hdrWidth | hdrCount | lastWidth | dictNext | dictCapRd | errInfo => rfl

/-- Settles O7: the five locked registers, the two that are always open, and the offsets that take no write. -/
theorem busyLocksFiveRegisters : Obligations.BusyLocksFiveRegisters := fun s v _ =>
  ⟨fun busy locked => writeOffset_locked busy locked v, writeOffset_offset .status v s, writeOffset_offset .intEn v s,
    fun high => writeOffset_readOnly high v s⟩

/-! ## A command and its inputs -/

/-- The two states give a command the same operands, input bytes, DICT_CAP and MEM_OK (44_command_interface.md R123). -/
structure SameInputs (s t : State) : Prop where
  inBase : s.engine.inBase = t.engine.inBase
  inLen : s.engine.inLen = t.engine.inLen
  outBase : s.engine.outBase = t.engine.outBase
  outCap : s.engine.outCap = t.engine.outCap
  platform : s.platform = t.platform
  bytes : s.inputBytes = t.inputBytes

theorem memReadAll_congr {p : Platform} {m m' : Memory} {a n : Nat} (agree : ∀ i < n, m.read (a + i) = m'.read (a + i)) :
    memReadAll p m a n = memReadAll p m' a n := by
  induction n generalizing a with
  | zero => rfl
  | succ n ih =>
    have head : m.read a = m'.read a := agree 0 n.succ_pos
    have rest : memReadAll p m (a + 1) n = memReadAll p m' (a + 1) n := ih fun i hi => by
      simpa only [Nat.add_right_comm, Nat.add_assoc] using agree (i + 1) (by omega)
    simp only [memReadAll, memRead, head, rest]

/-- Which write the bus refuses does not depend on what memory holds (00_scope.md R9). -/
theorem memWriteAll_error_congr {p : Platform} {m : Memory} {a : Nat} {bs : List Byte} {r : Raise}
    (h : memWriteAll p m a bs = .error r) (m' : Memory) : memWriteAll p m' a bs = .error r := by
  induction bs generalizing m m' a with
  | nil => cases h
  | cons b bs ih =>
    cases completes : p.memOk a .write with
    | true =>
      simp only [memWriteAll, memWrite, completes, if_true] at h ⊢
      exact ih h _
    | false => simpa only [memWriteAll, memWrite, completes, Bool.false_eq_true, if_false] using h

namespace SameInputs
variable {s t : State} (same : SameInputs s t)
include same

theorem symm : SameInputs t s where
  inBase := same.inBase.symm
  inLen := same.inLen.symm
  outBase := same.outBase.symm
  outCap := same.outCap.symm
  platform := same.platform.symm
  bytes := same.bytes.symm

theorem outAddr_eq (j : Nat) : s.outAddr j = t.outAddr j := by rw [State.outAddr, State.outAddr, same.outBase]

theorem codecOf_eq (i : Instr) : codecOf i s = codecOf i t := by
  cases i <;> simp only [codecOf, State.outCapacity, same.outCap, same.platform]

theorem readInput_eq : readInput s = readInput t := by
  have addr (i : Nat) : s.inAddr i = t.inAddr i := by rw [State.inAddr, State.inAddr, same.inBase]
  have length : s.inLength = t.inLength := by rw [State.inLength, State.inLength, same.inLen]
  rw [readInput, readInput, same.platform, addr, length]
  refine memReadAll_congr fun i hi => ?_
  have byte : some (s.mem.read (s.inAddr i)) = some (t.mem.read (t.inAddr i)) := by
    rw [← inputBytes_getElem? hi, ← same.bytes, inputBytes_getElem? (length ▸ hi)]
  rw [addr] at byte
  exact Option.some.inj byte

theorem writeOutput_error {out : List Byte} {r : Raise} (h : writeOutput s out = .error r) : writeOutput t out = .error r := by
  rw [writeOutput, ← same.platform, ← same.outAddr_eq]
  exact memWriteAll_error_congr h t.mem

theorem commandOutcome_error {codec : List Byte → Except Raise Completion} {r : Raise}
    (h : commandOutcome codec s = .error r) : commandOutcome codec t = .error r := by
  rw [commandOutcome, same.readInput_eq] at h
  rw [commandOutcome]
  cases read : readInput t with
  | error e => simpa only [read] using h
  | ok x =>
    cases computed : codec x with
    | error e => simpa only [read, computed] using h
    | ok c =>
      cases written : writeOutput s c.out with
      | error e => simpa only [read, computed, written, same.writeOutput_error written] using h
      | ok m => simp [read, computed, written] at h

/-- The two runs raise one result, or complete with one completion, each with its output written (44_command_interface.md
R123). -/
theorem exec_cases {i : Instr} {s' t' : State} (run : exec i s = .next s') (run' : exec i t = .next t') :
    (∃ r, s' = raiseResult r s ∧ t' = raiseResult r t) ∨
      ∃ c m m', codecOf i s s.inputBytes = .ok c ∧ writeOutput s c.out = .ok m ∧ writeOutput t c.out = .ok m' ∧
        s' = completeOk c m s ∧ t' = completeOk c m' t := by
  rw [exec_eq_run] at run run'
  rw [← Host.Outcome.next.inj run, ← Host.Outcome.next.inj run', ← same.codecOf_eq, runCommand, runCommand]
  cases first : commandOutcome (codecOf i s) s with
  | error r => exact .inl ⟨r, rfl, by rw [same.commandOutcome_error first]⟩
  | ok completed =>
    cases second : commandOutcome (codecOf i s) t with
    | error r => rw [same.symm.commandOutcome_error second] at first; cases first
    | ok completed' =>
      obtain ⟨c, m⟩ := completed
      obtain ⟨c', m'⟩ := completed'
      obtain ⟨computed, written⟩ := commandOutcome_eq_ok first
      obtain ⟨computed', written'⟩ := commandOutcome_eq_ok second
      rw [← same.bytes, computed] at computed'
      obtain rfl := Except.ok.inj computed'
      exact .inr ⟨c, m, m', computed, written, written', rfl, rfl⟩

end SameInputs

/-- Settles O37: the two runs end with one result or with one completion, and each has the completion's output in memory. -/
theorem commandIsDeterminedByItsInputs : Obligations.CommandIsDeterminedByItsInputs := by
  intro i s t s' t' canonical canonical' inBase inLen outBase outCap platform bytes run run'
  have same : SameInputs s t := ⟨inBase, inLen, outBase, outCap, platform, bytes⟩
  obtain ⟨r, rfl, rfl⟩ | ⟨c, m, m', computed, written, written', rfl, rfl⟩ := same.exec_cases run run'
  · exact ⟨rfl, rfl, rfl, rfl, rfl, rfl, rfl, fun _ j hj => absurd hj (Nat.not_lt_zero j)⟩
  · refine ⟨rfl, rfl, rfl, rfl, rfl, rfl, rfl, fun _ j hj => ?_⟩
    rw [completeOk_outLen_toNat computed] at hj
    rw [completeOk_mem, completeOk_mem, read_writeOutput_inside canonical written hj,
      read_writeOutput_inside canonical' written' hj]

end Sys2Proof.Machine
end

section
/-!
SUPPORT. How a command's end shows at the pins and in the registers, and the statements about it: irq as a level, and completion
as all-or-nothing (60_exceptions.md R133, R134, R136, R141).
-/

namespace Sys2Proof.Machine

/-! ## The interrupt output -/

theorem irq_iff (s : State) : s.irq = true ↔ s.done = true ∧ s.doneIe = true := by
  rw [State.irq, Bool.and_eq_true]

@[simp] theorem writeStatus_irq (v : Word) (s : State) : (writeStatus v s).irq = (s.irq && !v.getLsbD 1) := by
  rw [State.irq, State.irq, writeStatus_done, writeStatus_doneIe, Bool.and_right_comm]

@[simp] theorem writeIntEn_irq (v : Word) (s : State) : (writeIntEn v s).irq = (s.done && v.getLsbD 0) := rfl

section
variable {i : Instr} {s t : State} (h : exec i s = .next t)
include h

theorem exec_busy : t.busy = false := by
  obtain ⟨c, m, -, -, rfl⟩ | ⟨r, rfl⟩ := exec_cases h <;> rfl

theorem exec_done : t.done = true := by
  obtain ⟨c, m, -, -, rfl⟩ | ⟨r, rfl⟩ := exec_cases h <;> rfl

theorem exec_doneIe : t.doneIe = s.doneIe := by
  obtain ⟨c, m, -, -, rfl⟩ | ⟨r, rfl⟩ := exec_cases h <;> rfl

theorem exec_irq : t.irq = s.doneIe := by
  rw [State.irq, exec_done h, exec_doneIe h, Bool.true_and]

end

/-- Settles O17: a completion sets DONE and keeps DONE_IE; a write of STATUS masks irq by its bit 1, one of INT_EN by
its bit 0. -/
theorem interruptIsLevelOfDone : Obligations.InterruptIsLevelOfDone := by
  refine ⟨rfl, fun s v => ?_⟩
  have status : writeOffset 0x04#8 v s = writeStatus v s := writeOffset_offset .status v s
  have intEn : writeOffset 0x08#8 v s = writeIntEn v s := writeOffset_offset .intEn v s
  rw [status, intEn, writeStatus_irq, writeIntEn_irq]
  refine ⟨irq_iff s, fun i t h => exec_irq h, fun high keep => ?_, fun clear => ?_, fun masked => ⟨?_, rfl⟩,
    fun enabled => ?_⟩
  · rw [high, keep, Bool.not_false, Bool.and_true]
  · rw [clear, Bool.not_true, Bool.and_false]
  · rw [masked, Bool.and_false]
  · rw [enabled, Bool.and_true]

/-! ## The numbers a command completes with -/

/-- The completion's numbers fit HDR_WIDTH, HDR_COUNT and LAST_WIDTH (10_state.md R31, R32, R33). -/
structure FitsRegisters (c : Completion) : Prop where
  hdrWidth : c.hdrWidth < 2 ^ 5
  hdrCount : c.hdrCount < 2 ^ 32
  lastWidth : c.lastWidth < 2 ^ 6

theorem compressImprovedBytes_eq_ok {dictCap : Option Nat} {cap : Nat} {xs : List Symbol} {c : Completion}
    (h : compressImprovedBytes dictCap cap xs = .ok c) :
    ∃ codes d, encodeSymbols (admitImproved dictCap) xs = .ok (codes, d) ∧ c = improvedCompletion codes d := by
  cases encoded : encodeSymbols (admitImproved dictCap) xs with
  | error r =>
    rw [compressImprovedBytes_raise encoded] at h
    cases h
  | ok result =>
    obtain ⟨codes, d⟩ := result
    refine ⟨codes, d, rfl, ?_⟩
    obtain long | fits := Nat.lt_or_ge cap (bitsToBytes (improvedBits codes)).length
    · rw [compressImprovedBytes_overflow encoded long] at h
      cases h
    · rw [compressImprovedBytes_fits encoded fits] at h
      exact (Except.ok.inj h).symm

/-- What a Regular decompression completes with is its header's, LAST_WIDTH 0 where there is no code (42_regular.md R103). -/
theorem decompressRegularBytes_eq_ok {cap : Nat} {ys : List Byte} {c : Completion} (h : decompressRegularBytes cap ys = .ok c) :
    readHeader (bytesToBits ys) = some (c.hdrWidth, c.hdrCount) ∧
      c.lastWidth = if c.hdrCount = 0 then 0 else c.hdrWidth := by
  simp only [decompressRegularBytes] at h
  split at h
  · cases h
  · next W N header =>
    split at h
    · next no_codes => cases h; exact ⟨no_codes ▸ header, rfl⟩
    · next has_codes =>
      split at h
      · cases h
      · split at h
        · cases h
        · cases h; exact ⟨header, (if_neg has_codes).symm⟩

/-- A phase 1 that succeeds has read its last code at the schedule's width (43_improved.md R113). -/
theorem readGrowing_last {S : Bits} {W0 N last : Nat} {codes : List Nat} (long : 36 ≤ S.length) (positive : 0 < N)
    (read : readGrowing S N 36 (Grow.start W0) 0 0 = .ok (codes, last)) :
    last = (growAfter (N - 1) (Grow.start W0)).width := by
  obtain short | fits := Nat.lt_or_ge S.length (growPos W0 N)
  · obtain ⟨t, truncated⟩ := (readGrowing_start_error_iff long).mpr short
    rw [read] at truncated
    cases truncated
  · rw [readGrowing_fits positive fits] at read
    exact (congrArg Prod.snd (Except.ok.inj read)).symm

/-- What an Improved decompression completes with is its header's, LAST_WIDTH the schedule's at the last code, 0 where there is
none (43_improved.md R113). -/
theorem decompressImprovedBytes_eq_ok {dictCap : Option Nat} {cap : Nat} {ys : List Byte} {c : Completion}
    (h : decompressImprovedBytes dictCap cap ys = .ok c) :
    readHeader (bytesToBits ys) = some (c.hdrWidth, c.hdrCount) ∧
      c.lastWidth = if c.hdrCount = 0 then 0 else (growAfter (c.hdrCount - 1) (Grow.start c.hdrWidth)).width := by
  simp only [decompressImprovedBytes] at h
  split at h
  · cases h
  · next W0 N header =>
    split at h
    · next no_codes => cases h; exact ⟨no_codes ▸ header, rfl⟩
    · next has_codes =>
      split at h
      · cases h
      · next read =>
        split at h
        · cases h
        · cases h
          obtain ⟨-, -, -, long⟩ := readHeader_range header
          exact ⟨header, (readGrowing_last long (Nat.pos_of_ne_zero has_codes) read).trans (if_neg has_codes).symm⟩

/-- No completion register loses a bit of the number it is given (60_exceptions.md R134). -/
theorem codecOf_fitsRegisters {i : Instr} {s : State} {c : Completion} (h : codecOf i s s.inputBytes = .ok c) :
    FitsRegisters c := by
  cases i with
  | compressRegular =>
    obtain ⟨codes, d, encoded, rfl⟩ := compressRegularBytes_eq_ok h
    have width := encodeSymbols_regular_width_le encoded
    refine ⟨width.trans_lt (by decide), encodeSymbols_inputBytes_count_lt encoded, ?_⟩
    simp only [regularCompletion]
    split <;> omega
  | decompressRegular =>
    obtain ⟨header, last⟩ := decompressRegularBytes_eq_ok h
    obtain ⟨-, width, count, -⟩ := readHeader_range header
    exact ⟨by omega, count, by rw [last]; split <;> omega⟩
  | compressImproved =>
    obtain ⟨codes, d, encoded, rfl⟩ := compressImprovedBytes_eq_ok h
    have count := encodeSymbols_inputBytes_count_lt encoded
    have last := improvedLastWidth_le codes count
    exact ⟨(by decide : 9 < 2 ^ 5), count, last.trans_lt (by decide)⟩
  | decompressImproved =>
    obtain ⟨header, last⟩ := decompressImprovedBytes_eq_ok h
    obtain ⟨-, width, count, -⟩ := readHeader_range header
    have last_width : (growAfter (c.hdrCount - 1) (Grow.start c.hdrWidth)).width ≤ 33 :=
      growAfter_width_le width (by omega)
    exact ⟨by omega, count, by rw [last]; split <;> omega⟩

/-! ## All or nothing -/

/-- Settles O32: a completion's numbers go whole into their registers, and a raised result is none but an error's and leaves 0 in
them. -/
theorem completionIsAllOrNothing : Obligations.CompletionIsAllOrNothing := by
  intro i s
  obtain ⟨t, run⟩ : ∃ t, exec i s = .next t := ⟨_, exec_eq_run i s⟩
  refine ⟨t, run, exec_busy run, exec_done run, ?_, fun a outside => exec_read_outside run outside⟩
  obtain ⟨c, m, computed, -, ends⟩ | ⟨r, raised, ends⟩ := exec_split (i := i) (s := s) <;>
    obtain rfl : t = _ := Host.Outcome.next.inj (run.symm.trans ends)
  · have fits := codecOf_fitsRegisters computed
    exact .inl ⟨rfl, rfl, c, computed, completeOk_outLen_toNat computed m, toNat_ofNat_lt fits.hdrWidth,
      toNat_ofNat_lt fits.hdrCount, toNat_ofNat_lt fits.lastWidth, toNat_ofNat_lt (saturate32_lt c.dictNext)⟩
  · refine .inr ⟨?_, rfl, rfl, rfl, rfl, rfl⟩
    obtain bus | raised := raised
    · rw [raiseResult_result, bus]
      decide
    · exact codecOf_error_ne_ok raised

end Sys2Proof.Machine
end

section
/-!
SUPPORT. The reset input, and the statements about it: the registers it restores, the command it stops, and the state that the
machine starts in (70_reset_and_hazards.md R147, R148, R149).
-/

namespace Sys2Proof.Machine

theorem step_reset {s : State} (turn : s.turn = .reset) : step s = .next (assertReset (popSlot s)) := by
  rw [step, turn]

/-! ## The registers -/

theorem statusWord_assertReset (s : State) : statusWord (assertReset s) = 0#32 := by
  have idle : (assertReset s).busy = false := rfl
  rw [statusWord, assertReset_result, assertReset_ignoredWrite, assertReset_done, idle]
  decide

/-- The reset value of every register that has one (70_reset_and_hazards.md R148). -/
theorem readReg_assertReset {r : Reg} (not_constant : r ≠ .dictCapRd) (s : State) : readReg r (assertReset s) = 0#32 := by
  cases r with
  | dictCapRd => exact absurd rfl not_constant
  | status => exact statusWord_assertReset s
  | intEn => exact intEnWord_eq (assertReset s)
  | _ => rfl

theorem readOffset_assertReset {off : BitVec 8} (not_constant : off ≠ 0x30#8) (s : State) :
    readOffset off (assertReset s) = 0#32 := by
  rw [readOffset]
  split
  · next r located =>
    refine readReg_assertReset ?_ s
    rintro rfl
    exact not_constant (regAt_eq_some.mp located)
  · rfl

/-- The state that the machine starts in shows the registers that the reset input leaves. -/
theorem readOffset_assertReset_reset (off : BitVec 8) : readOffset off (assertReset State.reset) = readOffset off State.reset :=
  rfl

/-! ## Memory -/

theorem assertReset_mem_idle {s : State} (idle : s.busy = false) : (assertReset s).mem = s.mem := by
  rw [assertReset_mem, (not_busy_iff s).mp idle]

/-- The reset input spares every byte outside the output buffer of the command it stops (70_reset_and_hazards.md R147). -/
theorem assertReset_read_outside {s : State} {a : Nat}
    (outside : s.busy = true → a < s.engine.outBase.toNat ∨ s.engine.outBase.toNat + s.engine.outCap.toNat ≤ a) :
    (assertReset s).mem.read a = s.mem.read a := by
  cases running : s.busy with
  | false => rw [assertReset_mem_idle running]
  | true =>
    rw [assertReset_mem, (busy_iff s).mp running]
    exact read_forget_outside _ _ _ _ (outside running)

/-! ## The statements -/

/-- Settles O18: the step is the reset input's, which gives every register its value, keeps the platform that DICT_CAP_RD
shows, and forgets at most a running command's output buffer. -/
theorem resetInputRestoresRegisters : Obligations.ResetInputRestoresRegisters := by
  intro s turn
  have constant : readOffset 0x30#8 (assertReset (popSlot s)) = readOffset 0x30#8 s := by
    rw [readOffset_dictCapRd, readOffset_dictCapRd, assertReset_platform, popSlot_platform]
  exact ⟨assertReset (popSlot s), step_reset turn, rfl, rfl, fun off h => readOffset_assertReset h (popSlot s), constant,
    rfl, rfl, rfl, rfl, rfl, fun idle => assertReset_mem_idle (s := popSlot s) idle,
    fun a outside => assertReset_read_outside (s := popSlot s) outside⟩

/-- Settles O19: the registers are those that the reset input leaves, and the empty buffers at 0 pass the buffer check. -/
theorem resetStateAcceptsCommand : Obligations.ResetStateAcceptsCommand := by
  refine ⟨rfl, fun off h => ?_, fun i => writeOffset_cmd_busy rfl i (by decide)⟩
  rw [← readOffset_assertReset_reset, readOffset_assertReset h]

end Sys2Proof.Machine
end

section
/-!
SUPPORT. The invariant of every step, and the statements about the step: the invariant kept, the command a running engine
holds, what ends it and by when, and what a command leaves alone (44_command_interface.md R117, R118, R121, R124, R128;
60_exceptions.md R133, R134; 70_reset_and_hazards.md section 4).
-/

namespace Sys2Proof.Machine

/-! ## How a command ends -/

/-- A command completes with its codec's completion, or raises a bus error or its codec's own error (60_exceptions.md R130). -/
theorem exec_completes_or_raises {i : Instr} {s t : State} (h : exec i s = .next t) :
    (∃ c m, codecOf i s s.inputBytes = .ok c ∧ writeOutput s c.out = .ok m ∧ t = completeOk c m s) ∨
      ∃ r, (r.code = .busError ∨ codecOf i s s.inputBytes = .error r) ∧ t = raiseResult r s := by
  obtain ⟨c, m, computed, written, ends⟩ | ⟨r, raised, ends⟩ := exec_split (i := i) (s := s) <;>
    obtain rfl := Host.Outcome.next.inj (h.symm.trans ends)
  · exact .inl ⟨c, m, computed, written, rfl⟩
  · exact .inr ⟨r, raised, rfl⟩

/-- No command raises OK (60_exceptions.md R131). -/
theorem raised_ne_ok {i : Instr} {s : State} {r : Raise} (h : r.code = .busError ∨ codecOf i s s.inputBytes = .error r) :
    r.code ≠ .ok := by
  obtain bus | raised := h
  · rw [bus]; decide
  · exact codecOf_error_ne_ok raised

/-- Settles O33: both ways a command ends set the completion registers, make the engine idle and touch memory, and no more. -/
theorem commandFrame : Obligations.CommandFrame := by
  intro i s t h
  obtain ⟨c, m, -, -, rfl⟩ | ⟨r, rfl⟩ := exec_cases h
  · exact ⟨rfl, rfl, rfl, rfl, rfl, rfl, rfl, rfl, rfl, rfl, rfl, rfl, rfl, rfl, rfl⟩
  · exact ⟨rfl, rfl, rfl, rfl, rfl, rfl, rfl, rfl, rfl, rfl, rfl, rfl, rfl, rfl, rfl⟩

/-! ## The invariant -/

/-- While no command runs, the invariant asks nothing of the latched operands. -/
theorem inv_of_idle {s : State} (idle : s.busy = false) (canonical : MemoryCanonical s) (legal : PlatformLegal s)
    (whole : CompletionWhole s) : s.Inv :=
  ⟨canonical, legal, fun busy => absurd (idle.symm.trans busy) nofun, fun busy => absurd (idle.symm.trans busy) nofun, whole⟩

/-- A CMD write on an idle block completes with an error, its registers zero, or latches a legal command on checked buffers
(44_command_interface.md R118, R119, R120, R121). -/
theorem startCommand_inv {s : State} (idle : s.busy = false) (v : Word) (inv : s.Inv) : (startCommand v s).Inv := by
  obtain ⟨canonical, legal, -⟩ := inv
  have zero : CompletionZero (latchCmd v s) := ⟨rfl, rfl, rfl, rfl, rfl⟩
  obtain ⟨e, -, h⟩ | ⟨i, -, -, h⟩ | ⟨i, decoded, good, h⟩ := startCommand_cases v s <;> rw [h]
  · exact inv_of_idle idle canonical legal ⟨fun _ => zero, nofun⟩
  · exact inv_of_idle idle canonical legal ⟨fun _ => zero, nofun⟩
  · have word := (decode_ok_iff v).mp ⟨i, decoded⟩
    exact ⟨canonical, legal, fun _ => ⟨rfl, rfl, rfl, zero⟩, fun _ => ⟨word, rfl, rfl, rfl, rfl, rfl, good⟩,
      fun _ => zero, fun _ => rfl⟩

/-- No register write breaks the invariant. -/
theorem writeOffset_inv {s : State} (inv : s.Inv) (off : BitVec 8) (v : Word) : (writeOffset off v s).Inv := by
  have ⟨canonical, legal, quiet, latched, whole⟩ := inv
  obtain h | ⟨-, h⟩ | h | h | ⟨idle, h | h | h | h | h⟩ := writeOffset_cases off v s <;> rw [h]
  · exact inv
  · exact inv
  · refine ⟨canonical, legal, fun busy => ?_, latched, whole⟩
    obtain ⟨not_done, rest⟩ := quiet busy
    exact ⟨by rw [writeStatus_done, not_done, Bool.false_and], rest⟩
  · exact inv
  · exact startCommand_inv idle v inv
  · exact inv_of_idle idle canonical legal whole
  · exact inv_of_idle idle canonical legal whole
  · exact inv_of_idle idle canonical legal whole
  · exact inv_of_idle idle canonical legal whole

theorem hostStep_inv {s t : State} (inv : s.Inv) (h : hostStep s = .next t) : t.Inv := by
  have ⟨canonical, block⟩ := inv
  obtain rfl | rfl | ⟨off, v, -, rfl⟩ | ⟨v, rfl⟩ | ⟨v, rfl⟩ | ⟨n, v, rfl⟩ | ⟨a, bs, no_fault, rfl⟩ | ⟨-, no_fault, rfl⟩ :=
    hostStep_cases h
  · exact inv
  · exact inv
  · exact writeOffset_inv inv off v
  · exact inv
  · exact inv
  · exact inv
  · exact ⟨wf_writeAll canonical (storeFault_none.mp no_fault).1, block⟩
  · exact ⟨wf_storeLines canonical fun l hl => (storeFault_none.mp (no_fault l hl)).1, block⟩

/-- A completion is whole: OK leaves ERR_INFO 0, an error leaves the other registers 0 (60_exceptions.md R133, R134). -/
theorem exec_inv {i : Instr} {s t : State} (inv : s.Inv) (h : exec i s = .next t) : t.Inv := by
  obtain ⟨canonical, legal, -⟩ := inv
  obtain ⟨c, m, -, written, rfl⟩ | ⟨r, raised, rfl⟩ := exec_completes_or_raises h
  · exact inv_of_idle rfl (wf_memWriteAll canonical written) legal ⟨fun not_ok => absurd rfl not_ok, fun _ => rfl⟩
  · exact inv_of_idle rfl (wf_forget canonical) legal
      ⟨fun _ => ⟨rfl, rfl, rfl, rfl, rfl⟩, fun ok => absurd ok (raised_ne_ok raised)⟩

theorem assertReset_inv {s : State} (inv : s.Inv) : (assertReset s).Inv := by
  obtain ⟨canonical, legal, -⟩ := inv
  refine inv_of_idle rfl ?_ legal ⟨fun not_ok => absurd rfl not_ok, fun _ => rfl⟩
  rw [MemoryCanonical, assertReset_mem]
  cases s.engine.phase with
  | idle => exact canonical
  | run => exact wf_forget canonical

/-- Settles O23: each agent's move keeps the invariant. -/
theorem stepKeepsInvariant : Obligations.StepKeepsInvariant := by
  intro s t inv h
  have popped : (popSlot s).Inv := inv
  obtain ⟨-, h⟩ | ⟨-, rfl⟩ | ⟨-, -, rfl⟩ | ⟨i, -, -, -, h⟩ := step_cases h
  · exact hostStep_inv popped h
  · exact assertReset_inv popped
  · exact popped
  · exact exec_inv popped h

/-- Settles O22: the reset state is idle, and its memory is empty. -/
theorem resetMeetsInvariant : Obligations.ResetMeetsInvariant :=
  inv_of_idle rfl wf_nil rfl ⟨fun not_ok => absurd rfl not_ok, fun _ => rfl⟩

/-! ## Whose turn it is -/

theorem step_host {s : State} (turn : s.turn = .host) : step s = hostStep (popSlot s) := by
  rw [step, turn]

theorem turn_of_cons {s : State} {x : Slot} {xs : List Slot} (schedule : s.schedule = x :: xs) : s.turn = x := by
  rw [State.turn, schedule]

theorem turn_of_nil {s : State} (schedule : s.schedule = []) : s.turn = if s.busy then .engine else .host := by
  rw [State.turn, schedule]

/-- On the engine's turn a running command's step is the command itself (44_command_interface.md R117, R122). -/
theorem step_engine {s : State} {i : Instr} (turn : s.turn = .engine) (busy : s.busy = true)
    (decoded : decodeOp s.engine.op = .ok i) : step s = exec i (popSlot s) := by
  simp only [step, turn, fetchCommand, (busy_iff s).mp busy, decoded]

theorem step_engine_fault {s : State} {e : DecodeError} (turn : s.turn = .engine) (busy : s.busy = true)
    (decoded : decodeOp s.engine.op = .error e) : step s = .fault .illegalLatchedOp := by
  simp only [step, turn, fetchCommand, (busy_iff s).mp busy, decoded]

theorem step_engine_idle {s : State} (turn : s.turn = .engine) (idle : s.busy = false) : step s = .next (popSlot s) := by
  simp only [step, turn, fetchCommand, (not_busy_iff s).mp idle]

/-- Settles O20: the turn's two rules, and the engine's move with and without a command. -/
theorem stepRunsLatchedCommand : Obligations.StepRunsLatchedCommand := fun _ =>
  ⟨fun _ turn busy decoded => step_engine turn busy decoded, fun turn idle => step_engine_idle turn idle, turn_of_nil,
    fun _ _ => turn_of_cons⟩

theorem withFetchWord_encode (s : State) (i : Instr) : s.withFetchWord 32 (encode i).toNat = placeCommand (encode i) s := by
  have word : tableWord 32 (encode i).toNat = encode i := by cases i <;> rfl
  rw [State.withFetchWord, word, if_pos ((decode_ok_iff _).mp ⟨i, decode_encode i⟩)]

/-- Settles O21: the placed command has an empty schedule, so the engine moves next. -/
theorem placedCommandRunsNext : Obligations.PlacedCommandRunsNext := by
  intro s i
  rw [withFetchWord_encode]
  exact ⟨step_engine (turn_of_nil rfl) rfl (decodeOp_eq_ok.mpr rfl), rfl, rfl, rfl, rfl, rfl⟩

/-! ## A running engine holds a command -/

theorem storeFault_ne_illegalLatchedOp {s : State} {a n : Nat} {f : Fault} (h : storeFault s a n = some f) :
    f ≠ .illegalLatchedOp := by
  unfold storeFault at h
  split at h
  · cases h; nofun
  · obtain ⟨x, -, rfl⟩ := Option.map_eq_some_iff.mp h
    nofun

/-- A line of the host's program goes on or is a fault of the host. -/
theorem hostPerform_ends (op : HostOp) (s : State) :
    (∃ t, hostPerform op s = .next t) ∨ ∃ f, f ≠ .illegalLatchedOp ∧ hostPerform op s = .fault f := by
  cases op with
  | wr off width v =>
    rw [hostPerform, hostWrite]
    split
    · exact .inl ⟨_, rfl⟩
    · exact .inr ⟨.slaveError off, nofun, rfl⟩
  | rd off width =>
    rw [hostPerform, hostRead]
    split
    · exact .inl ⟨_, rfl⟩
    · exact .inr ⟨.slaveError off, nofun, rfl⟩
  | poll off f v =>
    rw [hostPerform, hostPoll]
    split
    · exact .inl ⟨_, rfl⟩
    · exact .inr ⟨.slaveError off, nofun, rfl⟩
  | ifne off f v l =>
    simp only [hostPerform, hostIfne]
    split
    · split
      · exact .inl ⟨_, rfl⟩
      · split
        · exact .inl ⟨_, rfl⟩
        · exact .inr ⟨.undefinedLabel l, nofun, rfl⟩
    · exact .inr ⟨.slaveError off, nofun, rfl⟩
  | store a bs =>
    rw [hostPerform, hostStore]
    split
    · next h => exact .inr ⟨_, storeFault_ne_illegalLatchedOp h, rfl⟩
    · exact .inl ⟨_, rfl⟩
  | load a =>
    rw [hostPerform, hostLoad]
    split
    · exact .inr ⟨.bufferHazard a.toNat, nofun, rfl⟩
    · exact .inl ⟨_, rfl⟩
  | label n | mem a bs | stop => exact .inl ⟨_, rfl⟩

theorem hostStep_ends (s : State) :
    (∃ t, hostStep s = .next t) ∨ ∃ f, f ≠ .illegalLatchedOp ∧ hostStep s = .fault f := by
  unfold hostStep
  split
  · split
    · exact .inl ⟨_, rfl⟩
    · exact hostPerform_ends _ s
  · unfold hostPreload
    split
    · next found =>
      obtain ⟨l, -, fault⟩ := List.exists_of_findSome?_eq_some found
      exact .inr ⟨_, storeFault_ne_illegalLatchedOp fault, rfl⟩
    · exact .inl ⟨_, rfl⟩

/-- In the invariant the latched OP is a command's: it came with a legal word (44_command_interface.md R118, R121). -/
theorem decodeOp_latched {s : State} (inv : s.Inv) (busy : s.busy = true) : ∃ i, decodeOp s.engine.op = .ok i := by
  obtain ⟨-, -, -, latched, -⟩ := inv
  obtain ⟨word, op, -⟩ := latched busy
  obtain ⟨i, decoded⟩ := (decode_ok_iff _).mpr word
  exact ⟨i, decodeOp_eq_ok.mpr (op.trans (decode_eq_ok.mp decoded).2)⟩

/-- A step from the invariant goes on or is a fault of the host. -/
theorem step_ends {s : State} (inv : s.Inv) :
    (∃ t, step s = .next t) ∨ ∃ f, f ≠ .illegalLatchedOp ∧ step s = .fault f := by
  cases turn : s.turn with
  | host =>
    rw [step_host turn]
    exact hostStep_ends _
  | reset => exact .inl ⟨_, step_reset turn⟩
  | engine =>
    cases busy : s.busy with
    | false => exact .inl ⟨_, step_engine_idle turn busy⟩
    | true =>
      obtain ⟨i, decoded⟩ := decodeOp_latched inv busy
      exact .inl ⟨_, (step_engine turn busy decoded).trans (exec_eq_run i _)⟩

/-- Settles O24: `step_ends` leaves neither outcome. -/
theorem runningEngineHoldsCommand : Obligations.RunningEngineHoldsCommand := by
  intro s inv
  obtain ⟨t, h⟩ | ⟨f, other, h⟩ := step_ends inv <;> rw [h]
  · exact ⟨nofun, nofun⟩
  · exact ⟨fun eq => other (Host.Outcome.fault.inj eq), nofun⟩

/-! ## What ends a command -/

theorem writeOffset_engine_of_busy {s : State} (busy : s.busy = true) (off : BitVec 8) (v : Word) :
    (writeOffset off v s).engine = s.engine := by
  obtain h | ⟨-, h⟩ | h | h | ⟨idle, -⟩ := writeOffset_cases off v s
  · rw [h]
  · rw [h, noteIgnoredWrite_engine]
  · rw [h, writeStatus_engine]
  · rw [h, writeIntEn_engine]
  · exact absurd (busy.symm.trans idle) nofun

theorem hostStep_engine_of_busy {s t : State} (busy : s.busy = true) (h : hostStep s = .next t) : t.engine = s.engine := by
  obtain rfl | rfl | ⟨off, v, -, rfl⟩ | ⟨v, rfl⟩ | ⟨v, rfl⟩ | ⟨n, v, rfl⟩ | ⟨a, bs, -, rfl⟩ | ⟨-, -, rfl⟩ := hostStep_cases h
  case inr.inr.inl => exact writeOffset_engine_of_busy busy off v
  all_goals rfl

theorem busy_congr {s t : State} (engine : t.engine = s.engine) : t.busy = s.busy := by
  rw [State.busy, State.busy, engine]

/-- While a command runs, a step of the host leaves the engine as it is (44_command_interface.md R124). -/
theorem step_host_engine {s t : State} (busy : s.busy = true) (turn : s.turn = .host) (h : step s = .next t) :
    t.engine = s.engine := by
  obtain ⟨-, host_step⟩ | ⟨other, -⟩ | ⟨other, -⟩ | ⟨i, other, -⟩ := step_cases h
  · exact hostStep_engine_of_busy (s := popSlot s) busy host_step
  all_goals exact absurd (turn.symm.trans other) nofun

/-- Settles O25: the host's step keeps the engine, so the block stays busy through it. -/
theorem onlyCompletionOrResetEndsCommand : Obligations.OnlyCompletionOrResetEndsCommand := by
  refine ⟨fun s off v busy => writeOffset_engine_of_busy busy off v, fun s t busy h =>
    ⟨fun turn => step_host_engine busy turn h, fun idle => ?_⟩⟩
  cases turn : s.turn with
  | engine => exact .inl rfl
  | reset => exact .inr rfl
  | host =>
    rw [busy_congr (step_host_engine busy turn h), busy] at idle
    cases idle

/-! ## A running command ends -/

@[simp] theorem startCommand_schedule (v : Word) (s : State) : (startCommand v s).schedule = s.schedule := by
  obtain ⟨e, -, h⟩ | ⟨i, -, -, h⟩ | ⟨i, -, -, h⟩ := startCommand_cases v s <;> simp [h]

@[simp] theorem writeOffset_schedule (off : BitVec 8) (v : Word) (s : State) : (writeOffset off v s).schedule = s.schedule := by
  obtain h | ⟨-, h⟩ | h | h | ⟨-, h | h | h | h | h⟩ := writeOffset_cases off v s <;> simp [h]

theorem hostStep_schedule {s t : State} (h : hostStep s = .next t) : t.schedule = s.schedule := by
  obtain rfl | rfl | ⟨off, v, -, rfl⟩ | ⟨v, rfl⟩ | ⟨v, rfl⟩ | ⟨n, v, rfl⟩ | ⟨a, bs, -, rfl⟩ | ⟨-, -, rfl⟩ := hostStep_cases h
  case inr.inr.inl => exact writeOffset_schedule off v s
  all_goals rfl

/-- A step after which a running command still runs was the host's, and has used up a slot of the schedule. -/
theorem step_still_busy {s t : State} (busy : s.busy = true) (h : step s = .next t) (still : t.busy = true) :
    s.schedule = .host :: t.schedule := by
  obtain ⟨turn, host_step⟩ | ⟨-, rfl⟩ | ⟨-, idle, -⟩ | ⟨i, -, -, -, run⟩ := step_cases h
  · rw [hostStep_schedule host_step, popSlot_schedule]
    cases schedule : s.schedule with
    | nil => rw [turn_of_nil schedule, busy] at turn; cases turn
    | cons x xs => rw [turn_of_cons schedule] at turn; rw [turn, List.tail_cons]
  · cases still
  · exact absurd (busy.symm.trans idle) nofun
  · exact absurd (still.symm.trans (exec_busy run)) nofun

section
variable {s : State} (k : Nat)

theorem run_succ_next {t : State} (h : step s = .next t) :
    Host.Core.run Sys2Proof.core (k + 1) s = Host.Core.run Sys2Proof.core k t := by
  have core_step : Sys2Proof.core.step s = .next t := h
  simp only [Host.Core.run, core_step]

theorem run_succ_fault {f : Fault} (h : step s = .fault f) : Host.Core.run Sys2Proof.core (k + 1) s = .fault f := by
  have core_step : Sys2Proof.core.step s = .fault f := h
  simp only [Host.Core.run, core_step]

end

/-- Settles O26: by induction on the schedule, since each step that leaves the command running uses up one of its slots. -/
theorem runningCommandEnds : Obligations.RunningCommandEnds := by
  intro s inv busy
  obtain ⟨slots, schedule⟩ : ∃ slots, slots = s.schedule := ⟨_, rfl⟩
  rw [← schedule]
  induction slots generalizing s with
  | nil =>
    obtain ⟨t, h⟩ | ⟨f, other, h⟩ := step_ends inv
    · refine ⟨1, le_rfl, .inl ⟨t, run_succ_next 0 h, ?_⟩⟩
      by_contra still
      cases schedule.trans (step_still_busy busy h (by simpa using still))
    · exact ⟨1, le_rfl, .inr ⟨f, other, run_succ_fault 0 h⟩⟩
  | cons x slots ih =>
    obtain ⟨t, h⟩ | ⟨f, other, h⟩ := step_ends inv
    · cases still : t.busy with
      | false => exact ⟨1, by simp, .inl ⟨t, run_succ_next 0 h, still⟩⟩
      | true =>
        have rest := (List.cons.inj (schedule.trans (step_still_busy busy h still))).2
        obtain ⟨k, within, ends⟩ := ih t (stepKeepsInvariant s t inv h) still rest
        refine ⟨k + 1, Nat.succ_le_succ within, ?_⟩
        rwa [run_succ_next k h]
    · exact ⟨1, by simp, .inr ⟨f, other, run_succ_fault 0 h⟩⟩

/-! ## A write and a completion at once -/

/-- A register write to a running block can touch DONE, IGNORED_WRITE and DONE_IE and nothing else (44_command_interface.md
R125). -/
theorem writeOffset_of_busy {s : State} (busy : s.busy = true) (off : BitVec 8) (v : Word) :
    ∃ done ignored ie, writeOffset off v s = { s with done := done, ignoredWrite := ignored, doneIe := ie } := by
  obtain h | ⟨-, h⟩ | h | h | ⟨idle, -⟩ := writeOffset_cases off v s
  · exact ⟨s.done, s.ignoredWrite, s.doneIe, h⟩
  · exact ⟨s.done, true, s.doneIe, h⟩
  · exact ⟨_, _, s.doneIe, h⟩
  · exact ⟨s.done, s.ignoredWrite, _, h⟩
  · exact absurd (busy.symm.trans idle) nofun

/-- DONE, IGNORED_WRITE and DONE_IE are no input of a command, and its completion sets DONE and keeps the other two. -/
theorem runCommand_flags (codec : List Byte → Except Raise Completion) (s : State) (done ignored ie : Bool) :
    runCommand codec { s with done := done, ignoredWrite := ignored, doneIe := ie } =
      { runCommand codec s with ignoredWrite := ignored, doneIe := ie } := by
  have outcome : commandOutcome codec { s with done := done, ignoredWrite := ignored, doneIe := ie } = commandOutcome codec s :=
    rfl
  simp only [runCommand, outcome]
  cases commandOutcome codec s with
  | ok completed => rfl
  | error r => rfl

/-- Settles O38: the write touches no input of the command, and the completion keeps IGNORED_WRITE. -/
theorem completionAfterWriteIsNotLost : Obligations.CompletionAfterWriteIsNotLost := by
  intro i s t v off busy run
  refine ⟨exec_done run, fun locked => ?_, runCommand (codecOf i s) s, exec_eq_run i s, ?_⟩
  · obtain ⟨-, ignored, -⟩ := commandFrame i _ t run
    rw [ignored, writeOffset_locked busy locked, noteIgnoredWrite_ignoredWrite]
  · obtain ⟨done, ignored, ie, written⟩ := writeOffset_of_busy busy off v
    have same_codec : codecOf i { s with done := done, ignoredWrite := ignored, doneIe := ie } = codecOf i s := by
      cases i <;> rfl
    rw [written, exec_eq_run, same_codec, runCommand_flags] at run
    rw [← Host.Outcome.next.inj run]
    exact ⟨rfl, rfl, rfl⟩

end Sys2Proof.Machine
end

section
/-!
SUPPORT. The hidden state, and the statement that no step shows it: each operation of the host and of the block does to a state
with its hidden parts blotted out what it does to the state (10_state.md R38, R39, R40).
-/

namespace Sys2Proof.Machine

/-! ## What is read of a state -/

section
variable (s : State)

@[simp] theorem visible_busy : s.visible.busy = s.busy := by
  cases phase : s.engine.phase <;> simp [State.visible, State.busy, phase, State.reset]

@[simp] theorem visible_turn : s.visible.turn = s.turn := by
  simp only [State.turn, visible_busy]
  rfl

@[simp] theorem visible_visible : s.visible.visible = s.visible := by
  cases phase : s.engine.phase <;> simp [State.visible, phase, State.reset]

theorem visible_engine_of_busy (busy : s.busy = true) :
    s.visible = { s with engine := { s.engine with scratch := State.reset.engine.scratch } } := by
  simp only [State.visible, (busy_iff s).mp busy]

theorem visible_engine_of_idle (idle : s.busy = false) : s.visible = { s with engine := State.reset.engine } := by
  simp only [State.visible, (not_busy_iff s).mp idle]

@[simp] theorem visible_hazardAt (k : Access) (a : Nat) : hazardAt k s.visible a = hazardAt k s a := by
  cases busy : s.busy with
  | false => simp only [hazardAt, visible_busy, busy, Bool.false_and]
  | true => rw [visible_engine_of_busy s busy]; rfl

@[simp] theorem visible_firstHazard (k : Access) (a n : Nat) : firstHazard k s.visible a n = firstHazard k s a n := by
  induction n generalizing a with
  | zero => rfl
  | succ n ih => simp only [firstHazard, visible_hazardAt, ih]

@[simp] theorem visible_storeFault (a n : Nat) : storeFault s.visible a n = storeFault s a n := by
  simp only [storeFault, visible_firstHazard]

@[simp] theorem visible_readOffset (off : BitVec 8) : readOffset off s.visible = readOffset off s := by
  have status : statusWord s.visible = statusWord s := by
    simp only [statusWord, visible_busy]
    rfl
  rw [readOffset, readOffset]
  cases regAt off with
  | none => rfl
  | some r =>
    cases r with
    | status => exact status
    | _ => rfl

end

/-! ## What is done to a state -/

section
variable (s : State)

theorem visible_startCommand (idle : s.busy = false) (v : Word) :
    (startCommand v s).visible = startCommand v s.visible := by
  rw [visible_engine_of_idle s idle, startCommand, startCommand]
  have phase := (not_busy_iff s).mp idle
  cases decode v with
  | error e => simp only [State.visible, setErrorRegs_engine, latchCmd_engine, phase]; rfl
  | ok i =>
    cases buffersBad s.inBase s.inLen s.outBase s.outCap with
    | true => simp only [State.visible, setErrorRegs_engine, latchCmd_engine, phase, if_true]; rfl
    | false => simp only [State.visible, Bool.false_eq_true, if_false]; rfl

theorem visible_unlessBusy {f : State → State} (idle : s.busy = false → (f s).visible = f s.visible) :
    (unlessBusy f s).visible = unlessBusy f s.visible := by
  cases busy : s.busy with
  | true => simp only [unlessBusy, visible_busy, busy, if_true]; rfl
  | false => simpa only [unlessBusy, visible_busy, busy, Bool.false_eq_true, if_false] using idle busy

@[simp] theorem visible_writeOffset (off : BitVec 8) (v : Word) :
    (writeOffset off v s).visible = writeOffset off v s.visible := by
  rw [writeOffset, writeOffset]
  cases regAt off with
  | none => rfl
  | some r =>
    cases r with
    | cmd => exact visible_unlessBusy s fun idle => visible_startCommand s idle v
    | inBase | inLen | outBase | outCap => exact visible_unlessBusy s fun _ => rfl
    | _ => rfl

theorem visible_hostPerform (op : HostOp) : hostPerform op s.visible = visibleOutcome (hostPerform op s) := by
  cases op with
  | wr off width v =>
    simp only [hostPerform, hostWrite, ← visible_writeOffset]
    split <;> rfl
  | rd off width =>
    simp only [hostPerform, hostRead, visible_readOffset]
    split <;> rfl
  | poll off f v =>
    simp only [hostPerform, hostPoll, visible_readOffset]
    split
    · split <;> rfl
    · rfl
  | ifne off f v l =>
    simp only [hostPerform, hostIfne, visible_readOffset]
    split
    · split
      · rfl
      · have program : s.visible.host = s.host := rfl
        rw [program]
        split <;> rfl
    · rfl
  | store a bs =>
    simp only [hostPerform, hostStore, visible_storeFault]
    split <;> rfl
  | load a =>
    simp only [hostPerform, hostLoad, visible_hazardAt]
    split <;> rfl
  | label n | mem a bs | stop => rfl

theorem visible_hostStep : hostStep s.visible = visibleOutcome (hostStep s) := by
  have host : s.visible.host = s.host := rfl
  simp only [hostStep, hostPreload, host, visible_storeFault]
  split
  · split
    · rfl
    · exact visible_hostPerform s _
  · split <;> rfl

theorem visible_assertReset : (assertReset s.visible).visible = (assertReset s).visible := by
  cases busy : s.busy with
  | false => rw [visible_engine_of_idle s busy, assertReset, assertReset]; simp only [(not_busy_iff s).mp busy]; rfl
  | true => rw [visible_engine_of_busy s busy, assertReset, assertReset]; simp only [(busy_iff s).mp busy]; rfl

/-- A command reads its latched operands and none of the hidden algorithm state (10_state.md R39, R40). -/
theorem visible_exec (busy : s.busy = true) (i : Instr) : visibleOutcome (exec i s.visible) = visibleOutcome (exec i s) := by
  have codec : codecOf i s.visible = codecOf i s := by
    rw [visible_engine_of_busy s busy]
    cases i <;> rfl
  have outcome : commandOutcome (codecOf i s) s.visible = commandOutcome (codecOf i s) s := by
    rw [visible_engine_of_busy s busy]
    rfl
  rw [exec_eq_run, exec_eq_run, codec, runCommand, runCommand, outcome, visible_engine_of_busy s busy]
  cases commandOutcome (codecOf i s) s with
  | ok completed => rfl
  | error r => rfl

end

/-! ## The step -/

/-- A step of the state with its hidden parts blotted out is the state's step. -/
theorem visible_step (s : State) : visibleOutcome (step s.visible) = visibleOutcome (step s) := by
  have popped : popSlot s.visible = (popSlot s).visible := rfl
  have turn_eq := visible_turn s
  cases turn : s.turn with
  | host =>
    rw [step_host (turn_eq.trans turn), step_host turn, popped, visible_hostStep]
    cases hostStep (popSlot s) with
    | next t => exact congrArg Host.Outcome.next (visible_visible t)
    | fault f | refused r => rfl
  | reset =>
    rw [step_reset (turn_eq.trans turn), step_reset turn, popped]
    exact congrArg Host.Outcome.next (visible_assertReset (popSlot s))
  | engine =>
    cases busy : s.busy with
    | false =>
      rw [step_engine_idle (turn_eq.trans turn) ((visible_busy s).trans busy), step_engine_idle turn busy, popped]
      exact congrArg Host.Outcome.next (visible_visible (popSlot s))
    | true =>
      have op : s.visible.engine.op = s.engine.op := by rw [visible_engine_of_busy s busy]
      cases decoded : decodeOp s.engine.op with
      | ok i =>
        rw [step_engine (turn_eq.trans turn) ((visible_busy s).trans busy) (op ▸ decoded), step_engine turn busy decoded,
          popped]
        exact visible_exec (popSlot s) busy i
      | error e =>
        rw [step_engine_fault (turn_eq.trans turn) ((visible_busy s).trans busy) (op ▸ decoded),
          step_engine_fault turn busy decoded]

/-- Settles O27: both steps are that of the one visible state. -/
theorem hiddenStateNeverShows : Obligations.HiddenStateNeverShows := by
  intro s t same
  rw [← visible_step s, same, visible_step t]

end Sys2Proof.Machine
end

section
/-!
SUPPORT. Reading back what was written, and the statements about it: the grow schedule's widths, the size of an Improved stream,
and each variant's two commands undoing each other (42_regular.md R102, R103; 43_improved.md R108..R114; 41_lzw_core.md R95).
-/

namespace Sys2Proof.Machine

/-! ## The grow schedule and the Improved stream -/

/-- A schedule that starts at 9 or more keeps its width until the counter has reached 2^W0 (43_improved.md R114). -/
theorem growAfter_width_eq_start {W0 i : Nat} (wide : 9 ≤ W0) (below : 256 + i < 2 ^ W0) :
    (growAfter i (Grow.start W0)).width = W0 := by
  obtain ⟨-, grown, -, above⟩ := growAfter_schedule W0 i wide
  refine le_antisymm (not_lt.mp fun wider => ?_) grown
  have reached := above wider
  have large : 2 ^ W0 ≤ 2 ^ ((growAfter i (Grow.start W0)).width - 1) := Nat.pow_le_pow_right Nat.two_pos (by omega)
  omega

/-- A schedule never goes below the width it starts at (43_improved.md R114). -/
theorem start_le_growAfter_width (W0 i : Nat) : W0 ≤ (growAfter i (Grow.start W0)).width := by
  obtain narrow | wide := Nat.lt_or_ge W0 9
  · rw [growAfter_start_narrow (Nat.le_of_lt_succ narrow)]
  · exact (growAfter_schedule W0 i wide).2.1

/-- Settles O54: the narrow schedule's closed form, and the wide one's on either side of 2^W0. -/
theorem headerWidthStartsSchedule : Obligations.HeaderWidthStartsSchedule := by
  intro W0 i _ _
  refine ⟨fun narrow => by rw [growAfter_start_narrow narrow], fun wide below => growAfter_width_eq_start wide below,
    fun wide reached => growAfter_width_eq_bitlen wide (le_trans ?_ reached)⟩
  exact Nat.pow_le_pow_right Nat.two_pos (Nat.sub_le W0 1)

/-- Code i of an encoding is at most 255 + i, so it fits the width of i + 256 (43_improved.md R110). -/
theorem encodeSymbols_code_lt {policy : Nat → Admission} {xs : List Symbol} {codes : List Nat} {d : Dict}
    (encoded : encodeSymbols policy xs = .ok (codes, d)) {i : Nat} (h : i < codes.length) :
    codes[i] < 2 ^ (growAfter i (Grow.start 9)).width := by
  obtain ⟨-, bound, -⟩ := encodeLoop_facts encoded encodeReady_seed le_rfl
  have code := bound i h
  have fits := bitlen_lt (i + 256)
  rw [growAfter_width_nine]
  omega

/-- Settles O55: a code below 2^width is its own remainder. -/
theorem improvedCodesFitTheirWidths : Obligations.ImprovedCodesFitTheirWidths := by
  intro policy xs codes d encoded i h
  have fits := encodeSymbols_code_lt encoded h
  exact ⟨growAfter_width_nine i ▸ fits, Nat.mod_eq_of_lt fits⟩

/-- The codes of a stream end where the next one would stand (30_encoding.md R70). -/
theorem growPos_add_length_writeGrowing (codes : List Nat) (W i last : Nat) :
    growPos W i + (writeGrowing codes (growAfter i (Grow.start W)) last).1.length = growPos W (i + codes.length) := by
  induction codes generalizing i last with
  | nil => rfl
  | cons k ks ih =>
    rw [writeGrowing, List.length_append, length_writeFixedWidth, List.length_nil, Nat.zero_add, ← Nat.add_assoc, ← growPos_succ,
      ← growAfter_succ, ih, List.length_cons, Nat.add_right_comm, Nat.add_assoc]

/-- A whole Improved stream has 36 bits and the widths of its codes (30_encoding.md R70). -/
theorem length_improvedBits (codes : List Nat) :
    (improvedBits codes).length = 36 + ((List.range codes.length).map fun i => bitlen (i + 256)).sum := by
  have ends := growPos_add_length_writeGrowing codes 9 0 0
  rw [Nat.zero_add] at ends
  rw [improvedBits, List.length_append, length_writeHeader, List.length_nil, Nat.zero_add]
  refine ends.trans ?_
  simp only [growPos, growAfter_width_nine]

/-- Settles O57: OUT_LEN is the number of bytes that hold the stream's bits. -/
theorem improvedStreamSize : Obligations.ImprovedStreamSize := by
  intro s t h hok
  obtain ⟨c, m, computed, -, rfl⟩ := exec_result_ok h hok
  obtain ⟨codes, d, encoded, rfl⟩ := compressImprovedBytes_eq_ok computed
  have count : (completeOk (improvedCompletion codes d) m s).hdrCount.toNat = codes.length :=
    toNat_ofNat_lt (encodeSymbols_inputBytes_count_lt encoded)
  rw [completeOk_outLen_toNat computed, count, ← length_improvedBits]
  exact length_bitsToBytes _

/-! ## Reading back what was written -/

/-- Codes that fit one width are read back from where they were written (40_bitchannel.md R83). -/
theorem readCodes_writeCodes {W : Nat} {codes : List Nat} (fit : ∀ k ∈ codes, k < 2 ^ W) (before after : Bits) :
    readCodes (before ++ writeCodes W codes ++ after) W before.length codes.length = some codes := by
  induction codes generalizing before with
  | nil => rfl
  | cons k ks ih =>
    have head : readFixedWidth (before ++ writeCodes W (k :: ks) ++ after) before.length W = some k := by
      rw [writeCodes, writeFixedWidth, List.nil_append, List.append_assoc, List.append_assoc, readFixedWidth_written,
        Nat.mod_mod, Nat.mod_eq_of_lt (fit k List.mem_cons_self)]
    have rest := ih (fun k' hk' => fit k' (List.mem_cons_of_mem k hk')) (before ++ writeFixedWidth [] k W)
    rw [List.append_assoc before, List.length_append, length_writeFixedWidth, List.length_nil, Nat.zero_add] at rest
    rw [List.length_cons, readCodes, head, writeCodes, rest]

/-- As `readCodes_writeCodes`, under the grow schedule (43_improved.md R112, R113). -/
theorem readGrowing_writeGrowing {codes : List Nat} {g : Grow}
    (fit : ∀ (i : Nat) (h : i < codes.length), codes[i] < 2 ^ (growAfter i g).width) (before after : Bits) (i last : Nat) :
    readGrowing (before ++ (writeGrowing codes g last).1 ++ after) codes.length before.length g i last =
      .ok (codes, (writeGrowing codes g last).2) := by
  induction codes generalizing g before i last with
  | nil => rfl
  | cons k ks ih =>
    have fit_head : k < 2 ^ g.width := fit 0 (Nat.succ_pos _)
    have head : readFixedWidth (before ++ (writeGrowing (k :: ks) g last).1 ++ after) before.length g.width = some k := by
      rw [writeGrowing, writeFixedWidth, List.nil_append, List.append_assoc, List.append_assoc, readFixedWidth_written,
        Nat.mod_mod, Nat.mod_eq_of_lt fit_head]
    have rest := ih (g := growStep g) (fun j hj => fit (j + 1) (Nat.succ_lt_succ hj)) (before ++ writeFixedWidth [] k g.width)
      (i + 1) g.width
    rw [List.append_assoc before, List.length_append, length_writeFixedWidth, List.length_nil, Nat.zero_add] at rest
    rw [List.length_cons, readGrowing, head]
    simp only [writeGrowing, rest]

section
variable {xs : List Symbol} {codes : List Nat} {d : Dict} {cap : Nat}

theorem codes_eq_nil_iff {policy : Nat → Admission} (encoded : encodeSymbols policy xs = .ok (codes, d)) :
    codes = [] ↔ xs = [] := by
  obtain ⟨-, -, empty, -⟩ := encodeLoop_facts encoded encodeReady_seed le_rfl
  simpa using empty

/-- The Regular stream of an encoding decompresses to what was encoded, with the numbers the compression completed with
(42_regular.md R102, R103). -/
theorem decompressRegularBytes_regularBits (encoded : encodeSymbols admitRegular xs = .ok (codes, d))
    (count : codes.length < 2 ^ 32) (fits : xs.length ≤ cap) :
    decompressRegularBytes cap (bitsToBytes (regularBits codes)) = .ok { regularCompletion codes d with out := xs } := by
  obtain ⟨pad, padded⟩ : ∃ pad, bytesToBits (bitsToBytes (regularBits codes)) = regularBits codes ++ pad :=
    ⟨_, (packingPadsWithZeros _).2⟩
  have width := encodeSymbols_regular_width_le encoded
  have header : readHeader (bytesToBits (bitsToBytes (regularBits codes))) = some (regularWidth codes, codes.length) := by
    rw [padded, regularBits, List.append_assoc, readHeader_writeHeader,
      fieldWidth_mod ((by decide : 1 ≤ 8).trans (le_regularWidth codes)) width, Nat.mod_eq_of_lt count]
  obtain rfl | nonempty := eq_or_ne codes []
  · obtain rfl := (codes_eq_nil_iff encoded).mp rfl
    cases encoded
    exact decompressRegularBytes_empty cap header
  · have positive := List.length_pos_iff.mpr nonempty
    have read : decodeFixedWidthArray (bytesToBits (bitsToBytes (regularBits codes))) 36 (regularWidth codes) codes.length =
        .ok codes := by
      have codes_read := readCodes_writeCodes (codes := codes) (fun _ => lt_two_pow_regularWidth)
        (writeHeader [] (regularWidth codes) codes.length) pad
      rw [length_writeHeader, List.length_nil, Nat.zero_add] at codes_read
      have room : ¬ 36 + codes.length * regularWidth codes > (regularBits codes ++ pad).length := by
        rw [List.length_append, length_regularBits]
        omega
      rw [padded, decodeFixedWidthArray, if_neg room, regularBits, codes_read]
    obtain ⟨e, decoded, next⟩ := encodeDecodeRoundTrip admitRegular xs codes d cap encoded fits
    have some_code : codes.length ≥ 1 := positive
    simp only [decompressRegularBytes_ok header positive read decoded, next, regularCompletion, if_pos some_code]

/-- The Improved stream of an encoding decompresses to what was encoded, under the same DICT_CAP, with the numbers the
compression completed with (43_improved.md R112, R113). -/
theorem decompressImprovedBytes_improvedBits {dictCap : Option Nat}
    (encoded : encodeSymbols (admitImproved dictCap) xs = .ok (codes, d)) (count : codes.length < 2 ^ 32)
    (fits : xs.length ≤ cap) :
    decompressImprovedBytes dictCap cap (bitsToBytes (improvedBits codes)) =
      .ok { improvedCompletion codes d with out := xs } := by
  obtain ⟨pad, padded⟩ : ∃ pad, bytesToBits (bitsToBytes (improvedBits codes)) = improvedBits codes ++ pad :=
    ⟨_, (packingPadsWithZeros _).2⟩
  have header : readHeader (bytesToBits (bitsToBytes (improvedBits codes))) = some (9, codes.length) := by
    rw [padded, improvedBits, List.append_assoc, readHeader_writeHeader, fieldWidth_mod (by decide) (by decide),
      Nat.mod_eq_of_lt count]
  obtain rfl | nonempty := eq_or_ne codes []
  · obtain rfl := (codes_eq_nil_iff encoded).mp rfl
    cases encoded
    exact decompressImprovedBytes_empty dictCap cap header
  · have positive := List.length_pos_iff.mpr nonempty
    have read : readGrowing (bytesToBits (bitsToBytes (improvedBits codes))) codes.length 36 (Grow.start 9) 0 0 =
        .ok (codes, improvedLastWidth codes) := by
      have codes_read := readGrowing_writeGrowing (fun i h => encodeSymbols_code_lt encoded h)
        (writeHeader [] 9 codes.length) pad 0 0
      rw [length_writeHeader, List.length_nil, Nat.zero_add] at codes_read
      rw [padded]
      exact codes_read
    obtain ⟨e, decoded, next⟩ := encodeDecodeRoundTrip (admitImproved dictCap) xs codes d cap encoded fits
    rw [decompressImprovedBytes_ok header positive read decoded, next]
    rfl

end

/-! ## The round trip of the commands -/

/-- A command whose codec gives the input of another back from its output, with its numbers, undoes that command: the bytes are
in memory, and the header and dictionary registers are the same. -/
theorem exec_undoes {i j : Instr} {s t u : State} {c : Completion} {m : Memory} (canonical : s.mem.wf = true)
    (canonical' : u.mem.wf = true) (computed : codecOf i s s.inputBytes = .ok c) (written : writeOutput s c.out = .ok m)
    (ends : t = completeOk c m s) (undone : codecOf j u c.out = .ok { c with out := s.inputBytes })
    (input : u.inputBytes = (List.range t.outLen.toNat).map fun k => t.mem.read (s.outAddr k)) (readable : u.inputReadable)
    (writable : u.outputWritable s.inLength) :
    ∃ v, exec j u = .next v ∧ v.result = .ok ∧ v.outLen.toNat = s.inLength ∧
      (∀ k < s.inLength, v.mem.read (u.outAddr k) = s.mem.read (s.inAddr k)) ∧
      v.hdrWidth = t.hdrWidth ∧ v.hdrCount = t.hdrCount ∧ v.lastWidth = t.lastWidth ∧ v.dictNext = t.dictNext := by
  subst ends
  have output : u.inputBytes = c.out := by
    rw [input, completeOk_outLen_toNat computed]
    refine List.ext_getElem (by simp) fun k hk hk' => ?_
    rw [List.getElem_map, List.getElem_range, completeOk_mem, read_writeOutput_inside canonical written hk']
  rw [← output] at undone
  have all : u.outputWritable s.inputBytes.length := by rwa [length_inputBytes]
  have run : exec j u = .next (completeOk { c with out := s.inputBytes } (u.mem.writeAll (u.outAddr 0) s.inputBytes) u) := by
    rw [exec_eq_run, runCommand_ok readable undone all]
  refine ⟨_, run, rfl, ?_, fun k hk => ?_, rfl, rfl, rfl, rfl⟩
  · rw [completeOk_outLen_toNat undone, length_inputBytes]
  · have hk' : k < s.inputBytes.length := by rwa [length_inputBytes]
    have byte := inputBytes_getElem? hk
    rw [List.getElem?_eq_getElem hk'] at byte
    rw [completeOk_mem, read_writeOutput_inside canonical' (writeOutput_ok all) hk', Option.some.inj byte]

/-- Settles O52: the Regular codecs undo each other on the output's bytes. -/
theorem regularCommandsRoundTrip : Obligations.RegularCommandsRoundTrip := by
  intro s t u canonical canonical' run ok input readable capacity writable
  obtain ⟨c, m, computed, written, ends⟩ := exec_result_ok run ok
  obtain ⟨codes, d, encoded, rfl⟩ := compressRegularBytes_eq_ok computed
  have undone := decompressRegularBytes_regularBits (cap := u.outCapacity) encoded (encodeSymbols_inputBytes_count_lt encoded)
    (by rwa [length_inputBytes])
  exact exec_undoes (j := .decompressRegular) canonical canonical' computed written ends undone input readable writable

/-- Settles O58: the Improved codecs undo each other on the output's bytes under the same DICT_CAP. -/
theorem improvedCommandsRoundTrip : Obligations.ImprovedCommandsRoundTrip := by
  intro s t u canonical canonical' run ok same_cap input readable capacity writable
  obtain ⟨c, m, computed, written, ends⟩ := exec_result_ok run ok
  obtain ⟨codes, d, encoded, rfl⟩ := compressImprovedBytes_eq_ok computed
  have undone := decompressImprovedBytes_improvedBits (cap := u.outCapacity) encoded (encodeSymbols_inputBytes_count_lt encoded)
    (by rwa [length_inputBytes])
  rw [← same_cap] at undone
  exact exec_undoes (j := .decompressImproved) canonical canonical' computed written ends undone input readable writable

end Sys2Proof.Machine
end

section
/-!
SUPPORT. The dictionary's growth, what its codes spell and what each command can complete with, and the statements about them
(41_lzw_core.md R85, R86, R87; 10_state.md R31, R33; 60_exceptions.md R131).
-/

namespace Sys2Proof.Machine

/-! ## The dictionary grows -/

section
variable {policy : Nat → Admission} {d e : Dict} {w v : Sequence}

/-- An encoding keeps every entry at its code (41_lzw_core.md R85, R86). -/
theorem EncodeRun.grows {xs : List Symbol} {emitted : List Nat} (run : EncodeRun policy d w xs emitted e v) :
    d.entries <+: e.entries ∧ d.nextCode ≤ e.nextCode := by
  induction run with
  | done => exact ⟨List.prefix_refl _, le_rfl⟩
  | extend _ _ ih => exact ih
  | emit _ registered _ ih =>
    obtain ⟨entries, next⟩ := prefix_register registered
    exact ⟨entries.trans ih.1, next.trans ih.2⟩

/-- As `EncodeRun.grows`, for a decoding. -/
theorem DecodeRun.grows {ks : List Nat} {out : List Symbol} (run : DecodeRun policy d w ks out e v) :
    d.entries <+: e.entries ∧ d.nextCode ≤ e.nextCode := by
  induction run with
  | done => exact ⟨List.prefix_refl _, le_rfl⟩
  | entry _ registered _ ih =>
    obtain ⟨entries, next⟩ := prefix_register registered
    exact ⟨entries.trans ih.1, next.trans ih.2⟩

end

section
variable {policy : Nat → Admission} {xs ys : List Symbol} {codes codes' : List Nat} {d e : Dict}

theorem encodeSymbols_seeded (h : encodeSymbols policy xs = .ok (codes, d)) :
    Dict.seed.entries <+: d.entries ∧ Dict.seed.nextCode ≤ d.nextCode := by
  cases xs with
  | nil => cases h; exact ⟨List.prefix_refl _, le_rfl⟩
  | cons c xs =>
    rw [encodeSymbols_cons] at h
    obtain ⟨emitted, v, run, -⟩ := exists_encodeRun h (encodePending_seed c)
    exact run.grows

theorem encodeSymbols_nodup (h : encodeSymbols policy xs = .ok (codes, d)) : d.entries.Nodup := by
  cases xs with
  | nil => cases h; exact seed_nodup
  | cons c xs =>
    rw [encodeSymbols_cons] at h
    obtain ⟨emitted, v, run, -⟩ := exists_encodeRun h (encodePending_seed c)
    exact (run.ready (encodePending_seed c)).distinct

/-- An encoding of more symbols goes on from the dictionary of fewer (41_lzw_core.md R85). -/
theorem encodeSymbols_append_grows (h : encodeSymbols policy xs = .ok (codes, d))
    (h' : encodeSymbols policy (xs ++ ys) = .ok (codes', e)) : d.entries <+: e.entries ∧ d.nextCode ≤ e.nextCode := by
  cases xs with
  | nil => cases h; exact encodeSymbols_seeded h'
  | cons c xs =>
    rw [encodeSymbols_cons] at h
    obtain ⟨emitted, v, run, -⟩ := exists_encodeRun h (encodePending_seed c)
    rw [List.cons_append, encodeSymbols_cons, run.encodeLoop_append, prepend_eq_ok] at h'
    obtain ⟨later, rest, -⟩ := h'
    obtain ⟨emitted', v', run', -⟩ := exists_encodeRun rest (run.ready (encodePending_seed c))
    exact run'.grows

end

section
variable {policy : Nat → Admission} {codes more : List Nat} {cap : Nat} {out out' : List Symbol} {d e : Dict}

theorem decodeCodes_seeded (h : decodeCodes policy codes cap = .ok (out, d)) :
    Dict.seed.entries <+: d.entries ∧ Dict.seed.nextCode ≤ d.nextCode := by
  cases codes with
  | nil => cases h; exact ⟨List.prefix_refl _, le_rfl⟩
  | cons k ks =>
    obtain ⟨c, later, v, -, -, run⟩ := decodeCodes_cons_ok h
    exact run.grows

theorem decodeCodes_dense (h : decodeCodes policy codes cap = .ok (out, d)) : d.entries.length = d.nextCode := by
  cases codes with
  | nil => cases h; exact length_seed
  | cons k ks =>
    obtain ⟨c, later, v, -, -, run⟩ := decodeCodes_cons_ok h
    exact (run.ready (decodeReady_seed c)).dense

/-- A decoding of more codes goes on from the dictionary of fewer (41_lzw_core.md R85). -/
theorem decodeCodes_append_grows (h : decodeCodes policy codes cap = .ok (out, d))
    (h' : decodeCodes policy (codes ++ more) cap = .ok (out', e)) : d.entries <+: e.entries ∧ d.nextCode ≤ e.nextCode := by
  have fits := decodeCodes_length h
  cases codes with
  | nil => cases h; exact decodeCodes_seeded h'
  | cons k ks =>
    obtain ⟨c, later, v, rfl, rfl, run⟩ := decodeCodes_cons_ok h
    rw [run.decodeCodes_append fits, prepend_eq_ok] at h'
    obtain ⟨rest_out, rest, -⟩ := h'
    obtain ⟨v', run'⟩ := exists_decodeRun rest
    exact run'.grows

end

theorem codeOf_seed_symbol (c : Symbol) : Dict.seed.codeOf [c] = some c.toNat := by
  obtain ⟨k, found⟩ := Option.isSome_iff_exists.mp ((codeOf_isSome _ _).mpr (single_mem_seed c))
  have emitted := (encodePending_seed c).emit_single c
  rw [Dict.emit, found, Option.getD_some] at emitted
  rw [found, emitted]

/-- Settles O43: each loop starts from the seed and registers at nextCode or nowhere, and more input goes on where less ended. -/
theorem dictionaryDiscipline : Obligations.DictionaryDiscipline := by
  refine ⟨fun c => ⟨codeOf_seed_symbol c, seqOf_seed_symbol c⟩, rfl, fun policy xs codes d h => ?_,
    fun policy xs ys codes codes' d e h h' => encodeSymbols_append_grows h h', fun policy codes cap out d h => ?_,
    fun policy codes more cap out out' d e h h' => decodeCodes_append_grows h h'⟩
  · exact ⟨(encodeSymbols_seeded h).1, encodeSymbols_dense h, encodeSymbols_nodup h⟩
  · exact ⟨(decodeCodes_seeded h).1, decodeCodes_dense h⟩

/-! ## What the codes spell -/

/-- A code keeps its sequence in every later dictionary. -/
theorem seqOf_emit_of_prefix {d f : Dict} {w : Sequence} (entry : w ∈ d.entries) (later : d.entries <+: f.entries) :
    f.seqOf (d.emit w) = some w := by
  obtain ⟨grown, eq⟩ := later
  rw [Dict.seqOf, ← eq, List.getElem?_append_left (emit_lt entry)]
  exact seqOf_emit entry

/-- The emitted codes spell, in any later dictionary, all of the pending sequence and the symbols but what is pending at the end
(41_lzw_core.md R87). -/
theorem EncodeRun.spells {policy : Nat → Admission} {xs : List Symbol} {d e f : Dict} {w v : Sequence} {emitted : List Nat}
    (run : EncodeRun policy d w xs emitted e v) (ready : EncodePending d w) (later : e.entries <+: f.entries) :
    (emitted.map fun k => (f.seqOf k).getD []).flatten ++ v = w ++ xs := by
  induction run with
  | done => exact (List.append_nil _).symm
  | extend known _ ih => rw [ih (ready.extend known) later, List.append_assoc, List.singleton_append]
  | emit new registered run ih =>
    have grown := (prefix_register registered).1.trans (run.grows.1.trans later)
    rw [List.map_cons, List.flatten_cons, seqOf_emit_of_prefix ready.mem grown, Option.getD_some, List.append_assoc,
      ih (ready.restart new registered) later, List.singleton_append]

/-- Settles O45: the run's codes spell all but its pending sequence, and the final flush that. -/
theorem codesSpellTheInput : Obligations.CodesSpellTheInput := by
  intro policy xs codes d h
  cases xs with
  | nil => cases h; rfl
  | cons c xs =>
    rw [encodeSymbols_cons] at h
    obtain ⟨emitted, v, run, rfl⟩ := exists_encodeRun h (encodePending_seed c)
    have spelled := run.spells (encodePending_seed c) (List.prefix_refl _)
    rw [List.map_append, List.flatten_append, List.map_singleton, List.flatten_singleton,
      seqOf_emit (run.ready (encodePending_seed c)).mem, Option.getD_some]
    exact spelled

/-! ## The results of a command -/

section
variable {cap : Nat} {r : Raise}

/-- An encoding that nothing bounds raises no DICT_FULL (43_improved.md R105, R112). -/
theorem compressImprovedBytes_unbounded_error {xs : List Symbol} (h : compressImprovedBytes none cap xs = .error r) :
    r.code ≠ .dictFull := by
  obtain ⟨codes, d, encoded⟩ : ∃ codes d, encodeSymbols (admitImproved none) xs = .ok (codes, d) :=
    encodeLoop_total admitImproved_none_ne_full
  simp only [compressImprovedBytes, encoded] at h
  split at h <;> cases h
  nofun

/-- A decoding that nothing bounds raises no DICT_FULL (43_improved.md R105, R113). -/
theorem decompressImprovedBytes_unbounded_error {ys : List Byte} (h : decompressImprovedBytes none cap ys = .error r) :
    r.code ≠ .dictFull := by
  simp only [decompressImprovedBytes] at h
  split at h
  · cases h; nofun
  · split at h
    · cases h
    · split at h
      · cases h; nofun
      · split at h
        · next decoded => cases h; exact decodeCodes_not_full admitImproved_none_ne_full decoded
        · cases h

end

/-- A command's result is OK, BUS_ERROR, or its codec's error, so what holds of these holds of it (60_exceptions.md R131). -/
theorem exec_result_of {P : ResultCode → Prop} {i : Instr} {s t : State} (h : exec i s = .next t) (ok : P .ok)
    (bus : P .busError) (raises : ∀ r, codecOf i s s.inputBytes = .error r → P r.code) : P t.result := by
  obtain ⟨c, m, -, -, rfl⟩ | ⟨r, bus_error | raised, rfl⟩ := exec_completes_or_raises h
  · exact ok
  · rwa [raiseResult_result, bus_error]
  · exact raises r raised

/-- Settles O35: the codec's own errors, command by command, beside OK and BUS_ERROR. -/
theorem resultsEachCommandGives : Obligations.ResultsEachCommandGives := by
  intro s
  refine ⟨fun t h => ?_, fun t h => ?_, fun t h => ⟨?_, fun unbounded => ?_⟩, fun t h => ⟨?_, fun unbounded => ?_⟩⟩
  · refine exec_result_of (P := (· ∈ _)) h (by decide) (by decide) fun r raised => ?_
    rw [compressRegularBytes_error raised]
    decide
  · refine exec_result_of (P := (· ∈ _)) h (by decide) (by decide) fun r raised => ?_
    have code := decompressRegularBytes_error raised
    simp only [List.mem_cons]
    tauto
  · refine exec_result_of (P := (· ∈ _)) h (by decide) (by decide) fun r raised => ?_
    have code := compressImprovedBytes_error raised
    simp only [List.mem_cons]
    tauto
  · refine exec_result_of (P := (· ≠ _)) h nofun nofun fun r raised => ?_
    rw [codecOf, unbounded] at raised
    exact compressImprovedBytes_unbounded_error raised
  · refine exec_result_of (P := (· ∈ _)) h (by decide) (by decide) fun r raised => ?_
    have code := decompressImprovedBytes_error raised
    simp only [List.mem_cons]
    tauto
  · refine exec_result_of (P := (· ≠ _)) h nofun nofun fun r raised => ?_
    rw [codecOf, unbounded] at raised
    exact decompressImprovedBytes_unbounded_error raised

/-! ## The widths a command completes with -/

theorem bitlen_pos {v : Nat} (h : 0 < v) : 0 < bitlen v := by
  have fits := bitlen_lt v
  by_contra zero
  rw [Nat.eq_zero_of_not_pos zero] at fits
  omega

/-- The ranges of HDR_WIDTH and LAST_WIDTH after OK (10_state.md R31, R33). -/
structure WidthsInRange (c : Completion) : Prop where
  positive : 1 ≤ c.hdrWidth
  hdrWidth : c.hdrWidth ≤ 16
  lastWidth : c.lastWidth ≤ 33
  no_code : c.hdrCount = 0 ↔ c.lastWidth = 0

theorem codecOf_widthsInRange {i : Instr} {s : State} {c : Completion} (h : codecOf i s s.inputBytes = .ok c) :
    WidthsInRange c := by
  cases i with
  | compressRegular =>
    obtain ⟨codes, d, encoded, rfl⟩ := compressRegularBytes_eq_ok h
    have byte := le_regularWidth codes
    have width := encodeSymbols_regular_width_le encoded
    refine ⟨(by decide : 1 ≤ 8).trans byte, width, ?_, ?_⟩ <;> simp only [regularCompletion] <;> split <;> omega
  | decompressRegular =>
    obtain ⟨header, last⟩ := decompressRegularBytes_eq_ok h
    obtain ⟨positive, width, -⟩ := readHeader_range header
    refine ⟨positive, width, ?_, ?_⟩ <;> rw [last] <;> split <;> omega
  | compressImproved =>
    obtain ⟨codes, d, encoded, rfl⟩ := compressImprovedBytes_eq_ok h
    have last := improvedLastWidth_le codes (encodeSymbols_inputBytes_count_lt encoded)
    refine ⟨(by decide : 1 ≤ 9), (by decide : 9 ≤ 16), last, ?_⟩
    simp only [improvedCompletion, improvedLastWidth_eq]
    have positive := bitlen_pos (v := codes.length - 1 + 256) (Nat.succ_pos _)
    split <;> omega
  | decompressImproved =>
    obtain ⟨header, last⟩ := decompressImprovedBytes_eq_ok h
    obtain ⟨positive, width, count, -⟩ := readHeader_range header
    have last_le : (growAfter (c.hdrCount - 1) (Grow.start c.hdrWidth)).width ≤ 33 := growAfter_width_le width (by omega)
    have start_le := start_le_growAfter_width c.hdrWidth (c.hdrCount - 1)
    refine ⟨positive, width, ?_, ?_⟩ <;> rw [last] <;> split <;> omega

/-- Settles O36: the registers hold the completion's numbers exactly, and those are in range. -/
theorem widthRegistersInRange : Obligations.WidthRegistersInRange := by
  intro i s t h ok
  obtain ⟨c, m, computed, -, rfl⟩ := exec_result_ok h ok
  have fits := codecOf_fitsRegisters computed
  have range := codecOf_widthsInRange computed
  have hdrWidth : (completeOk c m s).hdrWidth.toNat = c.hdrWidth := toNat_ofNat_lt fits.hdrWidth
  have hdrCount : (completeOk c m s).hdrCount.toNat = c.hdrCount := toNat_ofNat_lt fits.hdrCount
  have lastWidth : (completeOk c m s).lastWidth.toNat = c.lastWidth := toNat_ofNat_lt fits.lastWidth
  have no_code : (completeOk c m s).hdrCount = 0#32 ↔ c.hdrCount = 0 := by rw [← BitVec.toNat_inj, hdrCount]; rfl
  have no_width : (completeOk c m s).lastWidth = 0#6 ↔ c.lastWidth = 0 := by rw [← BitVec.toNat_inj, lastWidth]; rfl
  rw [ne_eq, no_code, no_width, hdrWidth, lastWidth]
  refine ⟨range.positive, range.hdrWidth, range.lastWidth, range.no_code, ?_, ?_, ?_⟩
  · rintro rfl
    obtain ⟨codes, d, -, rfl⟩ := compressRegularBytes_eq_ok computed
    exact le_regularWidth codes
  · rintro rfl
    obtain ⟨codes, d, -, rfl⟩ := compressImprovedBytes_eq_ok computed
    rfl
  · rintro (rfl | rfl) some_code
    · obtain ⟨codes, d, -, rfl⟩ := compressRegularBytes_eq_ok computed
      exact if_pos (Nat.pos_of_ne_zero some_code)
    · exact (decompressRegularBytes_eq_ok computed).2.trans (if_neg some_code)

/-! ## An empty input -/

/-- A codec's completion, its output writable, ends its command with OK and the completion's numbers (60_exceptions.md R134). -/
theorem exec_completes {i : Instr} {s : State} {c : Completion} (canonical : s.mem.wf = true) (readable : s.inputReadable)
    (computed : codecOf i s s.inputBytes = .ok c) (writable : s.outputWritable c.out.length) :
    ∃ t, exec i s = .next t ∧ endedOk s t c.out c.hdrWidth c.hdrCount c.lastWidth (saturate32 c.dictNext) := by
  have fits := codecOf_fitsRegisters computed
  refine ⟨_, by rw [exec_eq_run, runCommand_ok readable computed writable], rfl, rfl, rfl, rfl,
    completeOk_outLen_toNat computed _, toNat_ofNat_lt fits.hdrWidth, toNat_ofNat_lt fits.hdrCount,
    toNat_ofNat_lt fits.lastWidth, toNat_ofNat_lt (saturate32_lt _), fun j hj => ?_⟩
  exact read_writeOutput_inside canonical (writeOutput_ok writable) hj

/-- An empty input needs no read and has no byte. -/
theorem empty_input {s : State} (empty : s.engine.inLen = 0#32) : s.inputReadable ∧ s.inputBytes = [] := by
  have length : s.inLength = 0 := by rw [State.inLength, empty]; rfl
  refine ⟨fun i hi => absurd hi (by omega), List.length_eq_zero_iff.mp ?_⟩
  rw [length_inputBytes, length]

/-- Settles O59: the empty encoding's streams are their headers. -/
theorem emptyInputGivesHeaderAlone : Obligations.EmptyInputGivesHeaderAlone := by
  intro s canonical empty
  obtain ⟨readable, bytes⟩ := empty_input empty
  have regular : encodeSymbols admitRegular s.inputBytes = .ok ([], Dict.seed) := by rw [bytes]; rfl
  have improved : encodeSymbols (admitImproved s.platform.dictCap) s.inputBytes = .ok ([], Dict.seed) := by rw [bytes]; rfl
  have regular_stream : bitsToBytes (regularBits []) = [0x80, 0x00, 0x00, 0x00, 0x00] := by decide
  have improved_stream : bitsToBytes (improvedBits []) = [0x90, 0x00, 0x00, 0x00, 0x00] := by decide
  refine ⟨fun short => ⟨?_, ?_⟩, fun fits writable => ⟨?_, ?_⟩⟩
  · have raised := compressRegularBytes_overflow regular (by rwa [regular_stream])
    rw [regular_stream] at raised
    exact exec_raise (i := .compressRegular) readable raised (by decide)
  · have raised := compressImprovedBytes_overflow improved (by rwa [improved_stream])
    rw [improved_stream] at raised
    exact exec_raise (i := .compressImproved) readable raised (by decide)
  · have computed := compressRegularBytes_fits (cap := s.outCapacity) regular (by rwa [regular_stream])
    rw [← regular_stream]
    refine exec_completes (i := .compressRegular) canonical readable computed ?_
    rw [regularCompletion, regular_stream]
    exact writable
  · have computed := compressImprovedBytes_fits (cap := s.outCapacity) improved (by rwa [improved_stream])
    rw [← improved_stream]
    refine exec_completes (i := .compressImproved) canonical readable computed ?_
    rw [improvedCompletion, improved_stream]
    exact writable

/-! ## Two streams of "AB" -/

/-- Settles O48: the two decodings and the two lengths, run. -/
theorem sourceClaimsThatFail : Obligations.SourceClaimsThatFail := by
  unfold Obligations.SourceClaimsThatFail
  decide

end Sys2Proof.Machine
end

section
/-!
SUPPORT. The host's side, and the statements about it: the command word's two directions, what each register reads, and the lines
of the host's program (30_encoding.md R61, R74; 10_state.md R22, R24; 44_command_interface.md R126, R127; 20_memory.md R42, R55).
-/

namespace Sys2Proof.Machine

/-! ## The command word -/

/-- Settles O1: the four rows and four other words, decoded. -/
theorem tableWordsDecodeToTheirRows : Obligations.TableWordsDecodeToTheirRows := by
  unfold Obligations.TableWordsDecodeToTheirRows
  decide

/-- A word is its reserved bits and its OP (30_encoding.md R60). -/
theorem word_eq_of_fields {v w : Word} (reserved : v.extractLsb' 4 28 = w.extractLsb' 4 28) (op : opField v = opField w) :
    v = w := by
  refine BitVec.eq_of_getLsbD_eq fun j hj => ?_
  obtain low | high := Nat.lt_or_ge j 4
  · simpa [opField, low] using congrArg (·.getLsbD j) op
  · obtain ⟨k, rfl⟩ := Nat.exists_eq_add_of_le high
    have bit : k < 28 := by omega
    simpa [bit] using congrArg (·.getLsbD k) reserved

/-- Settles O3: a word that decodes to a command has the fields of the command's word. -/
theorem decodeAndEncodeAgree : Obligations.DecodeAndEncodeAgree := by
  intro w i
  refine ⟨fun decoded => ?_, fun h => h ▸ decode_encode i⟩
  obtain ⟨reserved, op⟩ := decode_eq_ok.mp decoded
  obtain ⟨own_reserved, -⟩ := decode_eq_ok.mp (decode_encode i)
  exact word_eq_of_fields (reserved.trans own_reserved.symm) op

/-! ## The registers -/

theorem unlessBusy_of_idle {s : State} (idle : s.busy = false) (f : State → State) : unlessBusy f s = f s :=
  if_neg (by simp [idle])

/-- Settles O8: an idle block's four buffer registers are open. -/
theorem idleWriteSetsBufferRegister : Obligations.IdleWriteSetsBufferRegister := fun s v idle =>
  ⟨(writeOffset_offset .inBase v s).trans (unlessBusy_of_idle idle _),
    (writeOffset_offset .inLen v s).trans (unlessBusy_of_idle idle _),
    (writeOffset_offset .outBase v s).trans (unlessBusy_of_idle idle _),
    (writeOffset_offset .outCap v s).trans (unlessBusy_of_idle idle _)⟩

theorem readOffset_status (s : State) : readOffset 0x04#8 s = statusWord s := readOffset_offset .status s

/-- While a command runs, DONE and RESULT are 0 (44_command_interface.md R127). -/
theorem busy_quiet {s : State} (inv : s.Inv) (busy : s.busy = true) : s.done = false ∧ s.result = .ok := by
  obtain ⟨-, -, quiet, -⟩ := inv
  obtain ⟨not_done, ok, -⟩ := quiet busy
  exact ⟨not_done, ok⟩

/-- Settles O9: the concatenation's bits, and the invariant's part about a running command. -/
theorem statusReadsItsFields : Obligations.StatusReadsItsFields := by
  refine ⟨⟨rfl, rfl, rfl, rfl, rfl, rfl, rfl, rfl, rfl⟩, fun s => ⟨fun j hj => ?_, fun inv => ⟨?_, fun busy => ?_⟩⟩⟩
  · rw [readOffset_status, statusWord_getLsbD s hj]
  · rintro ⟨busy, done⟩
    exact absurd ((busy_quiet inv busy).1.symm.trans done) nofun
  · rw [(busy_quiet inv busy).2]
    rfl

/-- STATUS as a number (10_state.md R24). -/
theorem statusWord_toNat (s : State) :
    (statusWord s).toNat = s.busy.toNat + 2 * s.done.toNat + 4 * s.ignoredWrite.toNat + 256 * s.result.toBits.toNat := by
  rw [statusWord]
  generalize s.result.toBits = code
  revert code
  cases s.busy <;> cases s.done <;> cases s.ignoredWrite <;> decide

theorem intEnWord_toNat (s : State) : (intEnWord s).toNat = s.doneIe.toNat := by
  rw [intEnWord_eq]
  cases s.doneIe <;> rfl

/-- Settles O12: each offset is a register's, and each register reads its own field. -/
theorem registerMapReads : Obligations.RegisterMapReads := by
  refine ⟨⟨rfl, rfl, rfl, rfl, rfl, rfl, rfl, rfl, rfl, rfl, rfl, rfl, rfl, rfl⟩, fun s => ?_⟩
  have hdrWidth : (s.hdrWidth.setWidth 32).toNat = s.hdrWidth.toNat := BitVec.toNat_setWidth_of_le (by decide)
  have lastWidth : (s.lastWidth.setWidth 32).toNat = s.lastWidth.toNat := BitVec.toNat_setWidth_of_le (by decide)
  exact ⟨readOffset_offset .cmd s, readOffset_status s ▸ statusWord_toNat s,
    (congrArg BitVec.toNat (readOffset_offset .intEn s)).trans (intEnWord_toNat s), readOffset_offset .inBase s,
    readOffset_offset .inLen s, readOffset_offset .outBase s, readOffset_offset .outCap s, readOffset_offset .outLen s,
    (congrArg BitVec.toNat (readOffset_offset .hdrWidth s)).trans hdrWidth, readOffset_offset .hdrCount s,
    (congrArg BitVec.toNat (readOffset_offset .lastWidth s)).trans lastWidth, readOffset_offset .dictNext s,
    readOffset_dictCapRd s, readOffset_offset .errInfo s, fun off high => readOffset_reserved high s⟩

/-! ## Register reads by the host -/

theorem hostRead_ok {off : BitVec 8} (ok : accessOk off .bits32 = true) (s : State) :
    hostRead off .bits32 s = .next (advanceLine (returnRead (readOffset off s) s)) :=
  if_pos ok

theorem readOffset_popSlot (off : BitVec 8) (s : State) : readOffset off (popSlot s) = readOffset off s := rfl

/-- STATUS of a running command shows BUSY and IGNORED_WRITE alone (44_command_interface.md R127). -/
theorem statusWord_busy {s : State} (inv : s.Inv) (busy : s.busy = true) :
    statusWord s = if s.ignoredWrite then 0x5#32 else 0x1#32 := by
  obtain ⟨not_done, ok⟩ := busy_quiet inv busy
  rw [statusWord, busy, not_done, ok]
  cases s.ignoredWrite <;> rfl

/-- Settles O14: a read touches the host alone, and the invariant says which registers read 0 while busy. -/
theorem readsHaveNoSideEffect : Obligations.ReadsHaveNoSideEffect := by
  refine ⟨fun s off turn loaded line aligned => ?_, fun s inv busy => ?_⟩
  · rw [step_host_line turn loaded line, hostPerform, hostRead_ok ((accessOk_iff off .bits32).mpr ⟨rfl, aligned⟩),
      readOffset_popSlot]
    rfl
  · have status := statusWord_busy inv busy
    obtain ⟨-, -, quiet, -⟩ := inv
    obtain ⟨-, -, errInfo, outLen, hdrWidth, hdrCount, lastWidth, dictNext⟩ := quiet busy
    exact ⟨(readOffset_status s).trans status, (readOffset_offset .outLen s).trans outLen,
      (readOffset_offset .hdrWidth s).trans (congrArg (BitVec.setWidth 32) hdrWidth),
      (readOffset_offset .hdrCount s).trans hdrCount,
      (readOffset_offset .lastWidth s).trans (congrArg (BitVec.setWidth 32) lastWidth),
      (readOffset_offset .dictNext s).trans dictNext,
      (readOffset_offset .errInfo s).trans errInfo, readOffset_offset .cmd s,
      (readOffset_offset .intEn s).trans (intEnWord_eq s), readOffset_offset .inBase s, readOffset_offset .inLen s,
      readOffset_offset .outBase s, readOffset_offset .outCap s, readOffset_dictCapRd s,
      fun off high => readOffset_reserved high s⟩

/-! ## Host accesses to memory -/

section
variable {s : State} {a n : Nat}

/-- A host write that 20_memory.md R55 closes: into either buffer of a running command. -/
theorem hazardAt_write_iff : hazardAt .write s a = true ↔ s.busy = true ∧
    (s.engine.inBase.toNat ≤ a ∧ a < s.engine.inBase.toNat + s.engine.inLen.toNat ∨
      s.engine.outBase.toNat ≤ a ∧ a < s.engine.outBase.toNat + s.engine.outCap.toNat) := by
  simp only [hazardAt, State.inInput, State.inOutput, Bool.and_eq_true, Bool.or_eq_true, decide_eq_true_eq]
  rfl

/-- A host read that 20_memory.md R55 closes: of a running command's output buffer. -/
theorem hazardAt_read_iff : hazardAt .read s a = true ↔
    s.busy = true ∧ s.engine.outBase.toNat ≤ a ∧ a < s.engine.outBase.toNat + s.engine.outCap.toNat := by
  simp only [hazardAt, State.inOutput, Bool.and_eq_true, decide_eq_true_eq]
  rfl

/-- A store past host memory's last byte is that fault, whatever else it meets (20_memory.md R42). -/
theorem storeFault_past (past : 2 ^ 32 < a + n) : storeFault s a n = some (.noSuchAddress (2 ^ 32)) :=
  if_pos past

/-- A store within host memory that is a fault is a buffer hazard. -/
theorem storeFault_within {f : Fault} (within : a + n ≤ 2 ^ 32) (h : storeFault s a n = some f) : ∃ x, f = .bufferHazard x := by
  rw [storeFault, if_neg (Nat.not_lt.mpr within)] at h
  obtain ⟨x, -, rfl⟩ := Option.map_eq_some_iff.mp h
  exact ⟨x, rfl⟩

/-- A store within host memory that meets a hazard is that fault (20_memory.md R55). -/
theorem storeFault_hazard (within : a + n ≤ 2 ^ 32) (closed : ∃ k < n, hazardAt .write s (a + k) = true) :
    ∃ x, storeFault s a n = some (.bufferHazard x) := by
  obtain ⟨k, hk, hazard⟩ := closed
  cases fault : storeFault s a n with
  | none => exact absurd (hazard.symm.trans ((storeFault_none.mp fault).2 k hk)) nofun
  | some f =>
    obtain ⟨x, rfl⟩ := storeFault_within within fault
    exact ⟨x, rfl⟩

/-- A store within host memory that meets no hazard takes its effect. -/
theorem storeFault_open (within : a + n ≤ 2 ^ 32) (free : ¬ ∃ k < n, hazardAt .write s (a + k) = true) :
    storeFault s a n = none :=
  storeFault_none.mpr ⟨within, fun k hk => Bool.eq_false_iff.mpr fun hazard => free ⟨k, hk, hazard⟩⟩

/-- A store by the host while no command runs meets no hazard. -/
theorem storeFault_idle (idle : s.busy = false) (within : a + n ≤ 2 ^ 32) : storeFault s a n = none := by
  refine storeFault_open within ?_
  rintro ⟨k, -, hazard⟩
  exact absurd ((hazardAt_write_iff.mp hazard).1.symm.trans idle) nofun

end

section
variable {s : State}

/-- The MEM lines' stores are a fault exactly where one of them is, and then they are the first such one's. -/
theorem hostPreload_fault {l : Word × List Byte} (line : l ∈ s.host.memLines)
    (fault : storeFault s l.1.toNat l.2.length ≠ none) :
    ∃ l ∈ s.host.memLines, ∃ f, storeFault s l.1.toNat l.2.length = some f ∧ hostPreload s = .fault f := by
  unfold hostPreload
  split
  · next f found =>
    obtain ⟨l, line, eq⟩ := List.exists_of_findSome?_eq_some found
    exact ⟨l, line, f, eq, rfl⟩
  · next none_found => exact absurd (List.findSome?_eq_none_iff.mp none_found l line) fault

theorem hostPreload_open (free : ∀ l ∈ s.host.memLines, storeFault s l.1.toNat l.2.length = none) :
    hostPreload s = .next (beginProgram s) := by
  rw [hostPreload, List.findSome?_eq_none_iff.mpr free]

theorem hostStore_fault {a : Word} {bs : List Byte} {f : Fault} (fault : storeFault s a.toNat bs.length = some f) :
    hostStore a bs s = .fault f := by
  rw [hostStore, fault]

theorem hostStore_open {a : Word} {bs : List Byte} (free : storeFault s a.toNat bs.length = none) :
    hostStore a bs s = .next (advanceLine (storeBytes a.toNat bs s)) := by
  rw [hostStore, free]

end

/-- Settles O16: what is closed is a hazard, and only a hazard is a fault of an access within host memory. -/
theorem bufferAccessWhileBusyFaults : Obligations.BufferAccessWhileBusyFaults := by
  intro s turn here closed
  have closed_iff (a : Word) (bs : List Byte) :
      closed a bs ↔ ∃ k < bs.length, hazardAt .write (popSlot s) (a.toNat + k) = true := by
    simp only [hazardAt_write_iff]
    rfl
  refine ⟨fun fresh within => ?_, fun loaded a bs line within => ?_, fun loaded a line => ?_⟩
  · rw [step_host_preload turn fresh]
    have within_line (l) (line : l ∈ (popSlot s).host.memLines) : l.1.toNat + l.2.length ≤ 2 ^ 32 :=
      within l.1 l.2 (mem_memLines.mp line)
    refine ⟨?_, fun free => ?_⟩
    · rintro ⟨a, bs, line, hit⟩
      have listed : (a, bs) ∈ (popSlot s).host.memLines := mem_memLines.mpr line
      obtain ⟨x, fault⟩ := storeFault_hazard (within a bs line) ((closed_iff a bs).mp hit)
      obtain ⟨l, line', f, eq, stops⟩ := hostPreload_fault listed (by rw [fault]; nofun)
      obtain ⟨y, rfl⟩ := storeFault_within (within_line l line') eq
      exact ⟨y, stops⟩
    · exact hostPreload_open fun l line =>
        storeFault_open (within_line l line) ((closed_iff l.1 l.2).not.mp (free l.1 l.2 (mem_memLines.mp line)))
  · rw [step_host_line turn loaded line]
    refine ⟨fun hit => ?_, fun free => hostStore_open (storeFault_open within ((closed_iff a bs).not.mp free))⟩
    obtain ⟨x, fault⟩ := storeFault_hazard within ((closed_iff a bs).mp hit)
    exact ⟨x, hostStore_fault fault⟩
  · intro closed
    have hazard : hazardAt .read (popSlot s) a.toNat = true ↔ closed := hazardAt_read_iff
    rw [step_host_line turn loaded line]
    exact ⟨fun hit => if_pos (hazard.mpr hit), fun free => if_neg (hazard.not.mpr free)⟩

/-! ## The lines of a host program -/

theorem accessOk_offset (r : Reg) : accessOk r.offset .bits32 = true := by
  cases r <;> rfl

/-- A field of a word by division (00_scope.md R11). -/
theorem bitField_value (f : BitField) (w : Word) : f.value w = w.toNat / 2 ^ f.lo % 2 ^ (f.hi + 1 - f.lo) := by
  rw [BitField.value, Nat.shiftRight_eq_div_pow]

/-- The stores of the MEM lines, line by line of the program (30_encoding.md R74). -/
theorem storeLines_filterMap (program : List HostOp) (m : Memory) :
    storeLines m (program.filterMap HostOp.memLine?) =
      program.foldl (fun (m : Memory) op => match op with | .mem a bs => m.writeAll a.toNat bs | _ => m) m := by
  induction program generalizing m with
  | nil => rfl
  | cons op program ih =>
    cases op with
    | mem a bs => exact ih (m.writeAll a.toNat bs)
    | _ => exact ih m

theorem hostWrite_offset (r : Reg) (v : Word) (s : State) :
    hostWrite r.offset .bits32 v s = .next (advanceLine (writeOffset r.offset v s)) :=
  if_pos (accessOk_offset r)

/-- A POLL reads once and leaves the line where the field is the value (30_encoding.md R74). -/
theorem hostPoll_offset (r : Reg) (f : BitField) (v : Word) (s : State) :
    hostPoll r.offset f v s = .next
      (if f.value (readOffset r.offset s) = v.toNat then advanceLine (returnRead (readOffset r.offset s) s)
        else returnRead (readOffset r.offset s) s) :=
  if_pos (accessOk_offset r)

section
variable {r : Reg} {f : BitField} {v : Word} (l : Nat) {s : State}

theorem hostIfne_equal (equal : f.value (readOffset r.offset s) = v.toNat) :
    hostIfne r.offset f v l s = .next (advanceLine (returnRead (readOffset r.offset s) s)) := by
  simp only [hostIfne, if_pos (accessOk_offset r), if_pos equal]

variable {l} (differs : f.value (readOffset r.offset s) ≠ v.toNat)
include differs

theorem hostIfne_label {n : Nat} (found : s.host.program.idxOf? (.label l) = some n) :
    hostIfne r.offset f v l s = .next (gotoLine n (returnRead (readOffset r.offset s) s)) := by
  simp only [hostIfne, if_pos (accessOk_offset r), if_neg differs, found]

theorem hostIfne_undefined (missing : s.host.program.idxOf? (.label l) = none) :
    hostIfne r.offset f v l s = .fault (.undefinedLabel l) := by
  simp only [hostIfne, if_pos (accessOk_offset r), if_neg differs, missing]

end

/-- The first line with a label is where it is found (30_encoding.md R74). -/
theorem idxOf?_eq_some_of_first {program : List HostOp} {op : HostOp} {n : Nat} (line : program[n]? = some op)
    (first : ∀ m < n, program[m]? ≠ some op) : program.idxOf? op = some n := by
  obtain ⟨hn, eq⟩ := List.getElem?_eq_some_iff.mp line
  refine List.idxOf?_eq_some_iff.mpr ⟨hn, by simp [eq], fun m hm => ?_⟩
  have other := first m hm
  rw [List.getElem?_eq_getElem (hm.trans hn)] at other
  simpa using other

/-- Settles O60: each line's own operation, on the state with its slot used up. -/
theorem hostProgramLines : Obligations.HostProgramLines := by
  intro s turn here at_ next_ field
  have field_eq (f : BitField) (r : Reg) : f.value (readOffset r.offset (popSlot s)) = field f r := bitField_value f _
  refine ⟨fun fresh idle => ?_, fun loaded => ?_⟩
  · rw [step_host_preload turn fresh]
    refine ⟨fun within => ?_, ?_⟩
    · have free (l) (line : l ∈ (popSlot s).host.memLines) : storeFault (popSlot s) l.1.toNat l.2.length = none :=
        storeFault_idle idle (within l.1 l.2 (mem_memLines.mp line))
      rw [hostPreload_open free, beginProgram, HostPort.memLines, storeLines_filterMap]
      rfl
    · rintro ⟨a, bs, line, past⟩
      have listed : (a, bs) ∈ (popSlot s).host.memLines := mem_memLines.mpr line
      obtain ⟨l, -, f, fault, stops⟩ := hostPreload_fault listed (by rw [storeFault_past past]; nofun)
      rw [stops]
      obtain outside | within := Nat.lt_or_ge (2 ^ 32) (l.1.toNat + l.2.length)
      · rw [storeFault_past outside] at fault
        rw [Option.some.inj fault]
      · rw [storeFault_idle (s := popSlot s) idle within] at fault
        cases fault
  · refine ⟨fun r v line => ?_, fun r line => ?_, fun r f v line => ?_, fun r f v l line => ?_, fun l line => ?_,
      fun a bs line => ?_, fun a bs line idle => ?_, ?_⟩
    · exact (step_host_line turn loaded line).trans (hostWrite_offset r v _)
    · exact (step_host_line turn loaded line).trans (hostRead_ok (accessOk_offset r) _)
    · rw [step_host_line turn loaded line, hostPerform, hostPoll_offset, field_eq]
      by_cases met : field f r = v.toNat
      · simp only [if_pos met]; rfl
      · simp only [if_neg met]; rfl
    · rw [step_host_line turn loaded line, hostPerform, ← field_eq]
      refine ⟨fun equal => hostIfne_equal l equal, fun differs => ⟨fun n label first => ?_, fun missing => ?_⟩⟩
      · exact hostIfne_label differs (idxOf?_eq_some_of_first label first)
      · exact hostIfne_undefined differs (List.idxOf?_eq_none_iff.mpr missing)
    · exact step_host_line turn loaded line
    · exact step_host_line turn loaded line
    · rw [step_host_line turn loaded line, hostPerform]
      split
      · next within => exact hostStore_open (storeFault_idle idle within)
      · next past => exact hostStore_fault (storeFault_past (Nat.lt_of_not_ge past))
    · rintro (line | line)
      · exact step_host_line turn loaded line
      · exact step_host_done turn loaded line

end Sys2Proof.Machine
end
